-- ==== Sys2Proof/Word.lean ====
section
/-!
DEFINITION. The word of the two interface streams, and the bit-path.
A word is one 32-bit vector, never four bytes (20_memory.md R52); bit 0 is the least significant bit (00_scope.md R9).
Symbols, frequencies and node indices have a width that depends on the parameters SYM_W and FREQ_W (00_scope.md R6, R7,
R8) and are never shifted or masked: they are natural numbers, and their bounds are invariants of the machine.
-/

namespace Sys2Proof

/-- A command word or a response word (00_scope.md R8: WORD = 32). -/
abbrev Word := BitVec 32

/-- A bit-path, root decision first; false is 0 and left, true is 1 and right (00_scope.md R10). -/
abbrev BitPath := List Bool

end Sys2Proof
end

