-- ==== Sys2Proof/Config.lean ====
section
/-!
DEFINITION. The parameters of one block and the constants they fix (00_scope.md R6, R7, R8).
-/

namespace Sys2Proof

/-- The two open parameters of the block (92_eei_decisions.md D3, D4): a model takes both as arguments. -/
structure Params where
  /-- SYM_W, the width of a symbol. -/
  symW : Nat
  /-- FREQ_W, the width of a frequency. -/
  freqW : Nat
  deriving DecidableEq, Repr

namespace Params

/-- The ranges of the parameters (R6: 1 <= SYM_W <= 24; R7: FREQ_W >= 1). -/
abbrev Ok (p : Params) : Prop := 1 ≤ p.symW ∧ p.symW ≤ 24 ∧ 1 ≤ p.freqW

/-- The reference values of the test vectors: SYM_W = 8, FREQ_W = 32 (R6, R7). -/
def ref : Params := { symW := 8, freqW := 32 }

/-- NSYM, the number of symbol values (R8). -/
def nsym (p : Params) : Nat := 2 ^ p.symW

/-- NODE_CAP, the number of entries of the node memory (R8). -/
def nodeCap (p : Params) : Nat := 2 * p.nsym - 1

/-- IDX_W, the width of a node index (R8). -/
def idxW (p : Params) : Nat := p.symW + 1

/-- MAX_PATH, the longest bit-path (R8). -/
def maxPath (p : Params) : Nat := max 1 (p.nsym - 1)

/-- FREQ_MAX, the largest frequency (R8). -/
def freqMax (p : Params) : Nat := 2 ^ p.freqW - 1

end Params

end Sys2Proof
end

