-- ==== Sys2Proof/Syntax.lean ====
section
/-!
DEFINITION. The thirteen commands of the command set (30_encoding.md R74), one constructor per row of the opcode table.
-/

namespace Sys2Proof

/-- A command with its operand: none (form N), a symbol (form S) or one bit of a bit-path (form B)
(30_encoding.md R71, R72). -/
inductive Instr where
  /-- FCLR: start a new, empty Frequency Table (40_frequency.md R101). -/
  | fclr
  /-- FSYM s: count one occurrence of symbol s (40_frequency.md R102). -/
  | fsym (x : Nat)
  /-- BUILD: build tree and code table from the Frequency Table (41_tree_builder.md R110). -/
  | build
  /-- ENC s: answer the bit-path of symbol s (43_encoder.md R141). -/
  | enc (x : Nat)
  /-- DBEG: begin a decode session on the root (44_decoder.md R152). -/
  | dbeg
  /-- DBIT b: take one step of the path (44_decoder.md R153). -/
  | dbit (b : Bool)
  /-- DEND: the path is consumed; give the result (44_decoder.md R154). -/
  | dend
  /-- SER: serialize the tree (45_persistence.md R171). -/
  | ser
  /-- LBEG: begin a load session (45_persistence.md R172). -/
  | lbeg
  /-- LLEAF s: one leaf record (45_persistence.md R174). -/
  | lleaf (x : Nat)
  /-- LBR: one branch record (45_persistence.md R175). -/
  | lbr
  /-- LEND: the record is complete; give the result (45_persistence.md R176). -/
  | lend
  /-- DROP: the owner drops the tree (41_tree_builder.md R121). -/
  | drop
  deriving DecidableEq, Repr

end Sys2Proof
end

