-- ==== Sys2Proof/WellFormed.lean ====
section
/-!
DEFINITION. Which commands exist on a block with given parameters.
-/

namespace Sys2Proof

/-- A command is well-formed when its symbol operand fits SYM_W bits: "a symbol that does not fit SYM_W bits can never
enter the block" (30_encoding.md R72).  A bit operand always fits form B, and form N has no operand. -/
def Instr.wf (p : Params) : Instr → Bool
  | .fclr => true
  | .fsym x => decide (x < p.nsym)
  | .build => true
  | .enc x => decide (x < p.nsym)
  | .dbeg => true
  | .dbit _ => true
  | .dend => true
  | .ser => true
  | .lbeg => true
  | .lleaf x => decide (x < p.nsym)
  | .lbr => true
  | .lend => true
  | .drop => true

end Sys2Proof
end

