-- ==== Sys2Proof/Decode.lean ====
section
/-!
DEFINITION. The command words: decoding (total, rejecting by name) and encoding (30_encoding.md R70 to R75).
-/

namespace Sys2Proof

/-- OP, bits 31:24 of a command word (R70). -/
def opField (w : Word) : Nat := w.toNat / 2 ^ 24

/-- ARG, bits 23:0 of a command word (R70). -/
def argField (w : Word) : Nat := w.toNat % 2 ^ 24

/-- A 32-bit word from its upper 8 and its lower 24 bits: the layout of command words (R70) and of response words
(R80). -/
def wordOf (hi lo : Nat) : Word := BitVec.ofNat 32 (hi * 2 ^ 24 + lo)

/-- Why a word is no command (R73, R75). -/
inductive Illegal where
  /-- OP is 0x00 or 0x0E to 0xFF. -/
  | unknownOp (op : Nat)
  /-- A must-be-zero bit of ARG is 1. -/
  | nonZeroMustBeZero (op arg : Nat)
  deriving DecidableEq, Repr

/-- Form N: every ARG bit must be zero (R71). -/
def formN (op arg : Nat) (i : Instr) : Except Illegal Instr :=
  if arg = 0 then .ok i else .error (.nonZeroMustBeZero op arg)

/-- Form S: the symbol is ARG[SYM_W-1:0] as it stands, and bits 23:SYM_W must be zero (R71, R72). -/
def formS (p : Params) (op arg : Nat) (i : Nat → Instr) : Except Illegal Instr :=
  if arg / 2 ^ p.symW = 0 then .ok (i (arg % 2 ^ p.symW)) else .error (.nonZeroMustBeZero op arg)

/-- Form B: the bit is ARG[0], and bits 23:1 must be zero (R71, R72). -/
def formB (op arg : Nat) (i : Bool → Instr) : Except Illegal Instr :=
  if arg / 2 = 0 then .ok (i (arg % 2 == 1)) else .error (.nonZeroMustBeZero op arg)

/-- The opcode map (R74) with the form of each row. -/
def decodeFields (p : Params) (op arg : Nat) : Except Illegal Instr :=
  match op with
  | 0x01 => formN op arg .fclr
  | 0x02 => formS p op arg .fsym
  | 0x03 => formN op arg .build
  | 0x04 => formS p op arg .enc
  | 0x05 => formN op arg .dbeg
  | 0x06 => formB op arg .dbit
  | 0x07 => formN op arg .dend
  | 0x08 => formN op arg .ser
  | 0x09 => formN op arg .lbeg
  | 0x0A => formS p op arg .lleaf
  | 0x0B => formN op arg .lbr
  | 0x0C => formN op arg .lend
  | 0x0D => formN op arg .drop
  | _ => .error (.unknownOp op)

/-- The decoder: total on 32-bit words, reading no state of the block (R73). -/
def decode (p : Params) (w : Word) : Except Illegal Instr := decodeFields p (opField w) (argField w)

/-- The OP of a command (R74). -/
def Instr.op : Instr → Nat
  | .fclr => 0x01
  | .fsym _ => 0x02
  | .build => 0x03
  | .enc _ => 0x04
  | .dbeg => 0x05
  | .dbit _ => 0x06
  | .dend => 0x07
  | .ser => 0x08
  | .lbeg => 0x09
  | .lleaf _ => 0x0A
  | .lbr => 0x0B
  | .lend => 0x0C
  | .drop => 0x0D

/-- The ARG of a command (R71, R72). -/
def Instr.arg : Instr → Nat
  | .fclr => 0
  | .fsym x => x
  | .build => 0
  | .enc x => x
  | .dbeg => 0
  | .dbit b => b.toNat
  | .dend => 0
  | .ser => 0
  | .lbeg => 0
  | .lleaf x => x
  | .lbr => 0
  | .lend => 0
  | .drop => 0

/-- The encoder: the word of a command (R70, R74). -/
def encode (i : Instr) : Word := wordOf i.op i.arg

/-! ## The opcode table as match and mask (R71, R74), beside the decoder's own reading of the fields -/

/-- The operand form of a row (R71). -/
inductive Form where
  | n
  | s
  | b
  deriving DecidableEq, Repr

/-- A row of the opcode table (R74): OP and form. -/
structure Row where
  op : Nat
  form : Form
  deriving DecidableEq, Repr

/-- The thirteen rows (R74). -/
def opcodeRows : List Row :=
  [⟨0x01, .n⟩, ⟨0x02, .s⟩, ⟨0x03, .n⟩, ⟨0x04, .s⟩, ⟨0x05, .n⟩, ⟨0x06, .b⟩, ⟨0x07, .n⟩, ⟨0x08, .n⟩, ⟨0x09, .n⟩,
    ⟨0x0A, .s⟩, ⟨0x0B, .n⟩, ⟨0x0C, .n⟩, ⟨0x0D, .n⟩]

/-- The form of a command (R74). -/
def Instr.form : Instr → Form
  | .fclr => .n
  | .fsym _ => .s
  | .build => .n
  | .enc _ => .s
  | .dbeg => .n
  | .dbit _ => .b
  | .dend => .n
  | .ser => .n
  | .lbeg => .n
  | .lleaf _ => .s
  | .lbr => .n
  | .lend => .n
  | .drop => .n

/-- The ARG bits that must be zero in a form (R71). -/
def mustBeZero (p : Params) : Form → Word
  | .n => 0x00FFFFFF#32
  | .s => 0x00FFFFFF#32 &&& ~~~(BitVec.ofNat 32 (2 ^ p.symW - 1))
  | .b => 0x00FFFFFE#32

/-- The mask of a row (R74). -/
def rowMask (p : Params) (f : Form) : Word := 0xFF000000#32 ||| mustBeZero p f

/-- The match of a row (R74). -/
def rowMatch (op : Nat) : Word := BitVec.ofNat 32 op <<< 24

/-- What the decoder reads from the row's word under the reference parameters, for which the opcode table's masks are
given (R74: SYM_W = 8).  Every row is one 32-bit word; bits above nbits are 0. -/
def decodeTableWord (nbits w : Nat) : Option Instr :=
  match decode Params.ref (BitVec.ofNat 32 (w % 2 ^ nbits)) with
  | .ok i => some i
  | .error _ => none

end Sys2Proof
end

