-- ==== Sys2Proof/Machine/State.lean ====
section
/-!
DEFINITION. The state of the block (10_state.md R20 to R29), the two word streams of the interface, the answer words and
the reasons a step can stop.
-/

namespace Sys2Proof.Machine

/-- The nine status codes (30_encoding.md R85; causes in 60_exceptions.md R200). -/
inductive Status where
  | ok
  | emptyInputError
  | unknownSymbolError
  | deadEndError
  | incompletePathError
  | malformedTreeError
  | illegalCommand
  | badState
  | capacityExceeded
  deriving DecidableEq, Repr

/-- The five kinds of response word (30_encoding.md R81). -/
inductive Rsp where
  /-- The last word of every answer. -/
  | status (c : Status)
  /-- One bit of a bit-path (ENC). -/
  | bit (b : Bool)
  /-- A decoded symbol (DEND). -/
  | sym (x : Nat)
  /-- A leaf of the key record (SER). -/
  | kleaf (x : Nat)
  /-- A branch of the key record (SER). -/
  | kbr
  deriving DecidableEq, Repr

/-- An entry of NODE (10_state.md R22). -/
structure Node where
  freq : Nat
  sym : Option Nat
  left : Option Nat
  right : Option Nat
  deriving DecidableEq, Repr

/-- The decoder state DST (10_state.md R21): IDLE, VROOT, AT, DEAD. -/
inductive DecState where
  | idle
  | vroot
  | atNode
  | dead
  deriving DecidableEq, Repr

/-- The loader state LST (10_state.md R21): IDLE, ACTIVE, BAD. -/
inductive LoadState where
  | idle
  | active
  | bad
  deriving DecidableEq, Repr

/-- A memory indexed by whole entries (20_memory.md R50, R54): index and entry pairs, indices strictly rising, an entry
that holds no value (or the value an unlisted index reads as) not listed. -/
abbrev Mem (α : Type) := List (Nat × α)

/-- Why the machine stops.  All of these are SAFE: no command list from reset reaches one (93_implementation_defined.md
U12, U15), and the hardware rules give such a state no meaning. -/
inductive Fault where
  /-- A NODE entry that holds no value is read (10_state.md R23).  Raised by DBEG, DBIT, DEND, SER, the loader and the
  Code Table Generator, only in a state that breaks 10_state.md R30.  Safe. -/
  | nodeHasNoValue (i : Nat)
  /-- A branch whose child the pseudocode takes as present (`let some l`) lacks it (U15).  Raised by SER and the Code
  Table Generator, only in a state that breaks R24.  Safe. -/
  | childHasNoValue (i : Nat)
  /-- A walk from the root goes deeper than MAX_PATH, so NODE holds no tree (R25, 42_code_table.md R130).  Raised by SER
  and the Code Table Generator, only in a state that breaks R30.  Safe. -/
  | deeperThanMaxPath (i : Nat)
  /-- A NODE index of NODE_CAP or more is written (20_memory.md R54).  Raised by BUILD and the loader, only in a state
  that breaks R30.  Safe. -/
  | indexOutsideNode (i : Nat)
  /-- A symbol of NSYM or more indexes FREQ, CODE or LSEEN (20_memory.md R54).  Raised by FSYM, ENC and LLEAF on an
  ill-formed operand, which no word decodes to (30_encoding.md R72), and by the Code Table Generator in a state that
  breaks R22.  Safe. -/
  | symbolOutsideAlphabet (x : Nat)
  /-- A sum does not fit FREQ_W bits (41_tree_builder.md R120: none can).  Raised by FSYM and BUILD, only in a state that
  breaks R30 item 1.  Safe. -/
  | frequencyOverflow (n : Nat)
  /-- The priority collection never comes down to one member (41_tree_builder.md R112: `r <- the one member of Q`).
  Raised by BUILD when FTOTAL is not 0 and yet every count is 0, which breaks R30 item 1.  Safe. -/
  | noLastMember
  deriving DecidableEq, Repr

/-- Why a step has no meaning. -/
inductive Refusal where
  /-- An instruction without a meaning; no instruction of this model is left in that case.  Safe. -/
  | notModelled (mnemonic : String)
  /-- SYM_W or FREQ_W outside its range: the spec says nothing of such a block (93_implementation_defined.md U18).
  Raised by step.  Safe. -/
  | parametersOutOfRange
  deriving DecidableEq, Repr

/-- The block and its two word streams. -/
structure State where
  /-- The parameters of this block; no command changes them (00_scope.md R6, R7). -/
  params : Params
  /-- The command words the host has sent and the engine has not taken, oldest first (00_scope.md R14, R15). -/
  cmds : List Word
  /-- The response stream, first word first (30_encoding.md R80). -/
  rsp : List Word
  /-- TV, tree valid. -/
  tv : Bool
  /-- ROOT, index of the root. -/
  root : Nat
  /-- NN, number of allocated entries of NODE. -/
  nn : Nat
  /-- FTOTAL, number of symbols counted into FREQ. -/
  ftotal : Nat
  /-- DST, decoder state. -/
  dst : DecState
  /-- DCUR, decoder cursor. -/
  dcur : Nat
  /-- LST, loader state. -/
  lst : LoadState
  /-- LDONE, the records of this load session form one complete tree. -/
  ldone : Bool
  /-- NODE; an index that is not listed holds no value (10_state.md R22, R23). -/
  node : Mem Node
  /-- FREQ; a symbol that is not listed reads as 0 (10_state.md R26). -/
  freq : Mem Nat
  /-- CODE; a symbol that is not listed reads as none (10_state.md R27). -/
  code : Mem BitPath
  /-- LSTK, top first; the bit is false while the next node to arrive becomes the left child (10_state.md R29). -/
  lstk : List (Nat × Bool)
  /-- LSEEN, the symbols listed (10_state.md R29). -/
  lseen : Mem Unit
  deriving DecidableEq, Repr

/-- The reset state of a block with parameters p (70_reset_and_hazards.md R230). -/
def State.resetAt (p : Params) : State where
  params := p
  cmds := []
  rsp := []
  tv := false
  root := 0
  nn := 0
  ftotal := 0
  dst := .idle
  dcur := 0
  lst := .idle
  ldone := false
  node := []
  freq := []
  code := []
  lstk := []
  lseen := []

/-- The reset state of the reference block, SYM_W = 8 and FREQ_W = 32. -/
def State.reset : State := State.resetAt Params.ref

end Sys2Proof.Machine
end

