-- ==== Sys2Proof/Machine/Flags.lean ====
section
/-!
DEFINITION. The block has no condition codes (10_state.md R33); this file holds the tests of its state bits that decide
BadState, command by command (60_exceptions.md R202), and the two tests of the Frequency Table's total.
-/

namespace Sys2Proof.Machine

/-- ENC, DBEG and SER need a tree (R202): TV = 1. -/
def State.hasTree (s : State) : Bool := s.tv

/-- DBIT and DEND need a decode session (R202): DST is not IDLE. -/
def State.decodeOpen (s : State) : Bool := decide (s.dst ≠ .idle)

/-- LLEAF, LBR and LEND need a load session, and BUILD needs that none is open (R202): LST is not IDLE. -/
def State.loadOpen (s : State) : Bool := decide (s.lst ≠ .idle)

/-- The load session is well-formed so far and its records form one complete tree (45_persistence.md R176). -/
def State.loadGood (s : State) : Bool := decide (s.lst = .active) && s.ldone

/-- The Frequency Table is empty (41_tree_builder.md R119): FTOTAL = 0. -/
def State.tableEmpty (s : State) : Bool := decide (s.ftotal = 0)

/-- The Frequency Table counts FREQ_MAX symbols (40_frequency.md R103): FTOTAL = FREQ_MAX. -/
def State.tableFull (s : State) : Bool := decide (s.ftotal = s.params.freqMax)

end Sys2Proof.Machine
end

