-- ==== Sys2Proof/Machine/Operands.lean ====
section
/-!
DEFINITION. The operand forms of the commands and the payloads of the response words (30_encoding.md R71, R72, R80 to
R85).
-/

namespace Sys2Proof.Machine

/-- A symbol operand (form S) names an entry of FREQ, CODE and LSEEN only when it is below NSYM (20_memory.md R54). -/
def symbolInAlphabet (p : Params) (x : Nat) : Bool := decide (x < p.nsym)

/-- The child a path bit selects: false moves to left, true to right (30_encoding.md R72, 44_decoder.md R153). -/
def Node.child (n : Node) (b : Bool) : Option Nat := if b then n.right else n.left

/-- The entry with the child of bit k set to i, the other fields as they were (00_scope.md R11, 45_persistence.md
R173). -/
def Node.setChild (n : Node) (k : Bool) (i : Nat) : Node :=
  if k then { n with right := some i } else { n with left := some i }

/-- The 8-bit code of a status (30_encoding.md R85). -/
def Status.code : Status → Nat
  | .ok => 0x00
  | .emptyInputError => 0x01
  | .unknownSymbolError => 0x02
  | .deadEndError => 0x03
  | .incompletePathError => 0x04
  | .malformedTreeError => 0x05
  | .illegalCommand => 0x10
  | .badState => 0x11
  | .capacityExceeded => 0x12

/-- KIND, bits 31:24 of a response word (30_encoding.md R81). -/
def Rsp.kind : Rsp → Nat
  | .status _ => 0x00
  | .bit _ => 0x06
  | .sym _ => 0x0E
  | .kleaf _ => 0x0A
  | .kbr => 0x0B

/-- PAYLOAD, bits 23:0 of a response word (30_encoding.md R81). -/
def Rsp.payload : Rsp → Nat
  | .status c => c.code
  | .bit b => b.toNat
  | .sym x => x
  | .kleaf x => x
  | .kbr => 0

/-- The 32-bit response word (30_encoding.md R80, R82 to R85). -/
def Rsp.word (r : Rsp) : Word := wordOf r.kind r.payload

end Sys2Proof.Machine
end

