-- ==== Sys2Proof/Machine/Ops.lean ====
section
/-!
DEFINITION. The named operations over the memories, the response stream, the error report and the command stream.
-/

namespace Sys2Proof.Machine

/-! ## Memories (20_memory.md R50, R55): every access is one whole entry, no read has a side effect -/

/-- The entry at index a, none when it holds no value. -/
def Mem.read {α : Type} : Mem α → Nat → Option α
  | [], _ => none
  | (k, v) :: m, a => if a = k then some v else Mem.read m a

/-- Replace the entry at index a by v; the indices stay strictly rising. -/
def Mem.write {α : Type} : Mem α → Nat → α → Mem α
  | [], a, v => [(a, v)]
  | (k, w) :: m, a, v =>
    if a < k then (a, v) :: (k, w) :: m
    else if a = k then (a, v) :: m
    else (k, w) :: Mem.write m a v

/-- The entry at index a loses its value. -/
def Mem.erase {α : Type} (m : Mem α) (a : Nat) : Mem α := m.filter (fun e => e.1 ≠ a)

/-- The canonical form of a memory: indices strictly rising. -/
abbrev Mem.Sorted {α : Type} (m : Mem α) : Prop := (m.map Prod.fst).Pairwise (· < ·)

/-- FREQ[x]; a symbol that is not listed reads as 0 (10_state.md R26). -/
def readFreq (m : Mem Nat) (x : Nat) : Nat := (Mem.read m x).getD 0

/-- FREQ[x] <- c; an entry of 0 is not listed. -/
def writeFreq (m : Mem Nat) (x : Nat) (c : Nat) : Mem Nat :=
  if c = 0 then Mem.erase m x else Mem.write m x c

/-- The memory form of the whole state: the four indexed memories strictly rising, and no count of 0 listed. -/
abbrev Memory.wf (s : State) : Prop :=
  Mem.Sorted s.node ∧ Mem.Sorted s.freq ∧ Mem.Sorted s.code ∧ Mem.Sorted s.lseen ∧ ∀ e ∈ s.freq, e.2 ≠ 0

/-- NODE[i]; reading an entry that holds no value faults (10_state.md R23). -/
def readNode (m : Mem Node) (i : Nat) : Except Fault Node :=
  match Mem.read m i with
  | some n => .ok n
  | none => .error (.nodeHasNoValue i)

/-- NODE[i] <- n; an index of NODE_CAP or more names no entry (20_memory.md R54). -/
def writeNode (p : Params) (m : Mem Node) (i : Nat) (n : Node) : Except Fault (Mem Node) :=
  if i < p.nodeCap then .ok (Mem.write m i n) else .error (.indexOutsideNode i)

/-- CODE[x] <- some q; a symbol of NSYM or more names no entry (20_memory.md R54). -/
def writeCode (p : Params) (m : Mem BitPath) (x : Nat) (q : BitPath) : Except Fault (Mem BitPath) :=
  if symbolInAlphabet p x then .ok (Mem.write m x q) else .error (.symbolOutsideAlphabet x)

/-! ## Arithmetic (41_tree_builder.md R120): unsigned addition, which never wraps -/

/-- The sum of two frequencies, which fits FREQ_W bits in every state of 10_state.md R30 (R120). -/
def addFreq (p : Params) (a b : Nat) : Except Fault Nat :=
  if a + b ≤ p.freqMax then .ok (a + b) else .error (.frequencyOverflow (a + b))

/-! ## The response stream and the report of errors -/

/-- emit(w): append one word to the response stream (00_scope.md R11). -/
def emit (r : Rsp) (s : State) : State := { s with rsp := s.rsp ++ [r.word] }

/-- emit one word after the other, in the order of the list. -/
def emitAll (rs : List Rsp) (s : State) : State := { s with rsp := s.rsp ++ rs.map Rsp.word }

/-- done: emit STATUS(OK) and end the command (00_scope.md R11). -/
def done (s : State) : State := emit (.status .ok) s

/-- raise: the analogue of taking an exception (60_exceptions.md R204).  One STATUS word is emitted and the command ends;
nothing is saved, no mode changes and control goes nowhere.  State written before the raise stands.
There is no return from it, because nothing was entered (60_exceptions.md R205). -/
def raise (c : Status) (s : State) : State := emit (.status c) s

/-- The end of a command whose pseudocode may meet a state the spec gives no meaning (60_exceptions.md R208). -/
def settle (r : Except Fault State) : Host.Outcome State Fault Refusal :=
  match r with
  | .ok t => .next t
  | .error f => .fault f

/-- An illegal word: STATUS(IllegalCommand), no register and no memory changes (30_encoding.md R75). -/
def execIllegal (s : State) : Host.Outcome State Fault Refusal := .next (raise .illegalCommand s)

/-! ## The tree and the sessions -/

/-- The block holds no tree: TV, ROOT, NN, NODE and CODE as after reset (41_tree_builder.md R121, 45_persistence.md
R172). -/
def clearTree (s : State) : State := { s with tv := false, root := 0, nn := 0, node := [], code := [] }

/-- No decode session (D35): DST and DCUR as after reset. -/
def closeDecode (s : State) : State := { s with dst := .idle, dcur := 0 }

/-- No load session: LST, LDONE, LSTK and LSEEN as after reset. -/
def closeLoad (s : State) : State := { s with lst := .idle, ldone := false, lstk := [], lseen := [] }

/-! ## The command stream -/

/-- Take the oldest command word the host has sent (00_scope.md R14). -/
def fetch (s : State) : Option (Word × State) :=
  match s.cmds with
  | [] => none
  | w :: ws => some (w, { s with cmds := ws })

/-- The host sends command words; they stand behind those sent before (00_scope.md R13, R57). -/
def State.send (ws : List Word) (s : State) : State := { s with cmds := s.cmds ++ ws }

/-- The host asserts rst between commands (70_reset_and_hazards.md R230, R232): the reset state of the same block,
with untaken response words and unanswered commands discarded. -/
def State.assertReset (s : State) : State := State.resetAt s.params

end Sys2Proof.Machine
end

