-- ==== Sys2Proof/Machine/CodeTable.lean ====
section
/-!
DEFINITION. The Code Table Generator, the procedure CTG (42_code_table.md).
-/

namespace Sys2Proof.Machine

/-- Walk(i, q) (R130): record the path of every leaf below node i, left before right.  The first argument bounds the
depth, as the spec does (R130: "The recursion depth is the tree depth, at most NSYM - 1"). -/
def walk (p : Params) (m : Mem Node) : Nat → Nat → BitPath → Mem BitPath → Except Fault (Mem BitPath)
  | 0, i, _, _ => .error (.deeperThanMaxPath i)
  | d + 1, i, q, code =>
    match readNode m i with
    | .error f => .error f
    | .ok n =>
      match n.sym with
      | some x => writeCode p code x q
      | none =>
        match n.left, n.right with
        | some l, some r =>
          match walk p m d l (q ++ [false]) code with
          | .error f => .error f
          | .ok code' => walk p m d r (q ++ [true]) code'
        | _, _ => .error (.childHasNoValue i)

/-- CTG (R130, R131): CODE is cleared, then written from the tree at ROOT; the code of a one-leaf tree is [0]. -/
def generateCodes (p : Params) (m : Mem Node) (root : Nat) : Except Fault (Mem BitPath) :=
  match readNode m root with
  | .error f => .error f
  | .ok n =>
    match n.sym with
    | some x => writeCode p [] x [false]
    | none => walk p m (p.maxPath + 1) root [] []

end Sys2Proof.Machine
end

