-- ==== Sys2Proof/Machine/Builder.lean ====
section
/-!
DEFINITION. The Tree Builder and the tree's lifecycle: BUILD and DROP (41_tree_builder.md).
-/

namespace Sys2Proof.Machine

/-- A member of the priority collection Q (R111): a node index with the frequency of its NODE entry, which no merge
changes while the index is in Q. -/
abbrev Key := Nat × Nat

/-- The order of R114: by frequency, then by index. -/
def keyLt (a b : Key) : Bool := decide (a.1 < b.1 ∨ (a.1 = b.1 ∧ a.2 < b.2))

/-- The least member of a collection that holds k and the members of q. -/
def leastKey (k : Key) : List Key → Key
  | [] => k
  | k' :: q => if keyLt k' k then leastKey k' q else leastKey k q

/-- ExtractMin (R112): the least member, and the collection without it. -/
def extractMin : List Key → Option (Key × List Key)
  | [] => none
  | k :: q => some (leastKey k q, (k :: q).erase (leastKey k q))

/-- The keys of the Frequency Table, the symbols with FREQ[s] > 0 in ascending order (R111). -/
def tableSymbols (p : Params) (freq : Mem Nat) : List Nat :=
  (List.range p.nsym).filter (fun x => decide (0 < readFreq freq x))

/-- A leaf entry (10_state.md R24). -/
def leafNode (c : Nat) (x : Nat) : Node := { freq := c, sym := some x, left := none, right := none }

/-- The branch of one merge (R112, R115): the first-extracted node a becomes right, the second-extracted b left. -/
def branchNode (c : Nat) (a b : Nat) : Node := { freq := c, sym := none, left := some b, right := some a }

/-- Seed (R111), from index k on: one leaf per symbol of the list, and the collection of the seeded indices. -/
def seed (p : Params) (freq : Mem Nat) : Nat → List Nat → Mem Node → Except Fault (Mem Node × List Key)
  | _, [], m => .ok (m, [])
  | k, x :: xs, m =>
    match writeNode p m k (leafNode (readFreq freq x) x) with
    | .error f => .error f
    | .ok m' =>
      match seed p freq (k + 1) xs m' with
      | .error f => .error f
      | .ok (m'', q) => .ok (m'', (readFreq freq x, k) :: q)

/-- Merge (R112): while Q has two members or more, merge the two least into the branch at index next.  Each round takes
one member away, so a bound of |Q| rounds is never met. -/
def merge (p : Params) : Nat → Mem Node → List Key → Nat → Except Fault (Mem Node × Nat)
  | 0, _, _, _ => .error .noLastMember
  | d + 1, m, q, next =>
    match extractMin q with
    | none => .error .noLastMember
    | some (a, q1) =>
      match extractMin q1 with
      | none => .ok (m, a.2)
      | some (b, q2) =>
        match addFreq p a.1 b.1 with
        | .error f => .error f
        | .ok c =>
          match writeNode p m next (branchNode c a.2 b.2) with
          | .error f => .error f
          | .ok m' => merge p d m' (q2 ++ [(c, next)]) (next + 1)

/-- Seed and Merge over an empty NODE (R111, R112): the entries of the new tree and its root.  The old tree's entries
are overwritten or lose their value (R118). -/
def buildTree (p : Params) (freq : Mem Nat) : Except Fault (Mem Node × Nat) :=
  match seed p freq 0 (tableSymbols p freq) [] with
  | .error f => .error f
  | .ok (m, q) => merge p q.length m q q.length

/-- The steps of BUILD after its two refusals (R110, R118). -/
def buildSteps (s : State) : Except Fault State :=
  match buildTree s.params s.freq with
  | .error f => .error f
  | .ok (m, r) =>
    match generateCodes s.params m r with
    | .error f => .error f
    | .ok code =>
      .ok (closeDecode
        { s with
          node := m
          root := r
          nn := 2 * (tableSymbols s.params s.freq).length - 1
          code := code
          tv := true
          freq := []
          ftotal := 0 })

/-- BUILD (R110, R119). -/
def execBuild (s : State) : Host.Outcome State Fault Refusal :=
  if s.loadOpen then .next (raise .badState s)
  else if s.tableEmpty then .next (raise .emptyInputError s)
  else settle ((buildSteps s).map done)

/-- DROP (R121): the tree and every session end; the Frequency Table is not part of the tree. -/
def execDrop (s : State) : Host.Outcome State Fault Refusal :=
  .next (done (closeLoad (closeDecode (clearTree s))))

end Sys2Proof.Machine
end

