-- ==== Sys2Proof/Machine/Decoder.lean ====
section
/-!
DEFINITION. The decoder: DBEG, DBIT and DEND (44_decoder.md).
-/

namespace Sys2Proof.Machine

/-- DBEG (R152): stand on the root, or on the virtual root of a one-leaf tree (R151). -/
def execDbeg (s : State) : Host.Outcome State Fault Refusal :=
  if s.hasTree then
    match readNode s.node s.root with
    | .error f => .fault f
    | .ok n => .next (done { s with dcur := s.root, dst := if n.sym.isSome then .vroot else .atNode })
  else .next (raise .badState s)

/-- One step of the walk inside a session (R153); a dead session stays dead. -/
def stepCursor (b : Bool) (s : State) : Except Fault State :=
  match s.dst with
  | .idle => .ok s
  | .vroot => .ok { s with dst := if b then .dead else .atNode }
  | .atNode =>
    match readNode s.node s.dcur with
    | .error f => .error f
    | .ok n =>
      match n.child b with
      | none => .ok { s with dst := .dead }
      | some j => .ok { s with dcur := j }
  | .dead => .ok s

/-- DBIT (R153). -/
def execDbit (b : Bool) (s : State) : Host.Outcome State Fault Refusal :=
  if s.decodeOpen then settle ((stepCursor b s).map done)
  else .next (raise .badState s)

/-- DEND (R154, R155): the session ends whatever its result. -/
def execDend (s : State) : Host.Outcome State Fault Refusal :=
  match s.dst with
  | .idle => .next (raise .badState s)
  | .dead => .next (raise .deadEndError (closeDecode s))
  | .vroot => .next (raise .incompletePathError (closeDecode s))
  | .atNode =>
    match readNode s.node s.dcur with
    | .error f => .fault f
    | .ok n =>
      match n.sym with
      | some x => .next (done (emit (.sym x) (closeDecode s)))
      | none => .next (raise .incompletePathError (closeDecode s))

end Sys2Proof.Machine
end

