-- ==== Sys2Proof/Machine/Encoder.lean ====
section
/-!
DEFINITION. The encoder: ENC (43_encoder.md).
-/

namespace Sys2Proof.Machine

/-- ENC (R141, R142): the bits of CODE[x], root decision first. -/
def execEnc (x : Nat) (s : State) : Host.Outcome State Fault Refusal :=
  if symbolInAlphabet s.params x then
    if s.hasTree then
      match Mem.read s.code x with
      | none => .next (raise .unknownSymbolError s)
      | some q => .next (done (emitAll (q.map Rsp.bit) s))
    else .next (raise .badState s)
  else .fault (.symbolOutsideAlphabet x)

end Sys2Proof.Machine
end

