-- ==== Sys2Proof/Machine/Frequency.lean ====
section
/-!
DEFINITION. The Frequency Table Builder: FCLR and FSYM (40_frequency.md).
-/

namespace Sys2Proof.Machine

/-- FCLR (R101): every FREQ entry and FTOTAL become 0. -/
def execFclr (s : State) : Host.Outcome State Fault Refusal :=
  .next (done { s with freq := [], ftotal := 0 })

/-- The two additions of FSYM (R102). -/
def countSymbol (x : Nat) (s : State) : Except Fault State :=
  match addFreq s.params (readFreq s.freq x) 1, addFreq s.params s.ftotal 1 with
  | .ok c, .ok n => .ok { s with freq := writeFreq s.freq x c, ftotal := n }
  | .error f, _ => .error f
  | .ok _, .error f => .error f

/-- FSYM (R102, R103). -/
def execFsym (x : Nat) (s : State) : Host.Outcome State Fault Refusal :=
  if symbolInAlphabet s.params x then
    if s.tableFull then .next (raise .capacityExceeded s)
    else settle ((countSymbol x s).map done)
  else .fault (.symbolOutsideAlphabet x)

end Sys2Proof.Machine
end

