-- ==== Sys2Proof/Machine/Persistence.lean ====
section
/-!
DEFINITION. Persistence: SER and the load session LBEG, LLEAF, LBR, LEND (45_persistence.md).
-/

namespace Sys2Proof.Machine

/-- Pre(i) (R171): the key record of the tree at node i, in pre-order (R170).  The first argument bounds the depth as in
the Code Table Generator. -/
def preorder (m : Mem Node) : Nat → Nat → Except Fault (List Rsp)
  | 0, i => .error (.deeperThanMaxPath i)
  | d + 1, i =>
    match readNode m i with
    | .error f => .error f
    | .ok n =>
      match n.sym with
      | some x => .ok [.kleaf x]
      | none =>
        match n.left, n.right with
        | some l, some r =>
          match preorder m d l, preorder m d r with
          | .ok a, .ok b => .ok (.kbr :: (a ++ b))
          | .error f, _ => .error f
          | .ok _, .error f => .error f
        | _, _ => .error (.childHasNoValue i)

/-- SER (R171). -/
def execSer (s : State) : Host.Outcome State Fault Refusal :=
  if s.hasTree then
    match preorder s.node (s.params.maxPath + 1) s.root with
    | .error f => .fault f
    | .ok rs => .next (done (emitAll rs s))
  else .next (raise .badState s)

/-- LBEG (R172): the tree and the decode session are dropped, and an empty load session begins. -/
def execLbeg (s : State) : Host.Outcome State Fault Refusal :=
  .next (done { closeLoad (closeDecode (clearTree s)) with lst := .active })

/-- Attach the new node i to the branch that waits for a child, and move the stack on (R173). -/
def attach (p : Params) (m : Mem Node) (stk : List (Nat × Bool)) (i : Nat) :
    Except Fault (Mem Node × List (Nat × Bool)) :=
  match stk with
  | [] => .ok (m, [])
  | (b, k) :: rest =>
    match readNode m b with
    | .error f => .error f
    | .ok n =>
      match writeNode p m b (n.setChild k i) with
      | .error f => .error f
      | .ok m' => .ok (m', if k then rest else (b, true) :: rest)

/-- The symbols seen once the record is taken (R173). -/
def seenAfter (x : Option Nat) (seen : Mem Unit) : Mem Unit :=
  match x with
  | some y => Mem.write seen y ()
  | none => seen

/-- The stack once the record is taken: a branch waits for its own two children (R173). -/
def stackAfter (x : Option Nat) (i : Nat) (stk : List (Nat × Bool)) : List (Nat × Bool) :=
  match x with
  | some _ => stk
  | none => (i, false) :: stk

/-- The three ways a record makes the session BAD (R173 conditions a, b, c). -/
def recordMalformed (x : Option Nat) (s : State) : Bool :=
  s.ldone ||
  (match x with
    | some y => (Mem.read s.lseen y).isSome
    | none => false) ||
  decide (s.nn = s.params.nodeCap)

/-- Take an accepted record (R173). -/
def takeRecord (x : Option Nat) (s : State) : Except Fault State :=
  match writeNode s.params s.node s.nn { freq := 0, sym := x, left := none, right := none } with
  | .error f => .error f
  | .ok m =>
    match attach s.params m s.lstk s.nn with
    | .error f => .error f
    | .ok (m', stk) =>
      .ok { s with
        nn := s.nn + 1
        node := m'
        lseen := seenAfter x s.lseen
        lstk := stackAfter x s.nn stk
        ldone := s.ldone || (stackAfter x s.nn stk).isEmpty }

/-- LoadNode (R173): the whole of LLEAF and LBR. -/
def loadNode (x : Option Nat) (s : State) : Host.Outcome State Fault Refusal :=
  match s.lst with
  | .idle => .next (raise .badState s)
  | .bad => .next (done s)
  | .active =>
    if recordMalformed x s then .next (done { s with lst := .bad })
    else settle ((takeRecord x s).map done)

/-- LLEAF (R174). -/
def execLleaf (x : Nat) (s : State) : Host.Outcome State Fault Refusal :=
  if symbolInAlphabet s.params x then loadNode (some x) s
  else .fault (.symbolOutsideAlphabet x)

/-- LBR (R175). -/
def execLbr (s : State) : Host.Outcome State Fault Refusal := loadNode none s

/-- The good end of a load session (R176): ROOT, CODE and TV, after the session is closed. -/
def finishLoad (s : State) : Except Fault State :=
  match generateCodes s.params s.node 0 with
  | .error f => .error f
  | .ok code => .ok { closeLoad s with root := 0, code := code, tv := true }

/-- LEND (R176, R177): the session ends whatever its result. -/
def execLend (s : State) : Host.Outcome State Fault Refusal :=
  if s.loadOpen then
    if s.loadGood then settle ((finishLoad s).map done)
    else .next (raise .malformedTreeError { closeLoad s with nn := 0, node := [] })
  else .next (raise .badState s)

end Sys2Proof.Machine
end

