-- ==== Sys2Proof/Machine/Dispatch.lean ====
section
/-!
DEFINITION. Every command of the command set, with its meaning.
-/

namespace Sys2Proof.Machine

def exec (i : Instr) (s : State) : Host.Outcome State Fault Refusal :=
  match i with
  | .fclr => Sys2Proof.Machine.execFclr s
  | .fsym x => Sys2Proof.Machine.execFsym x s
  | .build => Sys2Proof.Machine.execBuild s
  | .enc x => Sys2Proof.Machine.execEnc x s
  | .dbeg => Sys2Proof.Machine.execDbeg s
  | .dbit b => Sys2Proof.Machine.execDbit b s
  | .dend => Sys2Proof.Machine.execDend s
  | .ser => Sys2Proof.Machine.execSer s
  | .lbeg => Sys2Proof.Machine.execLbeg s
  | .lleaf x => Sys2Proof.Machine.execLleaf x s
  | .lbr => Sys2Proof.Machine.execLbr s
  | .lend => Sys2Proof.Machine.execLend s
  | .drop => Sys2Proof.Machine.execDrop s

end Sys2Proof.Machine
end

