-- ==== Sys2Proof/Machine/Step.lean ====
section
/-!
DEFINITION. One step of the machine: the engine takes one command word and performs the whole command (00_scope.md R14).
-/

namespace Sys2Proof.Machine

/-- What the engine does with one command word it has taken (30_encoding.md R73, R75). -/
def runWord (w : Word) (s : State) : Host.Outcome State Fault Refusal :=
  match decode s.params w with
  | .ok i => exec i s
  | .error _ => execIllegal s

/-- One step.  With no command offered the block keeps its state (60_exceptions.md R215); a block whose parameters are
out of range is refused (93_implementation_defined.md U18). -/
def step (s : State) : Host.Outcome State Fault Refusal :=
  if s.params.Ok then
    match fetch s with
    | none => .next s
    | some (w, t) => runWord w t
  else .refused .parametersOutOfRange

/-- s with one command word offered as the next the engine takes; words already waiting stay behind it. -/
def State.withFetchWord (s : State) (nbits w : Nat) : State :=
  { s with cmds := BitVec.ofNat 32 (w % 2 ^ nbits) :: s.cmds }

end Sys2Proof.Machine
end

