-- ==== Sys2Proof/Safety.lean ====
section
/-!
DEFINITION. The terms in which claims about the machine are made: the abstract tree of a node memory (00_scope.md R12),
the document's decode function (44_decoder.md R150), the key record (45_persistence.md R170), command lists (00_scope.md
R15), and the invariant of 10_state.md R30, strengthened by what the spec says of a load session in progress.
-/

namespace Sys2Proof.Machine

/-! ## The abstract tree -/

/-- The document's Node value (R12). -/
inductive SymTree where
  | leaf (freq : Nat) (x : Nat)
  | branch (freq : Nat) (l r : SymTree)
  deriving DecidableEq, Repr

namespace SymTree

/-- The frequency of the root node. -/
def freq : SymTree → Nat
  | leaf f _ => f
  | branch f _ _ => f

/-- The symbols of the leaves, left to right. -/
def syms : SymTree → List Nat
  | leaf _ x => [x]
  | branch _ l r => l.syms ++ r.syms

/-- The tree with its frequencies left out: two trees have the same shape when these are equal (R12). -/
def shape : SymTree → SymTree
  | leaf _ x => leaf 0 x
  | branch _ l r => branch 0 l.shape r.shape

/-- rec(i) (R170): the key record, in pre-order. -/
def records : SymTree → List Rsp
  | leaf _ x => [.kleaf x]
  | branch _ l r => .kbr :: (l.records ++ r.records)

/-- The path of every leaf, root decision first (42_code_table.md R130). -/
def paths : SymTree → List (Nat × BitPath)
  | leaf _ x => [(x, [])]
  | branch _ l r =>
    l.paths.map (fun e => (e.1, false :: e.2)) ++ r.paths.map (fun e => (e.1, true :: e.2))

/-- The code table of a tree: the paths of its leaves, and [0] for the leaf of a one-leaf tree (R130, R131). -/
def codeTable : SymTree → List (Nat × BitPath)
  | leaf _ x => [(x, [false])]
  | branch f l r => (branch f l r).paths

/-- The sum over the leaves of weight times depth, the root at depth d (41_tree_builder.md R117). -/
def cost (weight : Nat → Nat) : Nat → SymTree → Nat
  | d, leaf _ x => weight x * d
  | d, branch _ l r => l.cost weight (d + 1) + r.cost weight (d + 1)

end SymTree

/-- tree(i) (R12), when NODE holds a tree of depth less than d below i. -/
def treeAt : Nat → Mem Node → Nat → Option SymTree
  | 0, _, _ => none
  | d + 1, m, i =>
    match Mem.read m i with
    | none => none
    | some n =>
      match n.sym with
      | some x => some (.leaf n.freq x)
      | none =>
        match n.left, n.right with
        | some l, some r =>
          match treeAt d m l, treeAt d m r with
          | some a, some b => some (.branch n.freq a b)
          | _, _ => none
        | _, _ => none

/-- The tree of the block, when NODE holds one at ROOT (R12); its depth is at most MAX_PATH (00_scope.md R8). -/
def State.tree? (s : State) : Option SymTree := treeAt (s.params.maxPath + 1) s.node s.root

/-- The indices reached from i by following left and right, at most d levels (10_state.md R25). -/
def reach : Nat → Mem Node → Nat → List Nat
  | 0, _, _ => []
  | d + 1, m, i =>
    match Mem.read m i with
    | none => []
    | some n =>
      i :: ((match n.left with | some l => reach d m l | none => []) ++
        (match n.right with | some r => reach d m r | none => []))

/-- All left and right values of allocated entries (R25). -/
def childRefs (m : Mem Node) : List Nat := m.flatMap (fun e => e.2.left.toList ++ e.2.right.toList)

/-- The symbols of the allocated leaves, in index order. -/
def leafSyms (m : Mem Node) : List Nat := m.filterMap (fun e => e.2.sym)

/-! ## The document's decode -/

/-- What decode returns (44_decoder.md R150). -/
inductive DecodeResult where
  | symbol (x : Nat)
  | deadEnd
  | incompletePath
  deriving DecidableEq, Repr

/-- The walk of R150 from node i; none when it reads an entry that holds no value. -/
def descend (m : Mem Node) : Nat → BitPath → Option DecodeResult
  | i, [] =>
    match Mem.read m i with
    | none => none
    | some n =>
      match n.sym with
      | some x => some (.symbol x)
      | none => some .incompletePath
  | i, b :: q =>
    match Mem.read m i with
    | none => none
    | some n =>
      match (if b then n.right else n.left) with
      | none => some .deadEnd
      | some j => descend m j q

/-- decode(q) (R150), with the one-leaf tree of R151. -/
def decodePath (m : Mem Node) (root : Nat) (q : BitPath) : Option DecodeResult :=
  match Mem.read m root with
  | none => none
  | some n =>
    match n.sym with
    | some x =>
      match q with
      | [] => some .incompletePath
      | [false] => some (.symbol x)
      | _ => some .deadEnd
    | none => descend m root q

/-- The answer of DEND for a result of decode (R157). -/
def DecodeResult.answer : DecodeResult → List Rsp
  | .symbol x => [.sym x, .status .ok]
  | .deadEnd => [.status .deadEndError]
  | .incompletePath => [.status .incompletePathError]

/-! ## Command lists -/

/-- The commands of a list, executed in list order (R14, R15). -/
def runAll : List Instr → State → Host.Outcome State Fault Refusal
  | [], s => .next s
  | i :: is, s =>
    match exec i s with
    | .next t => runAll is t
    | .fault f => .fault f
    | .refused r => .refused r

/-- The command words of a list, taken in list order (R14, R15). -/
def runWords : List Word → State → Host.Outcome State Fault Refusal
  | [], s => .next s
  | w :: ws, s =>
    match runWord w s with
    | .next t => runWords ws t
    | .fault f => .fault f
    | .refused r => .refused r

/-- The word STATUS(c). -/
def statusWord (c : Status) : Word := (Rsp.status c).word

/-- The words of an answer, in order. -/
def words (rs : List Rsp) : List Word := rs.map Rsp.word

/-- The command that takes one record of a key record: a leaf's symbol, or a branch (45_persistence.md R173). -/
def recordInstr : Option Nat → Instr
  | some x => .lleaf x
  | none => .lbr

/-- The key-record word of one record (30_encoding.md R84). -/
def recordRsp : Option Nat → Rsp
  | some x => .kleaf x
  | none => .kbr

/-- The pseudo-instruction FROM_DATA (30_encoding.md R91). -/
def fromData (xs : List Nat) : List Instr := .fclr :: (xs.map .fsym ++ [.build])

/-- The pseudo-instruction DECODE (R91). -/
def decodeCommands (q : BitPath) : List Instr := .dbeg :: (q.map .dbit ++ [.dend])

/-- The pseudo-instruction LOAD (R91). -/
def loadCommands (rs : List (Option Nat)) : List Instr := .lbeg :: (rs.map recordInstr ++ [.lend])

/-- When a command is answered with BadState (60_exceptions.md R202). -/
def BadStateWhen (s : State) : Instr → Prop
  | .build => s.lst ≠ .idle
  | .enc _ | .dbeg | .ser => s.tv = false
  | .dbit _ | .dend => s.dst = .idle
  | .lleaf _ | .lbr | .lend => s.lst = .idle
  | .fclr | .fsym _ | .drop | .lbeg => False

/-- The data words and the status a command may answer (30_encoding.md R86). -/
def AllowedAnswer (s : State) (i : Instr) (ds : List Rsp) (c : Status) : Prop :=
  match i with
  | .fclr => ds = [] ∧ c = .ok
  | .fsym _ => ds = [] ∧ (c = .ok ∨ c = .capacityExceeded)
  | .build => ds = [] ∧ (c = .ok ∨ c = .badState ∨ c = .emptyInputError)
  | .drop => ds = [] ∧ c = .ok
  | .enc x =>
    (c = .ok ∧ ∃ q, Mem.read s.code x = some q ∧ ds = q.map Rsp.bit) ∨
      (ds = [] ∧ (c = .badState ∨ c = .unknownSymbolError))
  | .dbeg => ds = [] ∧ (c = .ok ∨ c = .badState)
  | .dbit _ => ds = [] ∧ (c = .ok ∨ c = .badState)
  | .dend =>
    (c = .ok ∧ ∃ x < s.params.nsym, ds = [.sym x]) ∨
      (ds = [] ∧ (c = .badState ∨ c = .deadEndError ∨ c = .incompletePathError))
  | .ser =>
    (c = .ok ∧ ds.length = s.nn ∧ ∃ t ∈ s.tree?, ds = t.records) ∨ (ds = [] ∧ c = .badState)
  | .lbeg => ds = [] ∧ c = .ok
  | .lleaf _ => ds = [] ∧ (c = .ok ∨ c = .badState)
  | .lbr => ds = [] ∧ (c = .ok ∨ c = .badState)
  | .lend => ds = [] ∧ (c = .ok ∨ c = .badState ∨ c = .malformedTreeError)

/-- Everything a command does not write is the same in t as in s (10_state.md R31, the columns it may write). -/
def OnlyTabledStateWritten (s t : State) : Instr → Prop
  | .fclr | .fsym _ => t = { s with freq := t.freq, ftotal := t.ftotal, rsp := t.rsp }
  | .build =>
    t = { s with
      tv := t.tv, root := t.root, nn := t.nn, node := t.node, freq := t.freq, ftotal := t.ftotal, code := t.code,
      dst := t.dst, dcur := t.dcur, rsp := t.rsp }
  | .drop | .lbeg =>
    t = { s with
      tv := t.tv, root := t.root, nn := t.nn, node := t.node, code := t.code, dst := t.dst, dcur := t.dcur,
      lst := t.lst, ldone := t.ldone, lstk := t.lstk, lseen := t.lseen, rsp := t.rsp }
  | .enc _ | .ser => t = { s with rsp := t.rsp }
  | .dbeg | .dbit _ | .dend => t = { s with dst := t.dst, dcur := t.dcur, rsp := t.rsp }
  | .lleaf _ =>
    t = { s with
      nn := t.nn, node := t.node, lst := t.lst, ldone := t.ldone, lstk := t.lstk, lseen := t.lseen, rsp := t.rsp }
  | .lbr => t = { s with nn := t.nn, node := t.node, lst := t.lst, lstk := t.lstk, rsp := t.rsp }
  | .lend =>
    t = { s with
      tv := t.tv, root := t.root, nn := t.nn, node := t.node, code := t.code, lst := t.lst, ldone := t.ldone,
      lstk := t.lstk, lseen := t.lseen, rsp := t.rsp }

/-- Node i waits in the priority collection when the branch at index j is made: it is older than j and no older branch
has taken it as a child (41_tree_builder.md R112). -/
def Waiting (m : Mem Node) (j i : Nat) : Prop :=
  i < j ∧ ∀ k < j, ∀ n, Mem.read m k = some n → n.left ≠ some i ∧ n.right ≠ some i

/-! ## The invariant -/

/-- R30 item 1 with R26: FTOTAL is the sum of FREQ, and fits FREQ_W bits. -/
abbrev FreqInv (s : State) : Prop :=
  Mem.Sorted s.freq ∧ (∀ e ∈ s.freq, e.1 < s.params.nsym ∧ e.2 ≠ 0) ∧
    s.ftotal = ((List.range s.params.nsym).map (readFreq s.freq)).sum ∧ s.ftotal ≤ s.params.freqMax

/-- R22, R23: the entries that hold a value are exactly those below NN, and their fields fit their widths. -/
abbrev NodeInv (s : State) : Prop :=
  s.node.map Prod.fst = List.range s.nn ∧ s.nn ≤ s.params.nodeCap ∧
    ∀ e ∈ s.node, e.2.freq ≤ s.params.freqMax ∧ (∀ x ∈ e.2.sym, x < s.params.nsym) ∧
      (∀ c ∈ e.2.left, c < s.nn) ∧ (∀ c ∈ e.2.right, c < s.nn)

/-- R27: every code has 1 to MAX_PATH bits. -/
abbrev CodeInv (s : State) : Prop :=
  Mem.Sorted s.code ∧
    ∀ e ∈ s.code, e.1 < s.params.nsym ∧ 1 ≤ e.2.length ∧ e.2.length ≤ s.params.maxPath

/-- R29: the members of LSTK name allocated entries, each deeper one an older entry; LSEEN holds symbols. -/
abbrev LoaderInv (s : State) : Prop :=
  (s.lstk.map Prod.fst).Pairwise (· > ·) ∧ (∀ e ∈ s.lstk, e.1 < s.nn) ∧
    Mem.Sorted s.lseen ∧ ∀ e ∈ s.lseen, e.1 < s.params.nsym

/-- A leaf entry (R24). -/
abbrev LeafEntry (n : Node) : Prop := n.sym.isSome = true ∧ n.left = none ∧ n.right = none

/-- A branch entry of a tree (R24). -/
abbrev BranchEntry (m : Mem Node) (n : Node) : Prop :=
  n.sym = none ∧ ∃ l ∈ n.left, ∃ r ∈ n.right, ∃ a ∈ Mem.read m l, ∃ b ∈ Mem.read m r, n.freq = a.freq + b.freq

/-- R24: every allocated entry is exactly one of a leaf and a branch. -/
abbrev NodeShapes (s : State) : Prop := ∀ e ∈ s.node, LeafEntry e.2 ∨ BranchEntry s.node e.2

/-- R25: every allocated index but ROOT is a child once, ROOT is none, and each is reached from ROOT, once. -/
abbrev SingleOwner (s : State) : Prop :=
  (∀ i < s.nn, (childRefs s.node).count i = if i = s.root then 0 else 1) ∧
    (∀ c ∈ childRefs s.node, c < s.nn) ∧
    (reach (s.params.maxPath + 1) s.node s.root).Perm (List.range s.nn)

/-- R28: the code table is that of the tree at ROOT. -/
abbrev CodeMatchesTree (s : State) : Prop :=
  ∃ t ∈ s.tree?, ∀ x < s.params.nsym, Mem.read s.code x = t.codeTable.lookup x

/-- R30 items 2 and 3: what TV = 1 means. -/
abbrev TreeInv (s : State) : Prop :=
  s.lst = .idle ∧ s.nn % 2 = 1 ∧ s.root < s.nn ∧ NodeShapes s ∧ SingleOwner s ∧ CodeMatchesTree s ∧
    (leafSyms s.node).Nodup ∧ (leafSyms s.node).length = (s.nn + 1) / 2

/-- R30 items 5 and 6: the decode session. -/
abbrev DecodeInv (s : State) : Prop :=
  (s.tv = false → s.dst = .idle) ∧ (s.dst = .idle → s.dcur = 0) ∧
    (s.dst = .vroot → s.dcur = s.root ∧ ∃ n ∈ Mem.read s.node s.root, LeafEntry n) ∧
    (s.dst ≠ .idle → s.dcur < s.nn)

/-- R30 items 4, 7 and 8: what holds without a tree and without a load session. -/
abbrev SessionInv (s : State) : Prop :=
  (s.tv = false → s.root = 0 ∧ s.code = []) ∧ (s.tv = false → s.lst = .idle → s.nn = 0) ∧
    (s.lst ≠ .idle → s.tv = false) ∧
    (s.lst = .idle → s.ldone = false ∧ s.lstk = [] ∧ s.lseen = [])

/-- A branch entry of a load session: it lacks both children, its right child or none, as LSTK says (R29, R173). -/
abbrev LoadingBranch (s : State) (i : Nat) (n : Node) : Prop :=
  n.sym = none ∧
    (((i, false) ∈ s.lstk ∧ n.left = none ∧ n.right = none) ∨
      ((i, true) ∈ s.lstk ∧ n.left.isSome = true ∧ n.right = none) ∨
      (i ∉ s.lstk.map Prod.fst ∧ n.left.isSome = true ∧ n.right.isSome = true))

/-- R30 item 9, with the shape of the records taken so far (R173, R179): nothing but the children LSTK waits for is
missing, every node but the first is the child of an older one, and the symbols are distinct. -/
abbrev LoadingInv (s : State) : Prop :=
  (∀ e ∈ s.node, e.2.freq = 0 ∧ (LeafEntry e.2 ∨ LoadingBranch s e.1 e.2) ∧
      (∀ c ∈ e.2.left, e.1 < c) ∧ (∀ c ∈ e.2.right, e.1 < c)) ∧
    (∀ i < s.nn, (childRefs s.node).count i = if i = 0 then 0 else 1) ∧
    (s.ldone = true ↔ 1 ≤ s.nn ∧ s.lstk = []) ∧
    (∀ e ∈ s.lstk, ∃ n ∈ Mem.read s.node e.1, n.sym = none) ∧
    (leafSyms s.node).Nodup ∧
    ∀ x < s.params.nsym, (Mem.read s.lseen x).isSome = true ↔ x ∈ leafSyms s.node

/-- The invariant of the block: R30 with the widths of R21 to R29 and the shape of a load session in progress. -/
abbrev Inv (s : State) : Prop :=
  s.params.Ok ∧ FreqInv s ∧ NodeInv s ∧ CodeInv s ∧ LoaderInv s ∧ DecodeInv s ∧ SessionInv s ∧
    (s.tv = true → TreeInv s) ∧ (s.lst = .active → LoadingInv s)

end Sys2Proof.Machine
end

