-- ==== Sys2Proof/Certificates/Slice0/Obligations.lean ====
section
/-!
DEFINITION. The statements for the provers, family by family, each formalising a numbered rule of the spec.
An equation `exec i s = .next { s with … }` is result, completion and frame at once: every part of the state that is not
named is as before.
-/

open Sys2Proof Sys2Proof.Machine

/-! ## Encoding (30_encoding.md) -/

/-- R74 with V11 and V15: words written out from the table, one per row, and the illegal words beside them. -/
def Obligations.TableWordsDecodeToTheirCommands : Prop :=
  decode Params.ref 0x01000000#32 = .ok .fclr ∧ decode Params.ref 0x02000041#32 = .ok (.fsym 0x41) ∧
  decode Params.ref 0x03000000#32 = .ok .build ∧ decode Params.ref 0x040000FF#32 = .ok (.enc 0xFF) ∧
  decode Params.ref 0x05000000#32 = .ok .dbeg ∧ decode Params.ref 0x06000001#32 = .ok (.dbit true) ∧
  decode Params.ref 0x06000000#32 = .ok (.dbit false) ∧ decode Params.ref 0x07000000#32 = .ok .dend ∧
  decode Params.ref 0x08000000#32 = .ok .ser ∧ decode Params.ref 0x09000000#32 = .ok .lbeg ∧
  decode Params.ref 0x0A000000#32 = .ok (.lleaf 0) ∧ decode Params.ref 0x0B000000#32 = .ok .lbr ∧
  decode Params.ref 0x0C000000#32 = .ok .lend ∧ decode Params.ref 0x0D000000#32 = .ok .drop ∧
  decode Params.ref 0x0E000041#32 = .error (.unknownOp 0x0E) ∧
  decode Params.ref 0x02000100#32 = .error (.nonZeroMustBeZero 0x02 0x100) ∧
  decode Params.ref 0x06000002#32 = .error (.nonZeroMustBeZero 0x06 2) ∧
  decode ⟨1, 32⟩ 0x0A000002#32 = .error (.nonZeroMustBeZero 0x0A 2)

/-- R72, R74: no operand bit is dropped by the encoding, for every SYM_W and every command. -/
def Obligations.DecodeOfEncodeIsTheCommand : Prop :=
  ∀ p : Params, p.Ok → ∀ i : Instr, i.wf p = true → decode p (encode i) = .ok i

/-- R73: a word that decodes is the one word of a well-formed command. -/
def Obligations.EncodeOfDecodeIsTheWord : Prop :=
  ∀ p : Params, p.Ok → ∀ (w : Word) (i : Instr), decode p w = .ok i → i.wf p = true ∧ encode i = w

/-- R74: a word is a command exactly when it selects a row of the table by match and mask, and then it is a command of
that row; the rows' OP fields differ. -/
def Obligations.LegalWordsAreThoseThatSelectARow : Prop :=
  ∀ p : Params, p.Ok → ∀ w : Word,
    (∀ i, decode p w = .ok i →
      (⟨i.op, i.form⟩ : Row) ∈ opcodeRows ∧ w &&& rowMask p i.form = rowMatch i.op) ∧
    (∀ r ∈ opcodeRows, w &&& rowMask p r.form = rowMatch r.op →
      ∃ i, decode p w = .ok i ∧ i.op = r.op ∧ i.form = r.form) ∧
    (opcodeRows.map Row.op).Nodup

/-- R75: an illegal word answers STATUS(IllegalCommand) and changes nothing else, and the engine goes on to the next
word. -/
def Obligations.IllegalWordAnswersAndChangesNothing : Prop :=
  ∀ (s : State) (w : Word) (ws : List Word), s.params.Ok →
    (opField w = 0x00 ∨ 0x0E ≤ opField w ∨
      (∃ r ∈ opcodeRows, r.op = opField w ∧ w &&& mustBeZero s.params r.form ≠ 0#32) ∨
      w = 0x00000000#32 ∨ w = 0xFFFFFFFF#32) →
    step { s with cmds := w :: ws } = .next { s with cmds := ws, rsp := s.rsp ++ [0x00000010#32] }

/-- R82 to R85: the response words. -/
def Obligations.ResponseWordsHaveTheirTabledBits : Prop :=
  (∀ b : Bool, (Rsp.bit b).word = if b then 0x06000001#32 else 0x06000000#32) ∧
  (∀ x < 2 ^ 24, (Rsp.sym x).word = 0x0E000000#32 ||| BitVec.ofNat 32 x) ∧
  (∀ x < 2 ^ 24, (Rsp.kleaf x).word = 0x0A000000#32 ||| BitVec.ofNat 32 x) ∧
  Rsp.kbr.word = 0x0B000000#32 ∧
  statusWord .ok = 0x00000000#32 ∧ statusWord .emptyInputError = 0x00000001#32 ∧
  statusWord .unknownSymbolError = 0x00000002#32 ∧ statusWord .deadEndError = 0x00000003#32 ∧
  statusWord .incompletePathError = 0x00000004#32 ∧ statusWord .malformedTreeError = 0x00000005#32 ∧
  statusWord .illegalCommand = 0x00000010#32 ∧ statusWord .badState = 0x00000011#32 ∧
  statusWord .capacityExceeded = 0x00000012#32

/-- R87, first and last sentence: the data words that replay are the command words that consume them; a SYM word is no
command. -/
def Obligations.DataWordsReplayAsCommands : Prop :=
  ∀ p : Params, p.Ok →
    (∀ b, decode p (Rsp.bit b).word = .ok (.dbit b)) ∧
    (∀ x < p.nsym, decode p (Rsp.kleaf x).word = .ok (.lleaf x)) ∧
    decode p Rsp.kbr.word = .ok .lbr ∧
    ∀ x < p.nsym, decode p (Rsp.sym x).word = .error (.unknownOp 0x0E)

/-! ## The step -/

/-- R14, R73: a step takes the oldest command word and executes the command it decodes to, with that word gone from the
command stream; nothing is added around it. -/
def Obligations.StepRunsTheDecodedCommand : Prop :=
  ∀ (s : State) (w : Word) (ws : List Word) (i : Instr), s.params.Ok → s.cmds = w :: ws →
    decode s.params w = .ok i → step s = exec i { s with cmds := ws }

/-- R215: with no command offered the block holds its state. -/
def Obligations.StepWithoutCommandKeepsState : Prop :=
  ∀ s : State, s.params.Ok → s.cmds = [] → step s = .next s

/-- U18 of 93_implementation_defined.md: a block whose parameters are out of range is refused. -/
def Obligations.StepRefusesParametersOutOfRange : Prop :=
  ∀ s : State, ¬ s.params.Ok → step s = .refused .parametersOutOfRange

/-- The model's choice (log entry 5): a symbol operand of NSYM or more, which no word decodes to, stops by name. -/
def Obligations.OversizedSymbolOperandFaults : Prop :=
  ∀ (s : State) (x : Nat), s.params.nsym ≤ x →
    exec (.fsym x) s = .fault (.symbolOutsideAlphabet x) ∧ exec (.enc x) s = .fault (.symbolOutsideAlphabet x) ∧
    exec (.lleaf x) s = .fault (.symbolOutsideAlphabet x)

/-! ## Frequency Table Builder (40_frequency.md) -/

/-- R101. -/
def Obligations.FclrEmptiesTheTableOnly : Prop :=
  encode .fclr = 0x01000000#32 ∧
  ∀ s : State, ∃ t, exec .fclr s = .next t ∧ (∀ x, readFreq t.freq x = 0) ∧
    t = { s with freq := t.freq, ftotal := 0, rsp := s.rsp ++ [statusWord .ok] }

/-- R102. -/
def Obligations.FsymCountsOneSymbolUnlessFull : Prop :=
  ∀ (s : State) (x : Nat), s.params.Ok → FreqInv s → x < s.params.nsym →
    encode (.fsym x) = 0x02000000#32 ||| BitVec.ofNat 32 x ∧
    (s.ftotal ≠ s.params.freqMax →
      ∃ t, exec (.fsym x) s = .next t ∧ readFreq t.freq x = readFreq s.freq x + 1 ∧
        (∀ y, y ≠ x → readFreq t.freq y = readFreq s.freq y) ∧
        t = { s with freq := t.freq, ftotal := s.ftotal + 1, rsp := s.rsp ++ [statusWord .ok] }) ∧
    (s.ftotal = s.params.freqMax →
      exec (.fsym x) s = .next { s with rsp := s.rsp ++ [statusWord .capacityExceeded] })

/-- R100: after FCLR and one FSYM per symbol the table holds the occurrence counts, whatever the order. -/
def Obligations.TableHoldsOccurrenceCounts : Prop :=
  ∀ (s : State) (xs : List Nat), s.params.Ok → (∀ x ∈ xs, x < s.params.nsym) → xs.length ≤ s.params.freqMax →
    ∃ t, runAll (.fclr :: xs.map .fsym) s = .next t ∧ (∀ x, readFreq t.freq x = xs.count x) ∧
      t = { s with
        freq := t.freq, ftotal := xs.length, rsp := s.rsp ++ List.replicate (xs.length + 1) (statusWord .ok) } ∧
      ∀ ys : List Nat, ys.Perm xs → runAll (.fclr :: ys.map .fsym) s = .next t

/-! ## Tree Builder (41_tree_builder.md) -/

/-- R118: BUILD over a Frequency Table that is not empty completes; the new tree and its code table are valid
(R24, R25, R28), a decode session is closed and the table is emptied. -/
def Obligations.BuildMakesATreeAndConsumesTheTable : Prop :=
  ∀ s : State, s.params.Ok → FreqInv s → s.lst = .idle → s.ftotal ≠ 0 →
    ∃ t, exec .build s = .next t ∧ NodeInv t ∧ CodeInv t ∧ TreeInv t ∧ (∀ x, readFreq t.freq x = 0) ∧
      t = { s with
        node := t.node, root := t.root, nn := t.nn, code := t.code, freq := t.freq, tv := true, ftotal := 0,
        dst := .idle, dcur := 0, rsp := s.rsp ++ [statusWord .ok] }

/-- R111, R113: leaves in ascending symbol order at 0 to n - 1, branches above them, each child below its parent. -/
def Obligations.BuildAllocatesLeavesThenBranches : Prop :=
  ∀ s t : State, s.params.Ok → FreqInv s → s.lst = .idle → s.ftotal ≠ 0 → exec .build s = .next t →
    ∃ xs : List Nat, xs.Pairwise (· < ·) ∧ (∀ x, x ∈ xs ↔ x < s.params.nsym ∧ 0 < readFreq s.freq x) ∧
      t.nn = 2 * xs.length - 1 ∧ t.root = 2 * xs.length - 2 ∧
      (∀ (k : Nat) (x : Nat), xs[k]? = some x →
        Mem.read t.node k = some { freq := readFreq s.freq x, sym := some x, left := none, right := none }) ∧
      ∀ j, xs.length ≤ j → j < t.nn →
        ∃ n l r, Mem.read t.node j = some n ∧ n.sym = none ∧ n.left = some l ∧ n.right = some r ∧ l < j ∧ r < j

/-- R112, R114, R115: every branch of a built tree merges the two least waiting nodes in the order of frequency, then
index; the least becomes right, the second least left, and the frequency is the sum. -/
def Obligations.BuildMergesTheTwoLeastWaitingNodes : Prop :=
  ∀ s t : State, s.params.Ok → FreqInv s → s.lst = .idle → s.ftotal ≠ 0 → exec .build s = .next t →
    ∀ (j : Nat) (n : Node), Mem.read t.node j = some n → n.sym = none →
      ∃ a b na nb, Mem.read t.node a = some na ∧ Mem.read t.node b = some nb ∧ a ≠ b ∧
        Waiting t.node j a ∧ Waiting t.node j b ∧
        n = { freq := na.freq + nb.freq, sym := none, left := some b, right := some a } ∧
        ∀ i ni, Waiting t.node j i → Mem.read t.node i = some ni → i ≠ a →
          (na.freq < ni.freq ∨ (na.freq = ni.freq ∧ a < i)) ∧
          (i ≠ b → nb.freq < ni.freq ∨ (nb.freq = ni.freq ∧ b < i))

/-- R119. -/
def Obligations.BuildRefusesLoadSessionThenEmptyTable : Prop :=
  ∀ s : State,
    (s.lst ≠ .idle → exec .build s = .next { s with rsp := s.rsp ++ [statusWord .badState] }) ∧
    (s.lst = .idle → s.ftotal = 0 →
      exec .build s = .next { s with rsp := s.rsp ++ [statusWord .emptyInputError] })

/-- R120: the root's frequency is FTOTAL, and no node's frequency exceeds it. -/
def Obligations.BuiltRootFrequencyIsTheTotal : Prop :=
  ∀ s t : State, s.params.Ok → FreqInv s → s.lst = .idle → s.ftotal ≠ 0 → exec .build s = .next t →
    (∃ n, Mem.read t.node t.root = some n ∧ n.freq = s.ftotal) ∧ ∀ e ∈ t.node, e.2.freq ≤ s.ftotal

/-- R116: one distinct symbol gives one leaf, no merge and the code [0]. -/
def Obligations.OneDistinctSymbolGivesOneLeaf : Prop :=
  ∀ (s : State) (x : Nat), s.params.Ok → FreqInv s → s.lst = .idle → x < s.params.nsym →
    0 < readFreq s.freq x → (∀ y, y ≠ x → readFreq s.freq y = 0) →
    ∃ t, exec .build s = .next t ∧
      t.node = [(0, { freq := readFreq s.freq x, sym := some x, left := none, right := none })] ∧
      t.root = 0 ∧ t.nn = 1 ∧ t.code = [(x, [false])] ∧ t.tv = true

/-- R122: equal tables give equal trees, at equal indices, and equal code tables. -/
def Obligations.BuildDependsOnTheTableOnly : Prop :=
  ∀ s₁ s₂ t₁ t₂ : State, s₁.params = s₂.params → s₁.lst = .idle → s₂.lst = .idle → s₁.ftotal ≠ 0 → s₂.ftotal ≠ 0 →
    (∀ x < s₁.params.nsym, readFreq s₁.freq x = readFreq s₂.freq x) →
    exec .build s₁ = .next t₁ → exec .build s₂ = .next t₂ →
    t₁.node = t₂.node ∧ t₁.root = t₂.root ∧ t₁.nn = t₂.nn ∧ t₁.code = t₂.code

/-- R117: among all trees whose leaves are exactly the keys of the table, the built tree has the least sum of count times
depth. -/
def Obligations.BuiltTreeHasLeastCost : Prop :=
  ∀ (s t : State) (u : SymTree), s.params.Ok → FreqInv s → s.lst = .idle → s.ftotal ≠ 0 →
    exec .build s = .next t → t.tree? = some u →
    (∀ x, x ∈ u.syms ↔ x < s.params.nsym ∧ 0 < readFreq s.freq x) ∧
    ∀ v : SymTree, v.syms.Perm u.syms → u.cost (readFreq s.freq) 0 ≤ v.cost (readFreq s.freq) 0

/-- R121. -/
def Obligations.DropEndsTreeAndSessions : Prop :=
  encode .drop = 0x0D000000#32 ∧
  ∀ s : State, ∃ t, exec .drop s = .next t ∧ (∀ i, Mem.read t.node i = none) ∧ (∀ x, Mem.read t.code x = none) ∧
    (∀ x, Mem.read t.lseen x = none) ∧
    t = { s with
      tv := false, root := 0, nn := 0, node := t.node, code := t.code, dst := .idle, dcur := 0, lst := .idle,
      ldone := false, lstk := [], lseen := t.lseen, rsp := s.rsp ++ [statusWord .ok] }

/-! ## Code Table Generator (42_code_table.md) -/

/-- R132: the codes of a valid tree are prefix-free. -/
def Obligations.CodesArePrefixFree : Prop :=
  ∀ s : State, Inv s → s.tv = true → ∀ x y q r, Mem.read s.code x = some q → Mem.read s.code y = some r → x ≠ y →
    ¬ q <+: r

/-- R133: after BUILD exactly the keys of the table have a code, after LEND exactly the symbols of the leaf records. -/
def Obligations.CodesCoverExactlyTheAlphabet : Prop :=
  (∀ s t : State, s.params.Ok → FreqInv s → s.lst = .idle → s.ftotal ≠ 0 → exec .build s = .next t →
    ∀ x < s.params.nsym, (Mem.read t.code x).isSome = true ↔ 0 < readFreq s.freq x) ∧
  (∀ s t : State, Inv s → s.lst = .active → s.ldone = true → exec .lend s = .next t →
    ∀ x < s.params.nsym, (Mem.read t.code x).isSome = true ↔ (Mem.read s.lseen x).isSome = true)

/-- R131 with R130: the code of a leaf is the list of decisions from ROOT to it; in a one-leaf tree it is [0]. -/
def Obligations.CodeIsThePathToTheLeaf : Prop :=
  ∀ (s : State) (u : SymTree), Inv s → s.tv = true → s.tree? = some u →
    ∀ x q, Mem.read s.code x = some q ↔
      ((x, q) ∈ u.paths ∧ q ≠ []) ∨ (q = [false] ∧ ∃ f, u = .leaf f x)

/-- R134: TV is 1 after a command only if the tree is the one before it, or BUILD or LEND made it and CODE is the
code table of the new tree. -/
def Obligations.TreeAndCodesChangeTogether : Prop :=
  ∀ (i : Instr) (s t : State), Inv s → exec i s = .next t → t.tv = true →
    (s.tv = true ∧ t.root = s.root ∧ t.nn = s.nn ∧ t.node = s.node ∧ t.code = s.code) ∨
    ((i = .build ∨ i = .lend) ∧ CodeMatchesTree t)

/-! ## Encoder (43_encoder.md) -/

/-- R141. -/
def Obligations.EncAnswersTheBitPath : Prop :=
  ∀ (s : State) (x : Nat), s.params.Ok → x < s.params.nsym →
    encode (.enc x) = 0x04000000#32 ||| BitVec.ofNat 32 x ∧
    (s.tv = false → exec (.enc x) s = .next { s with rsp := s.rsp ++ [statusWord .badState] }) ∧
    (s.tv = true → Mem.read s.code x = none →
      exec (.enc x) s = .next { s with rsp := s.rsp ++ [statusWord .unknownSymbolError] }) ∧
    (∀ q, s.tv = true → Mem.read s.code x = some q →
      exec (.enc x) s = .next { s with rsp := s.rsp ++ words (q.map Rsp.bit) ++ [statusWord .ok] })

/-! ## Decoder (44_decoder.md) -/

/-- R152. -/
def Obligations.DbegStandsOnTheRoot : Prop :=
  encode .dbeg = 0x05000000#32 ∧
  ∀ s : State,
    (s.tv = false → exec .dbeg s = .next { s with rsp := s.rsp ++ [statusWord .badState] }) ∧
    (∀ n, s.tv = true → Mem.read s.node s.root = some n →
      exec .dbeg s = .next { s with
        dcur := s.root, dst := if n.sym ≠ none then .vroot else .atNode, rsp := s.rsp ++ [statusWord .ok] })

/-- R153. -/
def Obligations.DbitTakesOneStep : Prop :=
  encode (.dbit false) = 0x06000000#32 ∧ encode (.dbit true) = 0x06000001#32 ∧
  ∀ (s : State) (b : Bool),
    (s.dst = .idle → exec (.dbit b) s = .next { s with rsp := s.rsp ++ [statusWord .badState] }) ∧
    (s.dst = .vroot → exec (.dbit b) s = .next { s with
      dst := if b = false then .atNode else .dead, rsp := s.rsp ++ [statusWord .ok] }) ∧
    (∀ n, s.dst = .atNode → Mem.read s.node s.dcur = some n → (if b = false then n.left else n.right) = none →
      exec (.dbit b) s = .next { s with dst := .dead, rsp := s.rsp ++ [statusWord .ok] }) ∧
    (∀ n j, s.dst = .atNode → Mem.read s.node s.dcur = some n → (if b = false then n.left else n.right) = some j →
      exec (.dbit b) s = .next { s with dcur := j, rsp := s.rsp ++ [statusWord .ok] }) ∧
    (s.dst = .dead → exec (.dbit b) s = .next { s with rsp := s.rsp ++ [statusWord .ok] })

/-- R154. -/
def Obligations.DendGivesTheResult : Prop :=
  encode .dend = 0x07000000#32 ∧
  ∀ s : State,
    (s.dst = .idle → exec .dend s = .next { s with rsp := s.rsp ++ [statusWord .badState] }) ∧
    (s.dst = .dead →
      exec .dend s = .next { s with dst := .idle, dcur := 0, rsp := s.rsp ++ [statusWord .deadEndError] }) ∧
    (s.dst = .vroot →
      exec .dend s = .next { s with dst := .idle, dcur := 0, rsp := s.rsp ++ [statusWord .incompletePathError] }) ∧
    (∀ n, s.dst = .atNode → Mem.read s.node s.dcur = some n → n.sym = none →
      exec .dend s = .next { s with dst := .idle, dcur := 0, rsp := s.rsp ++ [statusWord .incompletePathError] }) ∧
    (∀ n x, s.dst = .atNode → Mem.read s.node s.dcur = some n → n.sym = some x →
      exec .dend s = .next { s with
        dst := .idle, dcur := 0, rsp := s.rsp ++ [(Rsp.sym x).word, statusWord .ok] })

/-- R157: the session computes decode, and leaves the state as it was. -/
def Obligations.DecodeSessionComputesDecode : Prop :=
  ∀ (s : State) (q : BitPath), Inv s → s.tv = true → s.dst = .idle →
    ∃ r, decodePath s.node s.root q = some r ∧
      runAll (decodeCommands q) s = .next { s with
        rsp := s.rsp ++ List.replicate (q.length + 1) (statusWord .ok) ++ words r.answer }

/-- R151: the four results on a one-leaf tree. -/
def Obligations.OneLeafTreeDecodes : Prop :=
  ∀ (m : Mem Node) (root : Nat) (n : Node) (x : Nat), Mem.read m root = some n → n.sym = some x →
    decodePath m root [] = some .incompletePath ∧ decodePath m root [false] = some (.symbol x) ∧
    decodePath m root [true] = some .deadEnd ∧
    ∀ b q, decodePath m root (false :: b :: q) = some .deadEnd ∧ decodePath m root (true :: b :: q) = some .deadEnd

/-- R156, R158: the paths that decode to a symbol are exactly the codes, and every other path gives an error. -/
def Obligations.PathsThatDecodeAreTheCodes : Prop :=
  ∀ (s : State) (q : BitPath), Inv s → s.tv = true →
    (∀ x, decodePath s.node s.root q = some (.symbol x) ↔ Mem.read s.code x = some q) ∧
    ((∀ x, Mem.read s.code x ≠ some q) →
      decodePath s.node s.root q = some .deadEnd ∨ decodePath s.node s.root q = some .incompletePath)

/-- R87, second sentence, with R143: the data words of an ENC answer, sent back between DBEG and DEND, give the encoded
symbol, and leave the state as it was. -/
def Obligations.EncodedWordsReplayToTheSymbol : Prop :=
  ∀ (s a : State) (x : Nat) (ws : List Word), Inv s → s.dst = .idle → exec (.enc x) s = .next a →
    a.rsp = s.rsp ++ ws ++ [statusWord .ok] →
    runWords (encode .dbeg :: (ws ++ [encode .dend])) s = .next { s with
      rsp := s.rsp ++ List.replicate (ws.length + 1) (statusWord .ok) ++ [(Rsp.sym x).word, statusWord .ok] }

/-- R156 with R91, R104, R133: FROM_DATA of a symbol sequence that is not empty answers OK throughout, and then exactly
its symbols have a code, which decodes to them; FROM_DATA of nothing ends in EmptyInputError. -/
def Obligations.FromDataRoundTrip : Prop :=
  ∀ (s : State) (xs : List Nat), s.params.Ok → s.lst = .idle → (∀ x ∈ xs, x < s.params.nsym) →
    xs.length ≤ s.params.freqMax →
    (xs ≠ [] → ∃ t, runAll (fromData xs) s = .next t ∧ t.tv = true ∧
      t.rsp = s.rsp ++ List.replicate (xs.length + 2) (statusWord .ok) ∧
      ∀ x, x ∈ xs ↔ ∃ q, Mem.read t.code x = some q ∧ decodePath t.node t.root q = some (.symbol x)) ∧
    (xs = [] → runAll (fromData xs) s = .next { s with
      freq := [], ftotal := 0, rsp := s.rsp ++ [statusWord .ok, statusWord .emptyInputError] })

/-! ## Persistence (45_persistence.md) -/

/-- R171 with R170: SER answers the key record, NN words in pre-order. -/
def Obligations.SerAnswersTheKeyRecord : Prop :=
  encode .ser = 0x08000000#32 ∧
  ∀ s : State,
    (s.tv = false → exec .ser s = .next { s with rsp := s.rsp ++ [statusWord .badState] }) ∧
    (Inv s → s.tv = true →
      ∃ u, s.tree? = some u ∧ u.records.length = s.nn ∧
        exec .ser s = .next { s with rsp := s.rsp ++ words u.records ++ [statusWord .ok] })

/-- R172. -/
def Obligations.LbegStartsAnEmptyLoad : Prop :=
  encode .lbeg = 0x09000000#32 ∧
  ∀ s : State, ∃ t, exec .lbeg s = .next t ∧ (∀ i, Mem.read t.node i = none) ∧ (∀ x, Mem.read t.code x = none) ∧
    (∀ x, Mem.read t.lseen x = none) ∧
    t = { s with
      tv := false, root := 0, nn := 0, node := t.node, code := t.code, dst := .idle, dcur := 0, lst := .active,
      ldone := false, lstk := [], lseen := t.lseen, rsp := s.rsp ++ [statusWord .ok] }

/-- R173, the accepted record of R174 and R175: the new node is allocated at NN without children, becomes the child LSTK
waits for, and a branch then waits for its own two. -/
def Obligations.AcceptedRecordIsAttached : Prop :=
  ∀ (s : State) (x : Option Nat), Inv s → s.lst = .active → s.ldone = false → s.nn ≠ s.params.nodeCap →
    (∀ y, x = some y → y < s.params.nsym ∧ Mem.read s.lseen y = none) →
    ∃ t, exec (recordInstr x) s = .next t ∧
      Mem.read t.node s.nn = some { freq := 0, sym := x, left := none, right := none } ∧
      (match s.lstk with
        | [] => (∀ j, j ≠ s.nn → Mem.read t.node j = Mem.read s.node j) ∧ t.lstk = if x = none then [(s.nn, false)] else []
        | (b, k) :: rest =>
          (∃ n, Mem.read s.node b = some n ∧
            Mem.read t.node b = some (if k then { n with right := some s.nn } else { n with left := some s.nn })) ∧
          (∀ j, j ≠ s.nn → j ≠ b → Mem.read t.node j = Mem.read s.node j) ∧
          t.lstk = (if x = none then [(s.nn, false)] else []) ++ (if k then rest else (b, true) :: rest)) ∧
      (∀ y, (Mem.read t.lseen y).isSome = true ↔ (Mem.read s.lseen y).isSome = true ∨ x = some y) ∧
      (t.ldone = true ↔ t.lstk = []) ∧
      t = { s with
        nn := s.nn + 1, node := t.node, lseen := t.lseen, lstk := t.lstk, ldone := t.ldone,
        rsp := s.rsp ++ [statusWord .ok] }

/-- R173, R174, R175: BadState without a session; a malformed record makes the session BAD; in a BAD session a record is
ignored. -/
def Obligations.MalformedRecordMakesTheSessionBad : Prop :=
  ∀ (s : State) (x : Option Nat), (∀ y, x = some y → y < s.params.nsym) →
    (s.lst = .idle → exec (recordInstr x) s = .next { s with rsp := s.rsp ++ [statusWord .badState] }) ∧
    (s.lst = .bad → exec (recordInstr x) s = .next { s with rsp := s.rsp ++ [statusWord .ok] }) ∧
    (s.lst = .active →
      (s.ldone = true ∨ (∃ y, x = some y ∧ (Mem.read s.lseen y).isSome = true) ∨ s.nn = s.params.nodeCap) →
      exec (recordInstr x) s = .next { s with lst := .bad, rsp := s.rsp ++ [statusWord .ok] })

/-- R176. -/
def Obligations.LendMakesTheTreeOrReportsMalformed : Prop :=
  encode .lend = 0x0C000000#32 ∧
  ∀ s : State,
    (s.lst = .idle → exec .lend s = .next { s with rsp := s.rsp ++ [statusWord .badState] }) ∧
    (s.lst ≠ .idle → ¬ (s.lst = .active ∧ s.ldone = true) →
      exec .lend s = .next { s with
        lst := .idle, ldone := false, lstk := [], lseen := [], nn := 0, node := [],
        rsp := s.rsp ++ [statusWord .malformedTreeError] }) ∧
    (Inv s → s.lst = .active → s.ldone = true →
      ∃ t, exec .lend s = .next t ∧ TreeInv t ∧
        t = { s with
          lst := .idle, ldone := false, lstk := [], lseen := [], root := 0, code := t.code, tv := true,
          rsp := s.rsp ++ [statusWord .ok] })

/-- R177: the records between LBEG and LEND are accepted exactly when they are the key record of a tree with distinct
symbols; every other load is reported malformed and leaves no tree. -/
def Obligations.LoadAcceptsExactlyTheKeyRecords : Prop :=
  ∀ (s : State) (rs : List (Option Nat)), s.params.Ok → (∀ x, some x ∈ rs → x < s.params.nsym) →
    ∃ t, runAll (loadCommands rs) s = .next t ∧
      ((∃ u : SymTree, u.records = rs.map recordRsp ∧ u.syms.Nodup) →
        t.tv = true ∧ t.rsp = s.rsp ++ List.replicate (rs.length + 2) (statusWord .ok) ∧
        ∃ u, t.tree? = some u ∧ u.records = rs.map recordRsp ∧ u.shape = u) ∧
      ((¬ ∃ u : SymTree, u.records = rs.map recordRsp ∧ u.syms.Nodup) →
        t = { s with
          tv := false, root := 0, nn := 0, node := [], code := [], dst := .idle, dcur := 0, lst := .idle,
          ldone := false, lstk := [], lseen := [],
          rsp := s.rsp ++ List.replicate (rs.length + 1) (statusWord .ok) ++ [statusWord .malformedTreeError] })

/-- R178: the data words of a SER answer, sent back between LBEG and LEND, rebuild a tree of the same shape with the same
code table; every code decodes as before and SER answers the same words. -/
def Obligations.PersistenceRoundTrip : Prop :=
  ∀ (s a : State) (ws : List Word), Inv s → s.tv = true → exec .ser s = .next a →
    a.rsp = s.rsp ++ ws ++ [statusWord .ok] →
    ∃ t, runWords (encode .lbeg :: (ws ++ [encode .lend])) s = .next t ∧
      t.rsp = s.rsp ++ List.replicate (ws.length + 2) (statusWord .ok) ∧ t.tv = true ∧
      t.tree?.map SymTree.shape = s.tree?.map SymTree.shape ∧ t.code = s.code ∧
      (∀ x q, Mem.read s.code x = some q → decodePath t.node t.root q = some (.symbol x)) ∧
      exec .ser t = .next { t with rsp := t.rsp ++ ws ++ [statusWord .ok] }

/-! ## Errors (60_exceptions.md) -/

/-- R202: BadState exactly in the tabled cases, and then nothing changes. -/
def Obligations.BadStateExactlyWhenTabled : Prop :=
  ∀ (i : Instr) (s : State), i.wf s.params = true →
    (BadStateWhen s i ↔ exec i s = .next { s with rsp := s.rsp ++ [statusWord .badState] })

/-- R86: every answer is data words, none of KIND 0x00, and then one STATUS word, the data words only with OK, and both
as tabled for the command; an illegal word answers IllegalCommand. -/
def Obligations.AnswersHaveTheirTabledShape : Prop :=
  (∀ (i : Instr) (s t : State), Inv s → i.wf s.params = true → exec i s = .next t →
    ∃ ds c, t.rsp = s.rsp ++ words ds ++ [statusWord c] ∧ (∀ d ∈ ds, d.word >>> 24 ≠ 0#32) ∧
      (c ≠ .ok → ds = []) ∧ AllowedAnswer s i ds c) ∧
  ∀ (w : Word) (s : State) (e : Illegal), decode s.params w = .error e →
    runWord w s = .next { s with rsp := s.rsp ++ [statusWord .illegalCommand] }

/-- R201: each of the document's five errors is raised by one command only. -/
def Obligations.DocumentErrorsBelongToOneCommand : Prop :=
  ∀ (i : Instr) (s t : State) (c : Status), exec i s = .next t → t.rsp = s.rsp ++ [statusWord c] →
    (c = .emptyInputError → i = .build) ∧ (c = .unknownSymbolError → ∃ x, i = .enc x) ∧
    (c = .deadEndError → i = .dend) ∧ (c = .incompletePathError → i = .dend) ∧ (c = .malformedTreeError → i = .lend)

/-- R204: a command that ends in an error emits that one word, and has written what is tabled for the error. -/
def Obligations.FailingCommandsWriteOnlyWhatIsTabled : Prop :=
  ∀ (w : Word) (s t : State) (ds : List Word) (c : Status), runWord w s = .next t →
    t.rsp = s.rsp ++ ds ++ [statusWord c] →
    (c ≠ .ok → ds = []) ∧
    ((c = .illegalCommand ∨ c = .badState ∨ c = .capacityExceeded ∨ c = .emptyInputError ∨ c = .unknownSymbolError) →
      t = { s with rsp := t.rsp }) ∧
    ((c = .deadEndError ∨ c = .incompletePathError) → t = { s with dst := .idle, dcur := 0, rsp := t.rsp }) ∧
    (c = .malformedTreeError →
      t = { s with lst := .idle, ldone := false, lstk := [], lseen := [], nn := 0, node := [], rsp := t.rsp })

/-! ## The whole machine (10_state.md, 70_reset_and_hazards.md) -/

/-- R31: no command writes state outside its row of the access table; no command changes the parameters or the command
stream. -/
def Obligations.CommandsWriteOnlyTheirColumns : Prop :=
  ∀ (i : Instr) (s t : State), exec i s = .next t → OnlyTabledStateWritten s t i

/-- R36: between its creation and its end no command changes the tree; it ends by DROP, LBEG or a successful BUILD. -/
def Obligations.TreeIsReadOnlyUntilItEnds : Prop :=
  ∀ (i : Instr) (s t : State), Inv s → s.tv = true → exec i s = .next t →
    (t.tv = true ∧ t.node = s.node ∧ t.root = s.root ∧ t.nn = s.nn ∧ t.code = s.code) ∨
    i = .drop ∨ i = .lbeg ∨ (i = .build ∧ t.rsp = s.rsp ++ [statusWord .ok])

/-- R33: a dead decode session and a bad load session stay so until a command ends or restarts them. -/
def Obligations.FailedSessionsAreSticky : Prop :=
  ∀ (i : Instr) (s t : State), exec i s = .next t →
    (s.dst = .dead → t.dst ≠ .dead → i = .dend ∨ i = .dbeg ∨ i = .build ∨ i = .drop ∨ i = .lbeg) ∧
    (s.lst = .bad → t.lst ≠ .bad → i = .lend ∨ i = .lbeg ∨ i = .drop)

/-- R240 with R33: an open decode session is closed by DEND, DROP, LBEG and a BUILD that succeeds only, and DST and DCUR
are moved inside it by DBEG and DBIT only; an open load session is closed by LEND and DROP only, and inside it NN, NODE and
LST change by LBEG, LLEAF and LBR only (LDONE, LSTK and LSEEN: CommandsWriteOnlyTheirColumns). -/
def Obligations.OpenSessionsEndOnlyAsTabled : Prop :=
  ∀ (i : Instr) (s t : State), exec i s = .next t →
    (s.dst ≠ .idle → t.dst = .idle →
      i = .dend ∨ i = .drop ∨ i = .lbeg ∨ (i = .build ∧ t.rsp = s.rsp ++ [statusWord .ok])) ∧
    (s.dst ≠ .idle → t.dst ≠ .idle → (t.dst ≠ s.dst ∨ t.dcur ≠ s.dcur) → i = .dbeg ∨ ∃ b, i = .dbit b) ∧
    (s.lst ≠ .idle → t.lst = .idle → i = .lend ∨ i = .drop) ∧
    (s.lst ≠ .idle → t.lst ≠ .idle → (t.nn ≠ s.nn ∨ t.node ≠ s.node ∨ t.lst ≠ s.lst) →
      i = .lbeg ∨ i = .lbr ∨ ∃ x, i = .lleaf x)

/-- R230: every register and memory of the reset state, for every block. -/
def Obligations.ResetValues : Prop :=
  ∀ p : Params, (State.resetAt p).tv = false ∧ (State.resetAt p).root = 0 ∧ (State.resetAt p).nn = 0 ∧
    (State.resetAt p).ftotal = 0 ∧ (State.resetAt p).dst = .idle ∧ (State.resetAt p).dcur = 0 ∧
    (State.resetAt p).lst = .idle ∧ (State.resetAt p).ldone = false ∧
    (∀ x, readFreq (State.resetAt p).freq x = 0) ∧ (∀ x, Mem.read (State.resetAt p).code x = none) ∧
    (∀ i, Mem.read (State.resetAt p).node i = none) ∧ (State.resetAt p).lstk = [] ∧
    (∀ x, Mem.read (State.resetAt p).lseen x = none) ∧ (State.resetAt p).rsp = [] ∧
    ∀ s : State, s.params = p → s.assertReset = State.resetAt p

/-- R231, first part: the reset state satisfies every invariant. -/
def Obligations.ResetStateSatisfiesTheInvariant : Prop :=
  (∀ p : Params, p.Ok → Inv (State.resetAt p)) ∧ Inv State.reset

/-- R231, last sentence: DROP and FCLR, from any state, give the reset state. -/
def Obligations.DropThenFclrIsReset : Prop :=
  ∀ s : State, runAll [.drop, .fclr] s = .next { State.resetAt s.params with
    cmds := s.cmds, rsp := s.rsp ++ [statusWord .ok, statusWord .ok] }

/-- The four memories stay in canonical form, from every state that has it, reachable or not. -/
def Obligations.MemoriesStayCanonical : Prop :=
  ∀ s t : State, Memory.wf s → step s = .next t → Memory.wf t

/-- R30: every step keeps the invariant, from every state that satisfies it. -/
def Obligations.EveryStepKeepsTheInvariant : Prop :=
  ∀ s t : State, Inv s → step s = .next t → Inv t

/-- R208: from every state that satisfies R30 every 32-bit word is answered; no fault and no refusal is reached, and the
next state satisfies R30 again. -/
def Obligations.EveryWordIsAnswered : Prop :=
  ∀ (s : State) (w : Word), Inv s → ∃ t, runWord w s = .next t ∧ Inv t ∧
    ∃ ds c, t.rsp = s.rsp ++ words ds ++ [statusWord c]

/-- R12: what the block answers depends on NODE only through the shape of the tree: two blocks that differ in node
indices and frequencies have the same code table, decode every path alike and serialize to the same words. -/
def Obligations.AnswersDependOnTheTreeShapeOnly : Prop :=
  ∀ s₁ s₂ : State, Inv s₁ → Inv s₂ → s₁.tv = true → s₂.tv = true → s₁.params = s₂.params →
    s₁.tree?.map SymTree.shape = s₂.tree?.map SymTree.shape →
    s₁.code = s₂.code ∧ (∀ q, decodePath s₁.node s₁.root q = decodePath s₂.node s₂.root q) ∧
    ∃ ws, exec .ser s₁ = .next { s₁ with rsp := s₁.rsp ++ ws ++ [statusWord .ok] } ∧
      exec .ser s₂ = .next { s₂ with rsp := s₂.rsp ++ ws ++ [statusWord .ok] }
end

