-- ==== Sys2Proof/Laws/Memory.lean ====
section
/-!
SUPPORT. The laws of the indexed memories: read after write, canonical form, and equality by reading.
-/

namespace Sys2Proof.Machine

namespace Mem

variable {α : Type}

@[simp] theorem read_nil (a : Nat) : Mem.read ([] : Mem α) a = none := rfl

theorem read_cons (k : Nat) (v : α) (m : Mem α) (a : Nat) :
    Mem.read ((k, v) :: m) a = if a = k then some v else Mem.read m a := rfl

/-- Reading an entry just written gives the value written. -/
@[simp] theorem read_write_same (m : Mem α) (a : Nat) (v : α) : Mem.read (Mem.write m a v) a = some v := by
  induction m with
  | nil => simp [Mem.write, Mem.read]
  | cons e m ih =>
    obtain ⟨k, w⟩ := e
    simp only [Mem.write]
    split
    · simp [Mem.read]
    · split
      · simp [Mem.read]
      · simp [Mem.read, *]

/-- A write leaves every other entry alone. -/
theorem read_write_ne (m : Mem α) {a b : Nat} (v : α) (h : b ≠ a) :
    Mem.read (Mem.write m a v) b = Mem.read m b := by
  induction m with
  | nil => simp [Mem.write, Mem.read, h]
  | cons e m ih =>
    obtain ⟨k, w⟩ := e
    simp only [Mem.write]
    split
    · simp [Mem.read, h]
    · split
      · next hk => subst hk; simp [Mem.read, h]
      · simp [Mem.read, ih]

theorem read_write (m : Mem α) (a b : Nat) (v : α) :
    Mem.read (Mem.write m a v) b = if b = a then some v else Mem.read m b := by
  split
  · next h => subst h; simp
  · next h => exact read_write_ne m v h

/-- An erased entry holds no value. -/
@[simp] theorem read_erase_same (m : Mem α) (a : Nat) : Mem.read (Mem.erase m a) a = none := by
  induction m with
  | nil => rfl
  | cons e m ih =>
    obtain ⟨k, w⟩ := e
    by_cases hk : k = a
    · simpa [Mem.erase, hk] using ih
    · have : a ≠ k := fun h => hk h.symm
      simpa [Mem.erase, hk, Mem.read, this] using ih

/-- Erasing leaves every other entry alone. -/
theorem read_erase_ne (m : Mem α) {a b : Nat} (h : b ≠ a) : Mem.read (Mem.erase m a) b = Mem.read m b := by
  induction m with
  | nil => rfl
  | cons e m ih =>
    obtain ⟨k, w⟩ := e
    by_cases hk : k = a
    · subst hk
      simpa [Mem.erase, Mem.read, h] using ih
    · simp only [Mem.erase, ne_eq, decide_not] at ih
      simp [Mem.erase, hk, Mem.read, ih]

/-- An entry that reads as some v is listed. -/
theorem mem_of_read {m : Mem α} {a : Nat} {v : α} (h : Mem.read m a = some v) : (a, v) ∈ m := by
  induction m with
  | nil => simp at h
  | cons e m ih =>
    obtain ⟨k, w⟩ := e
    rw [read_cons] at h
    split at h
    · next hk => subst hk; cases h; exact List.mem_cons_self
    · exact List.mem_cons_of_mem _ (ih h)

/-- In canonical form a listed entry reads as its value. -/
theorem read_of_mem {m : Mem α} (hs : Mem.Sorted m) {a : Nat} {v : α} (h : (a, v) ∈ m) :
    Mem.read m a = some v := by
  induction m with
  | nil => cases h
  | cons e m ih =>
    obtain ⟨k, w⟩ := e
    simp only [Mem.Sorted, List.map_cons, List.pairwise_cons] at hs
    rw [read_cons]
    rcases List.mem_cons.mp h with h | h
    · cases h; simp
    · have : k < a := hs.1 a (List.mem_map_of_mem (f := Prod.fst) h)
      rw [if_neg (by omega)]
      exact ih hs.2 h

theorem mem_iff_read {m : Mem α} (hs : Mem.Sorted m) (a : Nat) (v : α) :
    (a, v) ∈ m ↔ Mem.read m a = some v :=
  ⟨read_of_mem hs, mem_of_read⟩

theorem read_isSome_iff (m : Mem α) (a : Nat) : (Mem.read m a).isSome = true ↔ a ∈ m.map Prod.fst := by
  induction m with
  | nil => simp
  | cons e m ih =>
    obtain ⟨k, w⟩ := e
    rw [read_cons]
    by_cases h : a = k <;> simp [h, ih]

theorem read_eq_none_iff (m : Mem α) (a : Nat) : Mem.read m a = none ↔ a ∉ m.map Prod.fst := by
  rw [← read_isSome_iff]
  cases Mem.read m a <;> simp

/-- The indices listed after a write. -/
theorem mem_keys_write (m : Mem α) (a b : Nat) (v : α) :
    b ∈ (Mem.write m a v).map Prod.fst ↔ b = a ∨ b ∈ m.map Prod.fst := by
  rw [← read_isSome_iff, ← read_isSome_iff, read_write]
  by_cases h : b = a <;> simp [h]

/-- An entry listed after a write is the one written or was listed before. -/
theorem mem_write {m : Mem α} {a : Nat} {v : α} {e : Nat × α} (h : e ∈ Mem.write m a v) :
    e = (a, v) ∨ e ∈ m := by
  induction m with
  | nil => simpa [Mem.write] using h
  | cons d m ih =>
    obtain ⟨k, w⟩ := d
    simp only [Mem.write] at h
    split at h
    · simpa using h
    · split at h
      · rcases List.mem_cons.mp h with h | h
        · exact .inl h
        · exact .inr (List.mem_cons_of_mem _ h)
      · rcases List.mem_cons.mp h with h | h
        · exact .inr (h ▸ List.mem_cons_self)
        · exact (ih h).imp id (List.mem_cons_of_mem _)

theorem sorted_nil : Mem.Sorted ([] : Mem α) := List.Pairwise.nil

/-- A write keeps the canonical form. -/
theorem sorted_write {m : Mem α} (hs : Mem.Sorted m) (a : Nat) (v : α) : Mem.Sorted (Mem.write m a v) := by
  induction m with
  | nil => simp [Mem.write, Mem.Sorted]
  | cons e m ih =>
    obtain ⟨k, w⟩ := e
    simp only [Mem.Sorted, List.map_cons, List.pairwise_cons] at hs
    simp only [Mem.write]
    split
    · next hak =>
      simp only [Mem.Sorted, List.map_cons, List.pairwise_cons]
      refine ⟨?_, hs⟩
      intro b hb
      rcases List.mem_cons.mp hb with hb | hb
      · omega
      · have := hs.1 b hb; omega
    · split
      · next hk => subst hk; simpa only [Mem.Sorted, List.map_cons, List.pairwise_cons] using hs
      · simp only [Mem.Sorted, List.map_cons, List.pairwise_cons]
        refine ⟨?_, ih hs.2⟩
        intro b hb
        rcases (mem_keys_write m a b v).mp hb with hb | hb
        · omega
        · exact hs.1 b hb

/-- Erasing keeps the canonical form. -/
theorem sorted_erase {m : Mem α} (hs : Mem.Sorted m) (a : Nat) : Mem.Sorted (Mem.erase m a) :=
  List.Pairwise.sublist ((List.filter_sublist (l := m)).map Prod.fst) hs

/-- Two memories in canonical form that read alike are equal data. -/
theorem ext_of_sorted {m n : Mem α} (hm : Mem.Sorted m) (hn : Mem.Sorted n)
    (h : ∀ a, Mem.read m a = Mem.read n a) : m = n := by
  induction m generalizing n with
  | nil =>
    cases n with
    | nil => rfl
    | cons e n => have := h e.1; simp [Mem.read] at this
  | cons d m ih =>
    cases n with
    | nil => have := h d.1; simp [Mem.read] at this
    | cons e n =>
      obtain ⟨k, v⟩ := d
      obtain ⟨j, w⟩ := e
      have hm' := hm
      have hn' := hn
      simp only [Mem.Sorted, List.map_cons, List.pairwise_cons] at hm' hn'
      have key : k = j := by
        rcases Nat.lt_trichotomy k j with hlt | heq | hgt
        · have h1 := h k
          rw [read_cons, if_pos rfl] at h1
          have := mem_of_read h1.symm
          rcases List.mem_cons.mp this with h2 | h2
          · cases h2; omega
          · have := hn'.1 k (List.mem_map_of_mem (f := Prod.fst) h2); omega
        · exact heq
        · have h1 := h j
          rw [read_cons j, if_pos rfl] at h1
          have := mem_of_read h1
          rcases List.mem_cons.mp this with h2 | h2
          · cases h2; omega
          · have := hm'.1 j (List.mem_map_of_mem (f := Prod.fst) h2); omega
      subst key
      have hv : v = w := by
        have := h k
        simpa [Mem.read] using this
      subst hv
      congr 1
      refine ih hm'.2 hn'.2 fun a => ?_
      by_cases ha : a = k
      · subst ha
        have h1 : Mem.read m a = none := by
          rw [read_eq_none_iff]; intro hc; have := hm'.1 a hc; omega
        have h2 : Mem.read n a = none := by
          rw [read_eq_none_iff]; intro hc; have := hn'.1 a hc; omega
        rw [h1, h2]
      · have := h a
        simpa [Mem.read, ha] using this

/-- Writing above every listed index appends. -/
theorem write_above {m : Mem α} {a : Nat} (h : ∀ k ∈ m.map Prod.fst, k < a) (v : α) :
    Mem.write m a v = m ++ [(a, v)] := by
  induction m with
  | nil => rfl
  | cons e m ih =>
    obtain ⟨k, w⟩ := e
    have hk : k < a := h k (by simp)
    simp only [Mem.write, if_neg (show ¬ a < k by omega), if_neg (show ¬ a = k by omega), List.cons_append]
    rw [ih fun j hj => h j (List.mem_cons_of_mem _ hj)]

/-- Writing a listed index of a memory in canonical form keeps the list of indices. -/
theorem keys_write_listed {m : Mem α} {a : Nat} (hs : Mem.Sorted m) (h : a ∈ m.map Prod.fst) (v : α) :
    (Mem.write m a v).map Prod.fst = m.map Prod.fst := by
  induction m with
  | nil => cases h
  | cons e m ih =>
    obtain ⟨k, w⟩ := e
    simp only [Mem.Sorted, List.map_cons, List.pairwise_cons] at hs
    simp only [Mem.write]
    rcases List.mem_cons.mp h with hk | hk
    · have hk : a = k := hk
      subst hk; simp
    · have := hs.1 a hk
      simp only [if_neg (show ¬ a < k by omega), if_neg (show ¬ a = k by omega), List.map_cons]
      rw [ih hs.2 hk]

/-- A memory whose indices are 0 to n - 1 is in canonical form. -/
theorem sorted_of_keys_range {m : Mem α} {n : Nat} (h : m.map Prod.fst = List.range n) : Mem.Sorted m := by
  simp only [Mem.Sorted, h]
  exact List.pairwise_lt_range

/-- The entries that hold a value, when the indices are 0 to n - 1. -/
theorem read_isSome_of_keys_range {m : Mem α} {n : Nat} (h : m.map Prod.fst = List.range n) (a : Nat) :
    (Mem.read m a).isSome = true ↔ a < n := by
  rw [read_isSome_iff, h, List.mem_range]

/-- Writing entry n of a memory whose indices are 0 to n - 1. -/
theorem keys_write_next {m : Mem α} {n : Nat} (h : m.map Prod.fst = List.range n) (v : α) :
    (Mem.write m n v).map Prod.fst = List.range (n + 1) := by
  rw [write_above (by intro k hk; rw [h] at hk; exact List.mem_range.mp hk)]
  simp [h, List.range_succ]

/-- Writing entry a < n of a memory whose indices are 0 to n - 1. -/
theorem keys_write_range {m : Mem α} {n a : Nat} (h : m.map Prod.fst = List.range n) (ha : a < n) (v : α) :
    (Mem.write m a v).map Prod.fst = List.range n := by
  rw [keys_write_listed (sorted_of_keys_range h) (by rw [h]; exact List.mem_range.mpr ha), h]

end Mem

/-! ### The frequency memory (10_state.md R26) -/

@[simp] theorem readFreq_nil (x : Nat) : readFreq [] x = 0 := rfl

@[simp] theorem readFreq_writeFreq_same (m : Mem Nat) (x : Nat) (c : Nat) :
    readFreq (writeFreq m x c) x = c := by
  unfold readFreq writeFreq
  split
  · next h => simp [h]
  · simp

theorem readFreq_writeFreq_ne (m : Mem Nat) {x y : Nat} (c : Nat) (h : y ≠ x) :
    readFreq (writeFreq m x c) y = readFreq m y := by
  unfold readFreq writeFreq
  split
  · rw [Mem.read_erase_ne m h]
  · rw [Mem.read_write_ne m c h]

theorem sorted_writeFreq {m : Mem Nat} (h : Mem.Sorted m) (x : Nat) (c : Nat) :
    Mem.Sorted (writeFreq m x c) := by
  unfold writeFreq
  split
  · exact Mem.sorted_erase h x
  · exact Mem.sorted_write h x c

/-- No count of 0 is listed after a write, if none was before. -/
theorem writeFreq_noZero {m : Mem Nat} (h : ∀ e ∈ m, e.2 ≠ 0) (x : Nat) (c : Nat) :
    ∀ e ∈ writeFreq m x c, e.2 ≠ 0 := by
  unfold writeFreq
  split
  · intro e he
    exact h e (List.mem_filter.mp he).1
  · next hc =>
    intro e he
    rcases Mem.mem_write he with rfl | he
    · exact hc
    · exact h e he

/-- Two frequency memories in canonical form that read alike are equal data. -/
theorem freq_ext {m n : Mem Nat} (hm : Mem.Sorted m) (hn : Mem.Sorted n) (zm : ∀ e ∈ m, e.2 ≠ 0)
    (zn : ∀ e ∈ n, e.2 ≠ 0) (h : ∀ x, readFreq m x = readFreq n x) : m = n := by
  refine Mem.ext_of_sorted hm hn fun a => ?_
  have ha := h a
  unfold readFreq at ha
  cases h1 : Mem.read m a with
  | none =>
    cases h2 : Mem.read n a with
    | none => rfl
    | some w =>
      rw [h1, h2] at ha
      exact absurd ha.symm (zn _ (Mem.mem_of_read h2))
  | some v =>
    cases h2 : Mem.read n a with
    | none =>
      rw [h1, h2] at ha
      exact absurd ha (zm _ (Mem.mem_of_read h1))
    | some w =>
      rw [h1, h2] at ha
      exact congrArg some ha

/-! ### The memory form of the reset state -/

theorem resetAt_memory_wf (p : Params) : Memory.wf (State.resetAt p) := by
  simp [Memory.wf, Mem.Sorted, State.resetAt]

theorem reset_memory_wf : Memory.wf State.reset := resetAt_memory_wf _

end Sys2Proof.Machine
end

