-- ==== Sys2Proof/Laws/State.lean ====
section
/-!
SUPPORT. What every named update of State does to every field: one lemma per field per update.
-/

namespace Sys2Proof.Machine

/-! ### emit appends one response word and writes nothing else. -/

@[simp] theorem emit_params (r : Rsp) (s : State) : (emit r s).params = s.params := rfl
@[simp] theorem emit_cmds (r : Rsp) (s : State) : (emit r s).cmds = s.cmds := rfl
@[simp] theorem emit_rsp (r : Rsp) (s : State) : (emit r s).rsp = s.rsp ++ [r.word] := rfl
@[simp] theorem emit_tv (r : Rsp) (s : State) : (emit r s).tv = s.tv := rfl
@[simp] theorem emit_root (r : Rsp) (s : State) : (emit r s).root = s.root := rfl
@[simp] theorem emit_nn (r : Rsp) (s : State) : (emit r s).nn = s.nn := rfl
@[simp] theorem emit_ftotal (r : Rsp) (s : State) : (emit r s).ftotal = s.ftotal := rfl
@[simp] theorem emit_dst (r : Rsp) (s : State) : (emit r s).dst = s.dst := rfl
@[simp] theorem emit_dcur (r : Rsp) (s : State) : (emit r s).dcur = s.dcur := rfl
@[simp] theorem emit_lst (r : Rsp) (s : State) : (emit r s).lst = s.lst := rfl
@[simp] theorem emit_ldone (r : Rsp) (s : State) : (emit r s).ldone = s.ldone := rfl
@[simp] theorem emit_node (r : Rsp) (s : State) : (emit r s).node = s.node := rfl
@[simp] theorem emit_freq (r : Rsp) (s : State) : (emit r s).freq = s.freq := rfl
@[simp] theorem emit_code (r : Rsp) (s : State) : (emit r s).code = s.code := rfl
@[simp] theorem emit_lstk (r : Rsp) (s : State) : (emit r s).lstk = s.lstk := rfl
@[simp] theorem emit_lseen (r : Rsp) (s : State) : (emit r s).lseen = s.lseen := rfl

/-! ### emitAll appends response words and writes nothing else. -/

@[simp] theorem emitAll_params (rs : List Rsp) (s : State) : (emitAll rs s).params = s.params := rfl
@[simp] theorem emitAll_cmds (rs : List Rsp) (s : State) : (emitAll rs s).cmds = s.cmds := rfl
@[simp] theorem emitAll_rsp (rs : List Rsp) (s : State) : (emitAll rs s).rsp = s.rsp ++ rs.map Rsp.word := rfl
@[simp] theorem emitAll_tv (rs : List Rsp) (s : State) : (emitAll rs s).tv = s.tv := rfl
@[simp] theorem emitAll_root (rs : List Rsp) (s : State) : (emitAll rs s).root = s.root := rfl
@[simp] theorem emitAll_nn (rs : List Rsp) (s : State) : (emitAll rs s).nn = s.nn := rfl
@[simp] theorem emitAll_ftotal (rs : List Rsp) (s : State) : (emitAll rs s).ftotal = s.ftotal := rfl
@[simp] theorem emitAll_dst (rs : List Rsp) (s : State) : (emitAll rs s).dst = s.dst := rfl
@[simp] theorem emitAll_dcur (rs : List Rsp) (s : State) : (emitAll rs s).dcur = s.dcur := rfl
@[simp] theorem emitAll_lst (rs : List Rsp) (s : State) : (emitAll rs s).lst = s.lst := rfl
@[simp] theorem emitAll_ldone (rs : List Rsp) (s : State) : (emitAll rs s).ldone = s.ldone := rfl
@[simp] theorem emitAll_node (rs : List Rsp) (s : State) : (emitAll rs s).node = s.node := rfl
@[simp] theorem emitAll_freq (rs : List Rsp) (s : State) : (emitAll rs s).freq = s.freq := rfl
@[simp] theorem emitAll_code (rs : List Rsp) (s : State) : (emitAll rs s).code = s.code := rfl
@[simp] theorem emitAll_lstk (rs : List Rsp) (s : State) : (emitAll rs s).lstk = s.lstk := rfl
@[simp] theorem emitAll_lseen (rs : List Rsp) (s : State) : (emitAll rs s).lseen = s.lseen := rfl

/-! ### done appends STATUS(OK) and writes nothing else. -/

@[simp] theorem done_params (s : State) : (done s).params = s.params := rfl
@[simp] theorem done_cmds (s : State) : (done s).cmds = s.cmds := rfl
@[simp] theorem done_rsp (s : State) : (done s).rsp = s.rsp ++ [(Rsp.status .ok).word] := rfl
@[simp] theorem done_tv (s : State) : (done s).tv = s.tv := rfl
@[simp] theorem done_root (s : State) : (done s).root = s.root := rfl
@[simp] theorem done_nn (s : State) : (done s).nn = s.nn := rfl
@[simp] theorem done_ftotal (s : State) : (done s).ftotal = s.ftotal := rfl
@[simp] theorem done_dst (s : State) : (done s).dst = s.dst := rfl
@[simp] theorem done_dcur (s : State) : (done s).dcur = s.dcur := rfl
@[simp] theorem done_lst (s : State) : (done s).lst = s.lst := rfl
@[simp] theorem done_ldone (s : State) : (done s).ldone = s.ldone := rfl
@[simp] theorem done_node (s : State) : (done s).node = s.node := rfl
@[simp] theorem done_freq (s : State) : (done s).freq = s.freq := rfl
@[simp] theorem done_code (s : State) : (done s).code = s.code := rfl
@[simp] theorem done_lstk (s : State) : (done s).lstk = s.lstk := rfl
@[simp] theorem done_lseen (s : State) : (done s).lseen = s.lseen := rfl

/-! ### raise appends one STATUS word and writes nothing else (60_exceptions.md R204). -/

@[simp] theorem raise_params (c : Status) (s : State) : (raise c s).params = s.params := rfl
@[simp] theorem raise_cmds (c : Status) (s : State) : (raise c s).cmds = s.cmds := rfl
@[simp] theorem raise_rsp (c : Status) (s : State) : (raise c s).rsp = s.rsp ++ [(Rsp.status c).word] := rfl
@[simp] theorem raise_tv (c : Status) (s : State) : (raise c s).tv = s.tv := rfl
@[simp] theorem raise_root (c : Status) (s : State) : (raise c s).root = s.root := rfl
@[simp] theorem raise_nn (c : Status) (s : State) : (raise c s).nn = s.nn := rfl
@[simp] theorem raise_ftotal (c : Status) (s : State) : (raise c s).ftotal = s.ftotal := rfl
@[simp] theorem raise_dst (c : Status) (s : State) : (raise c s).dst = s.dst := rfl
@[simp] theorem raise_dcur (c : Status) (s : State) : (raise c s).dcur = s.dcur := rfl
@[simp] theorem raise_lst (c : Status) (s : State) : (raise c s).lst = s.lst := rfl
@[simp] theorem raise_ldone (c : Status) (s : State) : (raise c s).ldone = s.ldone := rfl
@[simp] theorem raise_node (c : Status) (s : State) : (raise c s).node = s.node := rfl
@[simp] theorem raise_freq (c : Status) (s : State) : (raise c s).freq = s.freq := rfl
@[simp] theorem raise_code (c : Status) (s : State) : (raise c s).code = s.code := rfl
@[simp] theorem raise_lstk (c : Status) (s : State) : (raise c s).lstk = s.lstk := rfl
@[simp] theorem raise_lseen (c : Status) (s : State) : (raise c s).lseen = s.lseen := rfl

/-! ### clearTree writes TV, ROOT, NN, NODE and CODE only. -/

@[simp] theorem clearTree_params (s : State) : (clearTree s).params = s.params := rfl
@[simp] theorem clearTree_cmds (s : State) : (clearTree s).cmds = s.cmds := rfl
@[simp] theorem clearTree_rsp (s : State) : (clearTree s).rsp = s.rsp := rfl
@[simp] theorem clearTree_tv (s : State) : (clearTree s).tv = false := rfl
@[simp] theorem clearTree_root (s : State) : (clearTree s).root = 0 := rfl
@[simp] theorem clearTree_nn (s : State) : (clearTree s).nn = 0 := rfl
@[simp] theorem clearTree_ftotal (s : State) : (clearTree s).ftotal = s.ftotal := rfl
@[simp] theorem clearTree_dst (s : State) : (clearTree s).dst = s.dst := rfl
@[simp] theorem clearTree_dcur (s : State) : (clearTree s).dcur = s.dcur := rfl
@[simp] theorem clearTree_lst (s : State) : (clearTree s).lst = s.lst := rfl
@[simp] theorem clearTree_ldone (s : State) : (clearTree s).ldone = s.ldone := rfl
@[simp] theorem clearTree_node (s : State) : (clearTree s).node = [] := rfl
@[simp] theorem clearTree_freq (s : State) : (clearTree s).freq = s.freq := rfl
@[simp] theorem clearTree_code (s : State) : (clearTree s).code = [] := rfl
@[simp] theorem clearTree_lstk (s : State) : (clearTree s).lstk = s.lstk := rfl
@[simp] theorem clearTree_lseen (s : State) : (clearTree s).lseen = s.lseen := rfl

/-! ### closeDecode writes DST and DCUR only. -/

@[simp] theorem closeDecode_params (s : State) : (closeDecode s).params = s.params := rfl
@[simp] theorem closeDecode_cmds (s : State) : (closeDecode s).cmds = s.cmds := rfl
@[simp] theorem closeDecode_rsp (s : State) : (closeDecode s).rsp = s.rsp := rfl
@[simp] theorem closeDecode_tv (s : State) : (closeDecode s).tv = s.tv := rfl
@[simp] theorem closeDecode_root (s : State) : (closeDecode s).root = s.root := rfl
@[simp] theorem closeDecode_nn (s : State) : (closeDecode s).nn = s.nn := rfl
@[simp] theorem closeDecode_ftotal (s : State) : (closeDecode s).ftotal = s.ftotal := rfl
@[simp] theorem closeDecode_dst (s : State) : (closeDecode s).dst = .idle := rfl
@[simp] theorem closeDecode_dcur (s : State) : (closeDecode s).dcur = 0 := rfl
@[simp] theorem closeDecode_lst (s : State) : (closeDecode s).lst = s.lst := rfl
@[simp] theorem closeDecode_ldone (s : State) : (closeDecode s).ldone = s.ldone := rfl
@[simp] theorem closeDecode_node (s : State) : (closeDecode s).node = s.node := rfl
@[simp] theorem closeDecode_freq (s : State) : (closeDecode s).freq = s.freq := rfl
@[simp] theorem closeDecode_code (s : State) : (closeDecode s).code = s.code := rfl
@[simp] theorem closeDecode_lstk (s : State) : (closeDecode s).lstk = s.lstk := rfl
@[simp] theorem closeDecode_lseen (s : State) : (closeDecode s).lseen = s.lseen := rfl

/-! ### closeLoad writes LST, LDONE, LSTK and LSEEN only. -/

@[simp] theorem closeLoad_params (s : State) : (closeLoad s).params = s.params := rfl
@[simp] theorem closeLoad_cmds (s : State) : (closeLoad s).cmds = s.cmds := rfl
@[simp] theorem closeLoad_rsp (s : State) : (closeLoad s).rsp = s.rsp := rfl
@[simp] theorem closeLoad_tv (s : State) : (closeLoad s).tv = s.tv := rfl
@[simp] theorem closeLoad_root (s : State) : (closeLoad s).root = s.root := rfl
@[simp] theorem closeLoad_nn (s : State) : (closeLoad s).nn = s.nn := rfl
@[simp] theorem closeLoad_ftotal (s : State) : (closeLoad s).ftotal = s.ftotal := rfl
@[simp] theorem closeLoad_dst (s : State) : (closeLoad s).dst = s.dst := rfl
@[simp] theorem closeLoad_dcur (s : State) : (closeLoad s).dcur = s.dcur := rfl
@[simp] theorem closeLoad_lst (s : State) : (closeLoad s).lst = .idle := rfl
@[simp] theorem closeLoad_ldone (s : State) : (closeLoad s).ldone = false := rfl
@[simp] theorem closeLoad_node (s : State) : (closeLoad s).node = s.node := rfl
@[simp] theorem closeLoad_freq (s : State) : (closeLoad s).freq = s.freq := rfl
@[simp] theorem closeLoad_code (s : State) : (closeLoad s).code = s.code := rfl
@[simp] theorem closeLoad_lstk (s : State) : (closeLoad s).lstk = [] := rfl
@[simp] theorem closeLoad_lseen (s : State) : (closeLoad s).lseen = [] := rfl

/-! ### The host's words join the command stream and nothing else changes. -/

@[simp] theorem send_params (ws : List Word) (s : State) : (State.send ws s).params = s.params := rfl
@[simp] theorem send_cmds (ws : List Word) (s : State) : (State.send ws s).cmds = s.cmds ++ ws := rfl
@[simp] theorem send_rsp (ws : List Word) (s : State) : (State.send ws s).rsp = s.rsp := rfl
@[simp] theorem send_tv (ws : List Word) (s : State) : (State.send ws s).tv = s.tv := rfl
@[simp] theorem send_root (ws : List Word) (s : State) : (State.send ws s).root = s.root := rfl
@[simp] theorem send_nn (ws : List Word) (s : State) : (State.send ws s).nn = s.nn := rfl
@[simp] theorem send_ftotal (ws : List Word) (s : State) : (State.send ws s).ftotal = s.ftotal := rfl
@[simp] theorem send_dst (ws : List Word) (s : State) : (State.send ws s).dst = s.dst := rfl
@[simp] theorem send_dcur (ws : List Word) (s : State) : (State.send ws s).dcur = s.dcur := rfl
@[simp] theorem send_lst (ws : List Word) (s : State) : (State.send ws s).lst = s.lst := rfl
@[simp] theorem send_ldone (ws : List Word) (s : State) : (State.send ws s).ldone = s.ldone := rfl
@[simp] theorem send_node (ws : List Word) (s : State) : (State.send ws s).node = s.node := rfl
@[simp] theorem send_freq (ws : List Word) (s : State) : (State.send ws s).freq = s.freq := rfl
@[simp] theorem send_code (ws : List Word) (s : State) : (State.send ws s).code = s.code := rfl
@[simp] theorem send_lstk (ws : List Word) (s : State) : (State.send ws s).lstk = s.lstk := rfl
@[simp] theorem send_lseen (ws : List Word) (s : State) : (State.send ws s).lseen = s.lseen := rfl

end Sys2Proof.Machine
end

