-- ==== Sys2Proof/Laws/Ops.lean ====
section
/-!
SUPPORT. What each shared operation can do, said once: when it answers, and with what.
-/

namespace Sys2Proof.Machine

theorem readNode_ok_iff {m : Mem Node} {i : Nat} {n : Node} : readNode m i = .ok n ↔ Mem.read m i = some n := by
  unfold readNode
  split <;> simp_all

theorem readNode_of_read {m : Mem Node} {i : Nat} {n : Node} (h : Mem.read m i = some n) :
    readNode m i = .ok n := readNode_ok_iff.mpr h

theorem writeNode_ok_iff {p : Params} {m m' : Mem Node} {i : Nat} {n : Node} :
    writeNode p m i n = .ok m' ↔ i < p.nodeCap ∧ m' = Mem.write m i n := by
  by_cases h : i < p.nodeCap <;> simp [writeNode, h, eq_comm]

theorem writeNode_of_lt {p : Params} {i : Nat} (h : i < p.nodeCap) (m : Mem Node) (n : Node) :
    writeNode p m i n = .ok (Mem.write m i n) := writeNode_ok_iff.mpr ⟨h, rfl⟩

theorem symbolInAlphabet_iff {p : Params} {x : Nat} : symbolInAlphabet p x = true ↔ x < p.nsym := by
  simp [symbolInAlphabet]

theorem writeCode_ok_iff {p : Params} {m m' : Mem BitPath} {x : Nat} {q : BitPath} :
    writeCode p m x q = .ok m' ↔ x < p.nsym ∧ m' = Mem.write m x q := by
  unfold writeCode
  split
  · next h => simp [symbolInAlphabet_iff.mp h, eq_comm]
  · next h => rw [symbolInAlphabet_iff] at h; simp [h]

theorem writeCode_of_lt {p : Params} {x : Nat} (h : x < p.nsym) (m : Mem BitPath) (q : BitPath) :
    writeCode p m x q = .ok (Mem.write m x q) := writeCode_ok_iff.mpr ⟨h, rfl⟩

theorem addFreq_ok_iff {p : Params} {a b c : Nat} :
    addFreq p a b = .ok c ↔ a + b ≤ p.freqMax ∧ c = a + b := by
  by_cases h : a + b ≤ p.freqMax <;> simp [addFreq, h, eq_comm]

theorem addFreq_of_le {p : Params} {a b : Nat} (h : a + b ≤ p.freqMax) : addFreq p a b = .ok (a + b) :=
  addFreq_ok_iff.mpr ⟨h, rfl⟩

/-- A command that settles answers exactly when its steps meet no state without meaning. -/
theorem settle_next_iff {r : Except Fault State} {t : State} : settle r = .next t ↔ r = .ok t := by
  unfold settle
  split <;> simp_all

theorem settle_map_next_iff {r : Except Fault State} {f : State → State} {t : State} :
    settle (r.map f) = .next t ↔ ∃ u, r = .ok u ∧ t = f u := by
  rw [settle_next_iff]
  cases r <;> simp [Except.map, eq_comm]

/-- No command is refused once it settles. -/
theorem settle_ne_refused (r : Except Fault State) (x : Refusal) : settle r ≠ .refused x := by
  unfold settle
  split <;> simp

theorem fetch_nil {s : State} (h : s.cmds = []) : fetch s = none := by simp [fetch, h]

theorem fetch_cons {s : State} {w : Word} {ws : List Word} (h : s.cmds = w :: ws) :
    fetch s = some (w, { s with cmds := ws }) := by simp [fetch, h]

theorem Node.child_false (n : Node) : n.child false = n.left := rfl

theorem Node.child_true (n : Node) : n.child true = n.right := rfl

@[simp] theorem Node.setChild_sym (n : Node) (k : Bool) (i : Nat) : (n.setChild k i).sym = n.sym := by
  cases k <;> rfl

@[simp] theorem Node.setChild_freq (n : Node) (k : Bool) (i : Nat) : (n.setChild k i).freq = n.freq := by
  cases k <;> rfl

/-- Setting a child fills that child and leaves the other as it was. -/
theorem Node.child_setChild (n : Node) (k b : Bool) (i : Nat) :
    (n.setChild k i).child b = if b = k then some i else n.child b := by
  cases k <;> cases b <;> rfl

/-! ### The canonical form through the checked writes -/

theorem writeNode_sorted {p : Params} {m m' : Mem Node} {i : Nat} {n : Node} (hs : Mem.Sorted m)
    (h : writeNode p m i n = .ok m') : Mem.Sorted m' := by
  obtain ⟨-, rfl⟩ := writeNode_ok_iff.mp h
  exact Mem.sorted_write hs i n

theorem writeCode_sorted {p : Params} {m m' : Mem BitPath} {x : Nat} {q : BitPath} (hs : Mem.Sorted m)
    (h : writeCode p m x q = .ok m') : Mem.Sorted m' := by
  obtain ⟨-, rfl⟩ := writeCode_ok_iff.mp h
  exact Mem.sorted_write hs x q

end Sys2Proof.Machine
end

