-- ==== Sys2Proof/Laws/Builder.lean ====
section
/-!
SUPPORT. The Tree Builder's procedures, each said once: the extraction of the least member, seeding, and merging as an
induction over its rounds (41_tree_builder.md R111, R112).
-/

namespace Sys2Proof.Machine

/-! ### The order of R114 -/

theorem keyLt_iff {a b : Key} : keyLt a b = true ↔ a.1 < b.1 ∨ (a.1 = b.1 ∧ a.2 < b.2) := by
  simp [keyLt]

theorem keyLt_irrefl (a : Key) : keyLt a a = false := by
  simp [keyLt]

theorem keyLt_trans {a b c : Key} (h : keyLt a b = true) (h' : keyLt b c = true) : keyLt a c = true := by
  rw [keyLt_iff] at *
  omega

/-- Of two different keys one is before the other. -/
theorem keyLt_of_not {a b : Key} (h : keyLt b a = false) (hne : a ≠ b) : keyLt a b = true := by
  rw [← Bool.not_eq_true, keyLt_iff] at h
  rw [keyLt_iff]
  by_cases h1 : a.1 = b.1
  · by_cases h2 : a.2 = b.2
    · exact absurd (Prod.ext h1 h2) hne
    · omega
  · omega

theorem leastKey_mem (k : Key) (q : List Key) : leastKey k q ∈ k :: q := by
  induction q generalizing k with
  | nil => simp [leastKey]
  | cons j q ih =>
    simp only [leastKey]
    split
    · exact List.mem_cons_of_mem _ (ih j)
    · have := ih k
      rcases List.mem_cons.mp this with h | h
      · rw [h]; exact List.mem_cons_self
      · exact List.mem_cons_of_mem _ (List.mem_cons_of_mem _ h)

/-- No member is before the least one. -/
theorem leastKey_least (k : Key) (q : List Key) : ∀ j ∈ k :: q, keyLt j (leastKey k q) = false := by
  induction q generalizing k with
  | nil => intro j hj; simp at hj; subst hj; exact keyLt_irrefl _
  | cons i q ih =>
    intro j hj
    simp only [leastKey]
    split
    · next hlt =>
      rcases List.mem_cons.mp hj with rfl | hj
      · cases hc : keyLt j (leastKey i q)
        · rfl
        · have := ih i i List.mem_cons_self
          have h2 := keyLt_trans hlt hc
          rw [this] at h2; cases h2
      · exact ih i j hj
    · next hlt =>
      rcases List.mem_cons.mp hj with rfl | hj
      · exact ih _ _ List.mem_cons_self
      · rcases List.mem_cons.mp hj with rfl | hj
        · cases hc : keyLt j (leastKey k q)
          · rfl
          · by_cases hk : k = j
            · subst hk; rw [ih k k List.mem_cons_self] at hc; cases hc
            · have hkj : keyLt k j = true := keyLt_of_not (by simpa using hlt) hk
              have h2 := keyLt_trans hkj hc
              rw [ih k k List.mem_cons_self] at h2; cases h2
        · exact ih k j (List.mem_cons_of_mem _ hj)

/-- ExtractMin (R112): a member that no other is before, and the collection without it. -/
theorem extractMin_some {q r : List Key} {a : Key} (h : extractMin q = some (a, r)) :
    a ∈ q ∧ r = q.erase a ∧ q.Perm (a :: r) ∧ r.length + 1 = q.length ∧ ∀ j ∈ q, keyLt j a = false := by
  cases q with
  | nil => simp [extractMin] at h
  | cons k q =>
    simp only [extractMin, Option.some.injEq, Prod.mk.injEq] at h
    obtain ⟨rfl, rfl⟩ := h
    have hm := leastKey_mem k q
    refine ⟨hm, rfl, List.perm_cons_erase hm, ?_, leastKey_least k q⟩
    rw [List.length_erase_of_mem hm]
    simp

theorem extractMin_none_iff {q : List Key} : extractMin q = none ↔ q = [] := by
  cases q <;> simp [extractMin]

theorem extractMin_of_ne_nil {q : List Key} (h : q ≠ []) : ∃ a r, extractMin q = some (a, r) := by
  cases q with
  | nil => exact absurd rfl h
  | cons k q => exact ⟨_, _, rfl⟩

/-! ### Seed -/

/-- The leaves Seed allocates from index k on (R111). -/
def seedLeaves (freq : Mem Nat) (k : Nat) (xs : List Nat) : Mem Node :=
  (xs.zipIdx k).map (fun e => (e.2, leafNode (readFreq freq e.1) e.1))

/-- The priority collection Seed starts with (R111). -/
def seedKeys (freq : Mem Nat) (k : Nat) (xs : List Nat) : List Key :=
  (xs.zipIdx k).map (fun e => (readFreq freq e.1, e.2))

theorem seedKeys_length (freq : Mem Nat) (k : Nat) (xs : List Nat) : (seedKeys freq k xs).length = xs.length := by
  simp [seedKeys]

/-- The frequencies in the collection are the counts of the seeded symbols. -/
theorem seedKeys_freqs (freq : Mem Nat) (k : Nat) (xs : List Nat) :
    (seedKeys freq k xs).map Prod.fst = xs.map (readFreq freq) := by
  induction xs generalizing k with
  | nil => rfl
  | cons x xs ih =>
    have := ih (k + 1)
    simp only [seedKeys] at this
    simp [seedKeys, this]

/-- Seed answers when the leaves fit NODE, and allocates them behind the entries there are (R111). -/
theorem seed_eq {p : Params} {freq : Mem Nat} {k : Nat} {xs : List Nat} {m : Mem Node}
    (hm : m.map Prod.fst = List.range k) (hcap : k + xs.length ≤ p.nodeCap) :
    seed p freq k xs m = .ok (m ++ seedLeaves freq k xs, seedKeys freq k xs) := by
  induction xs generalizing k m with
  | nil => simp [seed, seedLeaves, seedKeys]
  | cons x xs ih =>
    simp only [List.length_cons] at hcap
    have hlt : k < p.nodeCap := by omega
    have habove : ∀ j ∈ m.map Prod.fst, j < k := by
      intro j hj; rw [hm] at hj; exact List.mem_range.mp hj
    simp only [seed, writeNode_of_lt hlt]
    rw [Mem.write_above habove, ih (by simp [hm, List.range_succ]) (by omega)]
    simp [seedLeaves, seedKeys]

theorem seed_keys {freq : Mem Nat} {k : Nat} {xs : List Nat} {m : Mem Node}
    (hm : m.map Prod.fst = List.range k) :
    (m ++ seedLeaves freq k xs).map Prod.fst = List.range (k + xs.length) := by
  have : (seedLeaves freq k xs).map Prod.fst = List.range' k xs.length := by
    induction xs generalizing k m with
    | nil => rfl
    | cons x xs ih =>
      have := ih (k := k + 1) (m := m ++ [(k, leafNode 0 0)]) (by simp [hm, List.range_succ])
      simp only [seedLeaves] at this
      simp [seedLeaves, this, List.range'_succ]
  rw [List.map_append, hm, this, List.range_eq_range', List.range_eq_range']
  simpa using List.range'_append_1 (s := 0) (m := k) (n := xs.length)

/-! ### Merge -/

/-- One round of Merge (R112): the two least members leave the collection, the branch over them joins it. -/
theorem merge_step {p : Params} {d : Nat} {m : Mem Node} {q q1 q2 : List Key} {next : Nat} {a b : Key}
    (ha : extractMin q = some (a, q1)) (hb : extractMin q1 = some (b, q2)) (hf : a.1 + b.1 ≤ p.freqMax)
    (hn : next < p.nodeCap) :
    merge p (d + 1) m q next =
      merge p d (Mem.write m next (branchNode (a.1 + b.1) a.2 b.2)) (q2 ++ [(a.1 + b.1, next)]) (next + 1) := by
  simp only [merge, ha, hb, addFreq_of_le hf, writeNode_of_lt hn]

/-- The end of Merge: one member is left. -/
theorem merge_last {p : Params} {d : Nat} {m : Mem Node} {next : Nat} (a : Key) :
    merge p (d + 1) m [a] next = .ok (m, a.2) := by
  simp [merge, extractMin, leastKey]

/-- The induction over the rounds of Merge: what holds of the nodes, the collection and the next index, and is kept by
every round, holds at the end with one member left, the root. -/
theorem merge_induction {p : Params} {P : Mem Node → List Key → Nat → Prop}
    (hstep : ∀ m q next a q1 b q2, P m q next → extractMin q = some (a, q1) → extractMin q1 = some (b, q2) →
      a.1 + b.1 ≤ p.freqMax → next < p.nodeCap →
      P (Mem.write m next (branchNode (a.1 + b.1) a.2 b.2)) (q2 ++ [(a.1 + b.1, next)]) (next + 1))
    {d : Nat} {m m' : Mem Node} {q : List Key} {next r : Nat} (h0 : P m q next)
    (h : merge p d m q next = .ok (m', r)) :
    ∃ f last, P m' [(f, r)] last ∧ last + 1 = next + q.length := by
  induction d generalizing m q next with
  | zero => simp [merge] at h
  | succ d ih =>
    simp only [merge] at h
    split at h
    · cases h
    · next a q1 ha =>
      obtain ⟨-, -, hp1, hl1, -⟩ := extractMin_some ha
      split at h
      · next hb =>
        have : q1 = [] := extractMin_none_iff.mp hb
        subst this
        cases h
        have hq : q = [a] := List.perm_singleton.mp hp1
        subst hq
        exact ⟨a.1, next, h0, by simp⟩
      · next b q2 hb =>
        obtain ⟨-, -, -, hl2, -⟩ := extractMin_some hb
        split at h
        · cases h
        · next c hc =>
          obtain ⟨hle, rfl⟩ := addFreq_ok_iff.mp hc
          split at h
          · cases h
          · next m1 hw =>
            obtain ⟨hlt, rfl⟩ := writeNode_ok_iff.mp hw
            obtain ⟨f, last, hP, hlast⟩ := ih (hstep m q next a q1 b q2 h0 ha hb hle hlt) h
            refine ⟨f, last, hP, ?_⟩
            simp only [List.length_append, List.length_cons, List.length_nil] at hlast
            omega

/-- Merge answers when the collection is not empty, the sum of its frequencies fits FREQ_W bits and the branches fit
NODE (R112, R120). -/
theorem merge_total {p : Params} {d : Nat} {m : Mem Node} {q : List Key} {next : Nat} (hq : q ≠ [])
    (hsum : (q.map Prod.fst).sum ≤ p.freqMax) (hcap : next + q.length ≤ p.nodeCap + 1) (hd : q.length ≤ d) :
    ∃ m' r, merge p d m q next = .ok (m', r) := by
  induction d generalizing m q next with
  | zero => cases q <;> simp_all
  | succ d ih =>
    obtain ⟨a, q1, ha⟩ := extractMin_of_ne_nil hq
    obtain ⟨-, -, hp1, hl1, -⟩ := extractMin_some ha
    by_cases h1 : q1 = []
    · subst h1
      have hqa : q = [a] := List.perm_singleton.mp hp1
      subst hqa
      exact ⟨m, a.2, merge_last a⟩
    · obtain ⟨b, q2, hb⟩ := extractMin_of_ne_nil h1
      obtain ⟨-, -, hp2, hl2, -⟩ := extractMin_some hb
      have e1 : (q.map Prod.fst).sum = a.1 + (q1.map Prod.fst).sum := by
        rw [(hp1.map Prod.fst).sum_nat]; simp
      have e2 : (q1.map Prod.fst).sum = b.1 + (q2.map Prod.fst).sum := by
        rw [(hp2.map Prod.fst).sum_nat]; simp
      have hlen : 1 ≤ q1.length := List.length_pos_iff.mpr h1
      rw [merge_step ha hb (by omega) (by omega)]
      refine ih (by simp) ?_ ?_ ?_
      · simp only [List.map_append, List.sum_append, List.map_cons, List.map_nil, List.sum_cons, List.sum_nil]
        omega
      · simp only [List.length_append, List.length_cons, List.length_nil]; omega
      · simp only [List.length_append, List.length_cons, List.length_nil]; omega

/-- NODE stays in canonical form through Merge. -/
theorem merge_sorted {p : Params} {d : Nat} {m m' : Mem Node} {q : List Key} {next r : Nat} (hs : Mem.Sorted m)
    (h : merge p d m q next = .ok (m', r)) : Mem.Sorted m' := by
  obtain ⟨f, last, hP, -⟩ := merge_induction (P := fun m _ _ => Mem.Sorted m)
    (fun m q next a q1 b q2 hs _ _ _ _ => Mem.sorted_write hs _ _) hs h
  exact hP

/-! ### The symbols of the table -/

theorem mem_tableSymbols {p : Params} {freq : Mem Nat} {x : Nat} :
    x ∈ tableSymbols p freq ↔ x < p.nsym ∧ 0 < readFreq freq x := by
  simp [tableSymbols]

/-- The keys of the table stand in ascending order (R111). -/
theorem tableSymbols_sorted (p : Params) (freq : Mem Nat) : (tableSymbols p freq).Pairwise (· < ·) :=
  List.Pairwise.filter _ List.pairwise_lt_range

theorem tableSymbols_length_le (p : Params) (freq : Mem Nat) : (tableSymbols p freq).length ≤ p.nsym := by
  have := List.length_filter_le (fun x => decide (0 < readFreq freq x)) (List.range p.nsym)
  simpa [tableSymbols] using this

/-- The counts of the keys add up to the counts of all symbols: the others count 0 (10_state.md R26). -/
theorem tableSymbols_sum (p : Params) (freq : Mem Nat) :
    ((tableSymbols p freq).map (readFreq freq)).sum = ((List.range p.nsym).map (readFreq freq)).sum := by
  have key : ∀ l : List Nat, ((l.filter (fun x => decide (0 < readFreq freq x))).map (readFreq freq)).sum =
      (l.map (readFreq freq)).sum := by
    intro l
    induction l with
    | nil => rfl
    | cons x l ih =>
      by_cases h : 0 < readFreq freq x
      · simp [h, ih]
      · have : readFreq freq x = 0 := by omega
        simp [this, ih]
  exact key _

end Sys2Proof.Machine
end

