-- ==== Sys2Proof/Laws/Decode.lean ====
section
/-!
SUPPORT. The fields of a command word and the operand forms.
-/

namespace Sys2Proof

theorem opField_lt (w : Word) : opField w < 2 ^ 8 := by
  have := w.isLt
  unfold opField
  omega

theorem argField_lt (w : Word) : argField w < 2 ^ 24 := by
  unfold argField
  omega

theorem opField_wordOf {hi lo : Nat} (hh : hi < 2 ^ 8) (hl : lo < 2 ^ 24) : opField (wordOf hi lo) = hi := by
  simp only [opField, wordOf, BitVec.toNat_ofNat]
  omega

theorem argField_wordOf {hi lo : Nat} (hl : lo < 2 ^ 24) : argField (wordOf hi lo) = lo := by
  simp only [argField, wordOf, BitVec.toNat_ofNat]
  omega

/-- A word is its two fields. -/
theorem wordOf_fields (w : Word) : wordOf (opField w) (argField w) = w := by
  apply BitVec.eq_of_toNat_eq
  have := w.isLt
  simp only [opField, argField, wordOf, BitVec.toNat_ofNat]
  omega

theorem formN_ok_iff {op arg : Nat} {i j : Instr} : formN op arg i = .ok j ↔ arg = 0 ∧ j = i := by
  unfold formN
  split <;> simp_all [eq_comm]

theorem formS_ok_iff {p : Params} {op arg : Nat} {i : Nat → Instr} {j : Instr} :
    formS p op arg i = .ok j ↔ arg < p.nsym ∧ j = i arg := by
  unfold formS Params.nsym
  have hpos : 0 < 2 ^ p.symW := Nat.two_pow_pos _
  split
  · next h =>
    have hlt : arg < 2 ^ p.symW := by
      rcases Nat.div_eq_zero_iff.mp h with h | h
      · omega
      · exact h
    simp [hlt, Nat.mod_eq_of_lt hlt, eq_comm]
  · next h =>
    have : ¬ arg < 2 ^ p.symW := fun hl => h (Nat.div_eq_of_lt hl)
    simp [this]

theorem formB_ok_iff {op arg : Nat} {i : Bool → Instr} {j : Instr} :
    formB op arg i = .ok j ↔ arg < 2 ∧ j = i (arg == 1) := by
  unfold formB
  split
  · next h =>
    have hlt : arg < 2 := by omega
    rw [Nat.mod_eq_of_lt hlt]
    simp [hlt, eq_comm]
  · next h =>
    have : ¬ arg < 2 := by omega
    simp [this]

/-- The alphabet of a block fits ARG (00_scope.md R6). -/
theorem Params.nsym_le {p : Params} (h : p.Ok) : p.nsym ≤ 2 ^ 24 :=
  Nat.pow_le_pow_right (by omega) h.2.1

theorem Params.nsym_ge_two {p : Params} (h : p.Ok) : 2 ≤ p.nsym := by
  have : 2 ^ 1 ≤ 2 ^ p.symW := Nat.pow_le_pow_right (by omega) h.1
  simpa [Params.nsym] using this

theorem Params.nodeCap_eq (p : Params) : p.nodeCap + 1 = 2 * p.nsym := by
  have : 0 < p.nsym := Nat.two_pow_pos _
  unfold Params.nodeCap
  omega

/-- MAX_PATH is NSYM - 1: the parameters give at least two symbols (00_scope.md R8). -/
theorem Params.maxPath_eq {p : Params} (h : p.Ok) : p.maxPath + 1 = p.nsym := by
  have := Params.nsym_ge_two h
  unfold Params.maxPath
  omega

/-- The operand of a well-formed command fits ARG. -/
theorem Instr.arg_lt {p : Params} (h : p.Ok) {i : Instr} (hw : i.wf p = true) : i.arg < 2 ^ 24 := by
  have hn := Params.nsym_le h
  cases i with
  | fsym x => exact Nat.lt_of_lt_of_le (by simpa [Instr.wf, Instr.arg] using hw) hn
  | enc x => exact Nat.lt_of_lt_of_le (by simpa [Instr.wf, Instr.arg] using hw) hn
  | lleaf x => exact Nat.lt_of_lt_of_le (by simpa [Instr.wf, Instr.arg] using hw) hn
  | dbit b => cases b <;> simp [Instr.arg]
  | _ => simp [Instr.arg]

theorem Instr.op_lt (i : Instr) : i.op < 2 ^ 8 := by
  cases i <;> simp [Instr.op]

end Sys2Proof
end

