-- ==== Sys2Proof/Laws/Trees.lean ====
section
/-!
SUPPORT. The walks over NODE (the Code Table Generator, SER and the decoder's walk), each said once in terms of the
abstract tree of 00_scope.md R12.
-/

namespace Sys2Proof.Machine

/-- The two ways a node index holds a tree: a leaf, or a branch over two trees (R12). -/
theorem treeAt_succ_some {d : Nat} {m : Mem Node} {i : Nat} {t : SymTree} :
    treeAt (d + 1) m i = some t ↔
      (∃ n x, Mem.read m i = some n ∧ n.sym = some x ∧ t = .leaf n.freq x) ∨
      (∃ n l r a b, Mem.read m i = some n ∧ n.sym = none ∧ n.left = some l ∧ n.right = some r ∧
        treeAt d m l = some a ∧ treeAt d m r = some b ∧ t = .branch n.freq a b) := by
  constructor
  · intro h
    simp only [treeAt] at h
    split at h
    · cases h
    · next n hn =>
      split at h
      · next x hx => exact .inl ⟨n, x, hn, hx, (Option.some.inj h).symm⟩
      · next hx =>
        split at h
        · next l r hl hr =>
          split at h
          · next a b ha hb => exact .inr ⟨n, l, r, a, b, hn, hx, hl, hr, ha, hb, (Option.some.inj h).symm⟩
          · cases h
        · cases h
  · rintro (⟨n, x, hn, hx, rfl⟩ | ⟨n, l, r, a, b, hn, hx, hl, hr, ha, hb, rfl⟩)
    · simp [treeAt, hn, hx]
    · simp [treeAt, hn, hx, hl, hr, ha, hb]

/-- A larger depth bound finds the same tree. -/
theorem treeAt_mono {m : Mem Node} {t : SymTree} {d e : Nat} {i : Nat} (hde : d ≤ e)
    (h : treeAt d m i = some t) : treeAt e m i = some t := by
  induction d generalizing e i t with
  | zero => simp [treeAt] at h
  | succ d ih =>
    obtain ⟨e, rfl⟩ : ∃ k, e = k + 1 := ⟨e - 1, by omega⟩
    rw [treeAt_succ_some] at h ⊢
    rcases h with h | ⟨n, l, r, a, b, hn, hx, hl, hr, ha, hb, ht⟩
    · exact .inl h
    · exact .inr ⟨n, l, r, a, b, hn, hx, hl, hr, ih (by omega) ha, ih (by omega) hb, ht⟩

/-- The tree at an index is read from the entries it reaches; two memories that agree there hold the same tree. -/
theorem treeAt_congr {m m' : Mem Node} {d : Nat} {i : Nat} {t : SymTree} (h : treeAt d m i = some t)
    (hr : ∀ j ∈ reach d m i, Mem.read m' j = Mem.read m j) : treeAt d m' i = some t := by
  induction d generalizing i t with
  | zero => simp [treeAt] at h
  | succ d ih =>
    rw [treeAt_succ_some] at h ⊢
    rcases h with ⟨n, x, hn, hx, ht⟩ | ⟨n, l, r, a, b, hn, hx, hl, hrt, ha, hb, ht⟩
    · exact .inl ⟨n, x, by rw [hr i (by simp [reach, hn]), hn], hx, ht⟩
    · refine .inr ⟨n, l, r, a, b, by rw [hr i (by simp [reach, hn]), hn], hx, hl, hrt, ih ha ?_, ih hb ?_, ht⟩
      · intro j hj; exact hr j (by simp [reach, hn, hl, hrt, hj])
      · intro j hj; exact hr j (by simp [reach, hn, hl, hrt, hj])

namespace SymTree

/-- The number of nodes of a tree. -/
def size : SymTree → Nat
  | leaf _ _ => 1
  | branch _ l r => 1 + l.size + r.size

/-- The number of levels of a tree. -/
def height : SymTree → Nat
  | leaf _ _ => 1
  | branch _ l r => 1 + max l.height r.height

theorem records_length (t : SymTree) : t.records.length = t.size := by
  induction t with
  | leaf f x => rfl
  | branch f l r ihl ihr => simp [records, size, ihl, ihr]; omega

/-- A tree with n leaves has 2n - 1 nodes (10_state.md R24). -/
theorem size_add_one (t : SymTree) : t.size + 1 = 2 * t.syms.length := by
  induction t with
  | leaf f x => rfl
  | branch f l r ihl ihr => simp only [size, syms, List.length_append]; omega

/-- The depth of a tree with n leaves is below n (R24). -/
theorem height_le (t : SymTree) : t.height ≤ t.syms.length := by
  induction t with
  | leaf f x => simp [height, syms]
  | branch f l r ihl ihr =>
    have hl := size_add_one l
    have hr := size_add_one r
    have : 1 ≤ l.size := by cases l <;> simp [size]; omega
    have : 1 ≤ r.size := by cases r <;> simp [size]; omega
    simp only [height, syms, List.length_append]
    omega

theorem shape_syms (t : SymTree) : t.shape.syms = t.syms := by
  induction t with
  | leaf f x => rfl
  | branch f l r ihl ihr => simp [shape, syms, ihl, ihr]

theorem shape_records (t : SymTree) : t.shape.records = t.records := by
  induction t with
  | leaf f x => rfl
  | branch f l r ihl ihr => simp [shape, records, ihl, ihr]

theorem shape_paths (t : SymTree) : t.shape.paths = t.paths := by
  induction t with
  | leaf f x => rfl
  | branch f l r ihl ihr => simp [shape, paths, ihl, ihr]

theorem shape_codeTable (t : SymTree) : t.shape.codeTable = t.codeTable := by
  cases t with
  | leaf f x => rfl
  | branch f l r => simp [shape, codeTable, paths, shape_paths]

/-- Every leaf has one path, left to right. -/
theorem paths_syms (t : SymTree) : t.paths.map Prod.fst = t.syms := by
  induction t with
  | leaf f x => rfl
  | branch f l r ihl ihr =>
    simp only [paths, syms, List.map_append, List.map_map]
    rw [← ihl, ← ihr]
    rfl

theorem codeTable_syms (t : SymTree) : t.codeTable.map Prod.fst = t.syms := by
  cases t with
  | leaf f x => rfl
  | branch f l r => exact paths_syms _

/-- No path of a tree is longer than its depth. -/
theorem paths_length_lt (t : SymTree) : ∀ e ∈ t.paths, e.2.length < t.height := by
  induction t with
  | leaf f x => simp [paths, height]
  | branch f l r ihl ihr =>
    intro e he
    simp only [paths, List.mem_append, List.mem_map] at he
    simp only [height]
    rcases he with ⟨d, hd, rfl⟩ | ⟨d, hd, rfl⟩
    · have := ihl d hd; simp only [List.length_cons]; omega
    · have := ihr d hd; simp only [List.length_cons]; omega

/-- The key record says everything but the frequencies: equal records come from equal shapes, and nothing follows
either. -/
theorem records_append_inj {t u : SymTree} {as bs : List Rsp} (h : t.records ++ as = u.records ++ bs) :
    t.shape = u.shape ∧ as = bs := by
  induction t generalizing u as bs with
  | leaf f x =>
    cases u with
    | leaf g y => simp [records] at h; simp [shape, h]
    | branch g l r => simp [records] at h
  | branch f l r ihl ihr =>
    cases u with
    | leaf g y => simp [records] at h
    | branch g l' r' =>
      simp only [records, List.cons_append, List.append_assoc, List.cons.injEq, true_and] at h
      obtain ⟨h1, h2⟩ := ihl h
      obtain ⟨h3, h4⟩ := ihr h2
      exact ⟨by simp [shape, h1, h3], h4⟩

theorem records_inj {t u : SymTree} (h : t.records = u.records) : t.shape = u.shape :=
  (records_append_inj (as := []) (bs := []) (by simpa using h)).1

end SymTree

/-- Every leaf of the memory is childless (R24): what the walks below need beyond a tree at their node. -/
def ChildlessLeaves (m : Mem Node) : Prop :=
  ∀ i n x, Mem.read m i = some n → n.sym = some x → n.left = none ∧ n.right = none

/-- The indices reached from the root of a tree are as many as its nodes. -/
theorem reach_length {m : Mem Node} (hc : ChildlessLeaves m) {d : Nat} {i : Nat} {t : SymTree}
    (h : treeAt d m i = some t) : (reach d m i).length = t.size := by
  induction d generalizing i t with
  | zero => simp [treeAt] at h
  | succ d ih =>
    rcases treeAt_succ_some.mp h with ⟨n, x, hn, hx, rfl⟩ | ⟨n, l, r, a, b, hn, hx, hl, hr, ha, hb, rfl⟩
    · obtain ⟨hl, hr⟩ := hc i n x hn hx
      simp [reach, hn, hl, hr, SymTree.size]
    · simp [reach, hn, hl, hr, ih ha, ih hb, SymTree.size]; omega

/-! ### SER -/

/-- SER's walk answers exactly the key record of the tree at the node (45_persistence.md R170, R171). -/
theorem preorder_ok_iff {m : Mem Node} {d : Nat} {i : Nat} {rs : List Rsp} :
    preorder m d i = .ok rs ↔ ∃ t, treeAt d m i = some t ∧ rs = t.records := by
  induction d generalizing i rs with
  | zero => simp [preorder, treeAt]
  | succ d ih =>
    constructor
    · intro h
      simp only [preorder] at h
      split at h
      · cases h
      · next n hn =>
        rw [readNode_ok_iff] at hn
        split at h
        · next x hx =>
          cases h
          exact ⟨.leaf n.freq x, treeAt_succ_some.mpr (.inl ⟨n, x, hn, hx, rfl⟩), rfl⟩
        · next hx =>
          split at h
          · next l r hl hr =>
            split at h
            · next a b ha hb =>
              cases h
              obtain ⟨t, ht, rfl⟩ := ih.mp ha
              obtain ⟨u, hu, rfl⟩ := ih.mp hb
              exact ⟨.branch n.freq t u,
                treeAt_succ_some.mpr (.inr ⟨n, l, r, t, u, hn, hx, hl, hr, ht, hu, rfl⟩), rfl⟩
            · cases h
            · cases h
          · cases h
    · rintro ⟨t, ht, rfl⟩
      rcases treeAt_succ_some.mp ht with ⟨n, x, hn, hx, rfl⟩ | ⟨n, l, r, a, b, hn, hx, hl, hr, ha, hb, rfl⟩
      · simp [preorder, readNode_of_read hn, hx, SymTree.records]
      · simp [preorder, readNode_of_read hn, hx, hl, hr, ih.mpr ⟨a, ha, rfl⟩, ih.mpr ⟨b, hb, rfl⟩, SymTree.records]

/-! ### The Code Table Generator -/

/-- CODE after the leaves of a list have been recorded, in order. -/
def recordAll (code : Mem BitPath) (es : List (Nat × BitPath)) : Mem BitPath :=
  es.foldl (fun c e => Mem.write c e.1 e.2) code

theorem recordAll_append (code : Mem BitPath) (es fs : List (Nat × BitPath)) :
    recordAll code (es ++ fs) = recordAll (recordAll code es) fs := by
  simp [recordAll]

theorem recordAll_sorted {code : Mem BitPath} (h : Mem.Sorted code) (es : List (Nat × BitPath)) :
    Mem.Sorted (recordAll code es) := by
  induction es generalizing code with
  | nil => exact h
  | cons e es ih => exact ih (Mem.sorted_write h e.1 e.2)

/-- A symbol that no recorded leaf carries reads as before. -/
theorem read_recordAll_of_not_mem {code : Mem BitPath} {es : List (Nat × BitPath)} {x : Nat}
    (h : x ∉ es.map Prod.fst) : Mem.read (recordAll code es) x = Mem.read code x := by
  induction es generalizing code with
  | nil => rfl
  | cons e es ih =>
    simp only [List.map_cons, List.mem_cons, not_or] at h
    show Mem.read (recordAll (Mem.write code e.1 e.2) es) x = _
    rw [ih h.2, Mem.read_write_ne _ _ h.1]

/-- With pairwise distinct symbols every recorded leaf reads as its path (42_code_table.md R130). -/
theorem read_recordAll_of_mem {code : Mem BitPath} {es : List (Nat × BitPath)} (hd : (es.map Prod.fst).Nodup)
    {x : Nat} {q : BitPath} (h : (x, q) ∈ es) : Mem.read (recordAll code es) x = some q := by
  induction es generalizing code with
  | nil => cases h
  | cons e es ih =>
    simp only [List.map_cons, List.nodup_cons] at hd
    show Mem.read (recordAll (Mem.write code e.1 e.2) es) x = _
    rcases List.mem_cons.mp h with h | h
    · subst h
      rw [read_recordAll_of_not_mem hd.1, Mem.read_write_same]
    · exact ih hd.2 h

/-- Walk answers exactly when there is a tree whose symbols name entries of CODE, and then it has recorded the path of
every leaf, below the path q to the node (R130). -/
theorem walk_ok_iff {p : Params} {m : Mem Node} {d : Nat} {i : Nat} {q : BitPath} {code code' : Mem BitPath} :
    walk p m d i q code = .ok code' ↔
      ∃ t, treeAt d m i = some t ∧ (∀ x ∈ t.syms, x < p.nsym) ∧
        code' = recordAll code (t.paths.map (fun e => (e.1, q ++ e.2))) := by
  induction d generalizing i q code code' with
  | zero => simp [walk, treeAt]
  | succ d ih =>
    constructor
    · intro h
      simp only [walk] at h
      split at h
      · cases h
      · next n hn =>
        rw [readNode_ok_iff] at hn
        split at h
        · next x hx =>
          obtain ⟨hlt, rfl⟩ := writeCode_ok_iff.mp h
          exact ⟨.leaf n.freq x, treeAt_succ_some.mpr (.inl ⟨n, x, hn, hx, rfl⟩), by simpa [SymTree.syms] using hlt,
            by simp [SymTree.paths, recordAll]⟩
        · next hx =>
          split at h
          · next l r hl hr =>
            split at h
            · cases h
            · next code1 hw =>
              obtain ⟨t, ht, hts, rfl⟩ := ih.mp hw
              obtain ⟨u, hu, hus, rfl⟩ := ih.mp h
              refine ⟨.branch n.freq t u,
                treeAt_succ_some.mpr (.inr ⟨n, l, r, t, u, hn, hx, hl, hr, ht, hu, rfl⟩), ?_, ?_⟩
              · intro x hx'
                rcases List.mem_append.mp hx' with hx' | hx'
                · exact hts x hx'
                · exact hus x hx'
              · rw [← recordAll_append]
                simp [SymTree.paths, Function.comp_def]
          · cases h
    · rintro ⟨t, ht, hts, rfl⟩
      rcases treeAt_succ_some.mp ht with ⟨n, x, hn, hx, rfl⟩ | ⟨n, l, r, a, b, hn, hx, hl, hr, ha, hb, rfl⟩
      · have hlt : x < p.nsym := hts x (by simp [SymTree.syms])
        simp [walk, readNode_of_read hn, hx, writeCode_of_lt hlt, SymTree.paths, recordAll]
      · have h1 := (ih (i := l) (q := q ++ [false]) (code := code)).mpr
          ⟨a, ha, fun x hx' => hts x (List.mem_append_left _ hx'), rfl⟩
        have h2 := (ih (i := r) (q := q ++ [true])
          (code := recordAll code (a.paths.map fun e => (e.1, q ++ [false] ++ e.2)))).mpr
          ⟨b, hb, fun x hx' => hts x (List.mem_append_right _ hx'), rfl⟩
        simp only [walk, readNode_of_read hn, hx, hl, hr, h1, h2]
        rw [← recordAll_append]
        simp [SymTree.paths, Function.comp_def]

/-- CTG answers exactly when NODE holds a tree at ROOT whose symbols name entries of CODE, and then CODE is the code
table of that tree (R130, R131). -/
theorem generateCodes_ok_iff {p : Params} {m : Mem Node} {root : Nat} {code : Mem BitPath} :
    generateCodes p m root = .ok code ↔
      ∃ t, treeAt (p.maxPath + 1) m root = some t ∧ (∀ x ∈ t.syms, x < p.nsym) ∧ code = recordAll [] t.codeTable := by
  unfold generateCodes
  constructor
  · intro h
    split at h
    · cases h
    · next n hn =>
      rw [readNode_ok_iff] at hn
      split at h
      · next x hx =>
        obtain ⟨hlt, rfl⟩ := writeCode_ok_iff.mp h
        exact ⟨.leaf n.freq x, treeAt_succ_some.mpr (.inl ⟨n, x, hn, hx, rfl⟩), by simpa [SymTree.syms] using hlt, rfl⟩
      · next hx =>
        obtain ⟨t, ht, hts, rfl⟩ := walk_ok_iff.mp h
        refine ⟨t, ht, hts, ?_⟩
        rcases treeAt_succ_some.mp ht with ⟨n', x, hn', hx', rfl⟩ | ⟨n', l, r, a, b, hn', hx', hl, hr, ha, hb, rfl⟩
        · rw [hn] at hn'; cases hn'; rw [hx] at hx'; cases hx'
        · simp [SymTree.codeTable]
  · rintro ⟨t, ht, hts, rfl⟩
    rcases treeAt_succ_some.mp ht with ⟨n, x, hn, hx, rfl⟩ | ⟨n, l, r, a, b, hn, hx, hl, hr, ha, hb, rfl⟩
    · have hlt : x < p.nsym := hts x (by simp [SymTree.syms])
      simp [readNode_of_read hn, hx, writeCode_of_lt hlt, SymTree.codeTable, recordAll]
    · simp only [readNode_of_read hn, hx]
      rw [walk_ok_iff]
      exact ⟨_, ht, hts, by simp [SymTree.codeTable]⟩

/-- CODE is in canonical form after CTG. -/
theorem generateCodes_sorted {p : Params} {m : Mem Node} {root : Nat} {code : Mem BitPath}
    (h : generateCodes p m root = .ok code) : Mem.Sorted code := by
  obtain ⟨t, -, -, rfl⟩ := generateCodes_ok_iff.mp h
  exact recordAll_sorted Mem.sorted_nil _

/-- What CODE reads after CTG over a tree with pairwise distinct symbols. -/
theorem read_generateCodes {t : SymTree} (hd : t.syms.Nodup) (x : Nat) (q : BitPath) :
    Mem.read (recordAll [] t.codeTable) x = some q ↔ (x, q) ∈ t.codeTable := by
  have hd' : (t.codeTable.map Prod.fst).Nodup := by rw [SymTree.codeTable_syms]; exact hd
  constructor
  · intro h
    by_cases hx : x ∈ t.codeTable.map Prod.fst
    · obtain ⟨e, he, rfl⟩ := List.mem_map.mp hx
      have := read_recordAll_of_mem (code := []) hd' (x := e.1) (q := e.2) he
      rw [h] at this
      cases this
      exact he
    · rw [read_recordAll_of_not_mem hx] at h
      cases h
  · exact read_recordAll_of_mem hd'

/-! ### The decoder's walk -/

/-- The walk of a path over an abstract tree (44_decoder.md R150). -/
def SymTree.walkPath : SymTree → BitPath → DecodeResult
  | .leaf _ x, [] => .symbol x
  | .leaf _ _, _ :: _ => .deadEnd
  | .branch _ _ _, [] => .incompletePath
  | .branch _ l r, b :: q => if b then r.walkPath q else l.walkPath q

/-- The decoder's walk over NODE is the walk over the tree it holds. -/
theorem descend_eq_walkPath {m : Mem Node} (hc : ChildlessLeaves m) {d : Nat} {i : Nat} {t : SymTree}
    (h : treeAt d m i = some t) (q : BitPath) : descend m i q = some (t.walkPath q) := by
  induction q generalizing d i t with
  | nil =>
    cases d with
    | zero => simp [treeAt] at h
    | succ d =>
      rcases treeAt_succ_some.mp h with ⟨n, x, hn, hx, rfl⟩ | ⟨n, l, r, a, b, hn, hx, -, -, -, -, rfl⟩
      · simp [descend, hn, hx, SymTree.walkPath]
      · simp [descend, hn, hx, SymTree.walkPath]
  | cons c q ih =>
    cases d with
    | zero => simp [treeAt] at h
    | succ d =>
      rcases treeAt_succ_some.mp h with ⟨n, x, hn, hx, rfl⟩ | ⟨n, l, r, a, b, hn, hx, hl, hr, ha, hb, rfl⟩
      · obtain ⟨hl, hr⟩ := hc i n x hn hx
        cases c <;> simp [descend, hn, hl, hr, SymTree.walkPath]
      · cases c
        · simp [descend, hn, hl, ih ha, SymTree.walkPath]
        · simp [descend, hn, hr, ih hb, SymTree.walkPath]

/-- A path is a leaf's path exactly when walking it ends on that leaf. -/
theorem SymTree.mem_paths_iff_walkPath (t : SymTree) (x : Nat) (q : BitPath) :
    (x, q) ∈ t.paths ↔ t.walkPath q = .symbol x := by
  induction t generalizing q with
  | leaf f y => cases q <;> simp [paths, walkPath, eq_comm]
  | branch f l r ihl ihr =>
    cases q with
    | nil => simp [paths, walkPath]
    | cons c q => cases c <;> simp [paths, walkPath, ihl, ihr]

/-- No leaf's path goes on where another's ends: the paths of two leaves part at a branch (42_code_table.md R132). -/
theorem SymTree.walkPath_append (t : SymTree) {x : Nat} {q : BitPath} (h : t.walkPath q = .symbol x) (c : Bool)
    (r : BitPath) : t.walkPath (q ++ c :: r) = .deadEnd := by
  induction t generalizing q with
  | leaf f y =>
    cases q with
    | nil => rfl
    | cons d q => simp [walkPath] at h
  | branch f a b iha ihb =>
    cases q with
    | nil => simp [walkPath] at h
    | cons d q =>
      cases d
      · exact iha (by simpa [walkPath] using h)
      · exact ihb (by simpa [walkPath] using h)

end Sys2Proof.Machine
end

