-- ==== Sys2Proof/Laws/Forest.lean ====
section
/-!
SUPPORT. When a node memory is a tree: if every entry is a leaf or a branch over two allocated entries, children stand
on one side of their parents in some rank, and every index but the root is a child exactly once, then the root holds a
tree that reaches every allocated index exactly once (10_state.md R24, R25).  BUILD ranks children below their parents'
indices, the loader above them.
-/

namespace Sys2Proof.Machine

/-- The children of an entry. -/
def kids (n : Node) : List Nat := n.left.toList ++ n.right.toList

theorem childRefs_eq (m : Mem Node) : childRefs m = m.flatMap (fun e => kids e.2) := rfl

/-- Every entry is a leaf or a branch over two allocated entries of lower rank. -/
def Ranked (rank : Nat → Nat) (nn : Nat) (m : Mem Node) : Prop :=
  ∀ e ∈ m, LeafEntry e.2 ∨
    (e.2.sym = none ∧ ∃ l r, e.2.left = some l ∧ e.2.right = some r ∧ l < nn ∧ r < nn ∧
      rank l < rank e.1 ∧ rank r < rank e.1)

theorem Ranked.childlessLeaves {rank : Nat → Nat} {nn : Nat} {m : Mem Node} (h : Ranked rank nn m) :
    ChildlessLeaves m := by
  intro i n x hn hx
  rcases h _ (Mem.mem_of_read hn) with ⟨-, hl, hr⟩ | ⟨hs, -⟩
  · exact ⟨hl, hr⟩
  · rw [hx] at hs; cases hs

/-- In a ranked memory every allocated index holds a tree. -/
theorem Ranked.exists_tree {rank : Nat → Nat} {nn : Nat} {m : Mem Node} (hk : m.map Prod.fst = List.range nn)
    (h : Ranked rank nn m) : ∀ (k i : Nat), rank i ≤ k → i < nn → ∃ t, treeAt (k + 1) m i = some t := by
  intro k
  induction k with
  | zero =>
    intro i hi hin
    obtain ⟨n, hn⟩ := Option.isSome_iff_exists.mp ((Mem.read_isSome_of_keys_range hk i).mpr hin)
    rcases h _ (Mem.mem_of_read hn) with ⟨hs, -, -⟩ | ⟨-, l, r, -, -, -, -, hlt, -⟩
    · obtain ⟨x, hx⟩ := Option.isSome_iff_exists.mp hs
      exact ⟨_, treeAt_succ_some.mpr (.inl ⟨n, x, hn, hx, rfl⟩)⟩
    · simp only at hlt; omega
  | succ k ih =>
    intro i hi hin
    obtain ⟨n, hn⟩ := Option.isSome_iff_exists.mp ((Mem.read_isSome_of_keys_range hk i).mpr hin)
    rcases h _ (Mem.mem_of_read hn) with ⟨hs, -, -⟩ | ⟨hs, l, r, hl, hr, hln, hrn, hlt, hrt⟩
    · obtain ⟨x, hx⟩ := Option.isSome_iff_exists.mp hs
      exact ⟨_, treeAt_succ_some.mpr (.inl ⟨n, x, hn, hx, rfl⟩)⟩
    · simp only at hlt hrt hs hl hr
      obtain ⟨a, ha⟩ := ih l (by omega) hln
      obtain ⟨b, hb⟩ := ih r (by omega) hrn
      exact ⟨_, treeAt_succ_some.mpr (.inr ⟨n, l, r, a, b, hn, hs, hl, hr, ha, hb, rfl⟩)⟩

/-- A tree is found at any bound that is at least its height. -/
theorem treeAt_of_height {m : Mem Node} {t : SymTree} {d e i : Nat} (h : treeAt d m i = some t)
    (he : t.height ≤ e) : treeAt e m i = some t := by
  induction d generalizing e i t with
  | zero => simp [treeAt] at h
  | succ d ih =>
    rcases treeAt_succ_some.mp h with ⟨n, x, hn, hx, rfl⟩ | ⟨n, l, r, a, b, hn, hx, hl, hr, ha, hb, rfl⟩
    · obtain ⟨e, rfl⟩ : ∃ k, e = k + 1 := ⟨e - 1, by simp [SymTree.height] at he; omega⟩
      exact treeAt_succ_some.mpr (.inl ⟨n, x, hn, hx, rfl⟩)
    · simp only [SymTree.height] at he
      obtain ⟨e, rfl⟩ : ∃ k, e = k + 1 := ⟨e - 1, by omega⟩
      exact treeAt_succ_some.mpr
        (.inr ⟨n, l, r, a, b, hn, hx, hl, hr, ih ha (by omega), ih hb (by omega), rfl⟩)

/-- The reached indices do not depend on the bound once a tree is found. -/
theorem reach_eq_of_tree {m : Mem Node} (hc : ChildlessLeaves m) {t : SymTree} {d e i : Nat}
    (h : treeAt d m i = some t) (h' : treeAt e m i = some t) : reach d m i = reach e m i := by
  induction d generalizing e i t with
  | zero => simp [treeAt] at h
  | succ d ih =>
    cases e with
    | zero => simp [treeAt] at h'
    | succ e =>
      rcases treeAt_succ_some.mp h with ⟨n, x, hn, hx, rfl⟩ | ⟨n, l, r, a, b, hn, hx, hl, hr, ha, hb, rfl⟩
      · obtain ⟨hl, hr⟩ := hc i n x hn hx
        simp [reach, hn, hl, hr]
      · rcases treeAt_succ_some.mp h' with ⟨n', x, hn', hx', ht⟩ | ⟨n', l', r', a', b', hn', hx', hl', hr', ha', hb', ht⟩
        · cases ht
        · rw [hn] at hn'; cases hn'
          rw [hl] at hl'; cases hl'
          rw [hr] at hr'; cases hr'
          cases ht
          simp [reach, hn, hl, hr, ih ha ha', ih hb hb']

/-- Only allocated indices are reached. -/
theorem reach_lt {m : Mem Node} {nn : Nat} (hk : m.map Prod.fst = List.range nn) {d i : Nat} :
    ∀ j ∈ reach d m i, j < nn := by
  induction d generalizing i with
  | zero => simp [reach]
  | succ d ih =>
    intro j hj
    simp only [reach] at hj
    split at hj
    · cases hj
    · next n hn =>
      rcases List.mem_cons.mp hj with rfl | hj
      · exact (Mem.read_isSome_of_keys_range hk _).mp (by simp [hn])
      · rcases List.mem_append.mp hj with hj | hj
        · split at hj
          · exact ih j hj
          · cases hj
        · split at hj
          · exact ih j hj
          · cases hj

/-- The sum over one entry of a memory in canonical form. -/
theorem sum_indicator {m : Mem Node} (hs : Mem.Sorted m) {i : Nat} {n : Node} (hn : Mem.read m i = some n)
    (f : Node → Nat) : (m.map (fun e => (if e.1 = i then 1 else 0) * f e.2)).sum = f n := by
  induction m with
  | nil => simp at hn
  | cons e m ih =>
    obtain ⟨k, v⟩ := e
    simp only [Mem.Sorted, List.map_cons, List.pairwise_cons] at hs
    rw [Mem.read_cons] at hn
    simp only [List.map_cons, List.sum_cons]
    split at hn
    · next h =>
      subst h
      cases hn
      have hz : (m.map (fun e => (if e.1 = i then 1 else 0) * f e.2)).sum = 0 := by
        apply List.sum_eq_zero
        intro y hy
        obtain ⟨e, he, rfl⟩ := List.mem_map.mp hy
        have := hs.1 e.1 (List.mem_map_of_mem he)
        simp [show e.1 ≠ i by omega]
      simp only [if_true, Nat.one_mul]
      omega
    · next h =>
      rw [ih hs.2 hn]
      simp [show k ≠ i from fun he => h he.symm]

/-- How often an index is reached: once at the start, and once for each time a parent of it is reached. -/
theorem reach_count {m : Mem Node} (hs : Mem.Sorted m) (hc : ChildlessLeaves m) {d i : Nat} {t : SymTree}
    (h : treeAt d m i = some t) (j : Nat) :
    (reach d m i).count j =
      (if j = i then 1 else 0) + (m.map (fun e => (reach d m i).count e.1 * (kids e.2).count j)).sum := by
  induction d generalizing i t with
  | zero => simp [treeAt] at h
  | succ d ih =>
    rcases treeAt_succ_some.mp h with ⟨n, x, hn, hx, rfl⟩ | ⟨n, l, r, a, b, hn, hx, hl, hr, ha, hb, rfl⟩
    · obtain ⟨hl, hr⟩ := hc i n x hn hx
      have hreach : reach (d + 1) m i = [i] := by simp [reach, hn, hl, hr]
      have hsum := sum_indicator hs hn (fun n => (kids n).count j)
      simp only [hreach, List.count_singleton, beq_iff_eq, eq_comm (a := i)]
      rw [hsum]
      simp [kids, hl, hr]
    · have hreach : reach (d + 1) m i = i :: (reach d m l ++ reach d m r) := by simp [reach, hn, hl, hr]
      have hsum := sum_indicator hs hn (fun n => (kids n).count j)
      have hkids : (kids n).count j = (if j = l then 1 else 0) + (if j = r then 1 else 0) := by
        have : kids n = [l, r] := by simp [kids, hl, hr]
        rw [this]
        simp only [List.count_cons, List.count_nil, beq_iff_eq, @eq_comm _ l j, @eq_comm _ r j]
        omega
      have hsplit : (m.map (fun e => (reach (d + 1) m i).count e.1 * (kids e.2).count j)).sum =
          (m.map (fun e => (if e.1 = i then 1 else 0) * (kids e.2).count j)).sum +
          ((m.map (fun e => (reach d m l).count e.1 * (kids e.2).count j)).sum +
            (m.map (fun e => (reach d m r).count e.1 * (kids e.2).count j)).sum) := by
        rw [← List.sum_map_add, ← List.sum_map_add]
        congr 1
        apply List.map_congr_left
        intro e _
        rw [hreach, List.count_cons, List.count_append]
        simp only [beq_iff_eq, eq_comm (a := i)]
        ring
      rw [hsplit, hsum, hkids, hreach, List.count_cons, List.count_append, ih ha, ih hb]
      simp only [beq_iff_eq, eq_comm (a := i)]
      omega

theorem count_childRefs (m : Mem Node) (j : Nat) :
    (childRefs m).count j = (m.map (fun e => (kids e.2).count j)).sum := by
  rw [childRefs_eq, List.count_flatMap]
  rfl

/-- The sum over the parents of an index that is a child once. -/
theorem sum_of_single_parent {m : Mem Node} {j : Nat} (g : Nat → Nat)
    (h : (m.map (fun e => (kids e.2).count j)).sum = 1) :
    ∃ e ∈ m, j ∈ kids e.2 ∧ (m.map (fun e => g e.1 * (kids e.2).count j)).sum = g e.1 := by
  induction m with
  | nil => simp at h
  | cons e m ih =>
    simp only [List.map_cons, List.sum_cons] at h
    by_cases h0 : (kids e.2).count j = 0
    · rw [h0, Nat.zero_add] at h
      obtain ⟨e', he', hj, hsum⟩ := ih h
      exact ⟨e', List.mem_cons_of_mem _ he', hj, by simp [h0, hsum]⟩
    · have h1 : (kids e.2).count j = 1 := by omega
      have hz : (m.map (fun e => (kids e.2).count j)).sum = 0 := by omega
      refine ⟨e, List.mem_cons_self, List.count_pos_iff.mp (by omega), ?_⟩
      have hz' : (m.map (fun e => g e.1 * (kids e.2).count j)).sum = 0 := by
        apply List.sum_eq_zero
        intro y hy
        obtain ⟨e', he', rfl⟩ := List.mem_map.mp hy
        have := List.sum_eq_zero_iff.mp hz _ (List.mem_map_of_mem he')
        simp [this]
      simp only [List.map_cons, List.sum_cons, h1, hz']
      omega

/-- In a ranked memory in which every index but the root is a child once and the root never, every index is reached from
the root exactly once (R25). -/
theorem Ranked.reach_perm {rank : Nat → Nat} {nn root d : Nat} {m : Mem Node} {t : SymTree}
    (hk : m.map Prod.fst = List.range nn) (h : Ranked rank nn m) (hroot : root < nn)
    (hcount : ∀ i < nn, (childRefs m).count i = if i = root then 0 else 1) (ht : treeAt d m root = some t) :
    (reach d m root).Perm (List.range nn) := by
  have hs := Mem.sorted_of_keys_range hk
  have hc := h.childlessLeaves
  obtain ⟨B, hB⟩ : ∃ B, ∀ i < nn, rank i ≤ B := by
    refine ⟨((List.range nn).map rank).sum, fun i hi => ?_⟩
    exact List.single_le_sum (by simp) _ (List.mem_map_of_mem (List.mem_range.mpr hi))
  have hone : ∀ k i, i < nn → B - rank i ≤ k → (reach d m root).count i = 1 := by
    intro k
    induction k with
    | zero =>
      intro i hi hk0
      have hci := hcount i hi
      by_cases hir : i = root
      · subst hir
        rw [reach_count hs hc ht]
        rw [if_pos rfl, count_childRefs] at hci
        have : (m.map (fun e => (reach d m i).count e.1 * (kids e.2).count i)).sum = 0 := by
          apply List.sum_eq_zero
          intro y hy
          obtain ⟨e, he, rfl⟩ := List.mem_map.mp hy
          have := List.sum_eq_zero_iff.mp hci _ (List.mem_map_of_mem he)
          simp [this]
        simp [this]
      · rw [if_neg hir, count_childRefs] at hci
        obtain ⟨e, he, hj, -⟩ := sum_of_single_parent (fun _ => 0) hci
        have hen : e.1 < nn := List.mem_range.mp (hk ▸ List.mem_map_of_mem he)
        rcases h e he with ⟨-, hl, hr⟩ | ⟨-, l, r, hl, hr, -, -, h1, h2⟩
        · simp [kids, hl, hr] at hj
        · have hBe := hB e.1 hen
          simp only [kids, hl, hr, Option.toList_some, List.mem_append, List.mem_singleton] at hj
          rcases hj with rfl | rfl <;> omega
    | succ k ih =>
      intro i hi hk0
      have hci := hcount i hi
      by_cases hir : i = root
      · subst hir
        rw [reach_count hs hc ht]
        rw [if_pos rfl, count_childRefs] at hci
        have : (m.map (fun e => (reach d m i).count e.1 * (kids e.2).count i)).sum = 0 := by
          apply List.sum_eq_zero
          intro y hy
          obtain ⟨e, he, rfl⟩ := List.mem_map.mp hy
          have := List.sum_eq_zero_iff.mp hci _ (List.mem_map_of_mem he)
          simp [this]
        simp [this]
      · rw [if_neg hir, count_childRefs] at hci
        obtain ⟨e, he, hj, hsum⟩ := sum_of_single_parent (fun p => (reach d m root).count p) hci
        have hen : e.1 < nn := List.mem_range.mp (hk ▸ List.mem_map_of_mem he)
        rw [reach_count hs hc ht, hsum, if_neg hir, Nat.zero_add]
        apply ih e.1 hen
        rcases h e he with ⟨-, hl, hr⟩ | ⟨-, l, r, hl, hr, -, -, h1, h2⟩
        · simp [kids, hl, hr] at hj
        · simp only [kids, hl, hr, Option.toList_some, List.mem_append, List.mem_singleton] at hj
          rcases hj with rfl | rfl <;> omega
  rw [List.perm_iff_count]
  intro j
  by_cases hj : j < nn
  · rw [hone _ j hj (Nat.le_refl _)]
    exact (List.count_eq_one_of_mem List.nodup_range (List.mem_range.mpr hj)).symm
  · rw [List.count_eq_zero.mpr fun hm => hj (reach_lt hk j hm),
      List.count_eq_zero.mpr fun hm => hj (List.mem_range.mp hm)]

/-- The leaves of a tree are the leaf entries reached from its root, in order. -/
theorem tree_syms_eq {m : Mem Node} (hc : ChildlessLeaves m) {d i : Nat} {t : SymTree} (h : treeAt d m i = some t) :
    t.syms = (reach d m i).filterMap (fun j => (Mem.read m j).bind Node.sym) := by
  induction d generalizing i t with
  | zero => simp [treeAt] at h
  | succ d ih =>
    rcases treeAt_succ_some.mp h with ⟨n, x, hn, hx, rfl⟩ | ⟨n, l, r, a, b, hn, hx, hl, hr, ha, hb, rfl⟩
    · obtain ⟨hl, hr⟩ := hc i n x hn hx
      simp [reach, hn, hl, hr, hx, SymTree.syms]
    · simp [reach, hn, hl, hr, hx, SymTree.syms, ih ha, ih hb]

/-- The leaf symbols of a memory, by index. -/
theorem leafSyms_eq {m : Mem Node} (hs : Mem.Sorted m) :
    leafSyms m = (m.map Prod.fst).filterMap (fun j => (Mem.read m j).bind Node.sym) := by
  rw [List.filterMap_map, leafSyms]
  apply List.filterMap_congr
  intro e he
  simp [Mem.read_of_mem hs (show (e.1, e.2) ∈ m from he)]

/-- Pairwise distinct symbols of an alphabet are at most NSYM. -/
theorem length_le_of_nodup {xs : List Nat} {n : Nat} (hd : xs.Nodup) (h : ∀ x ∈ xs, x < n) : xs.length ≤ n := by
  have := (List.subperm_of_subset hd (l₂ := List.range n) (fun x hx => List.mem_range.mpr (h x hx))).length_le
  simpa using this

/-- A ranked memory with a single owner for every index and pairwise distinct symbols is a tree within MAX_PATH that
reaches every index once and whose leaves are its leaf entries (R12, R24, R25). -/
theorem Ranked.isTree {p : Params} (hp : p.Ok) {rank : Nat → Nat} {nn root : Nat} {m : Mem Node}
    (hk : m.map Prod.fst = List.range nn) (h : Ranked rank nn m) (hroot : root < nn)
    (hcount : ∀ i < nn, (childRefs m).count i = if i = root then 0 else 1) (hd : (leafSyms m).Nodup)
    (hlt : ∀ x ∈ leafSyms m, x < p.nsym) :
    ∃ t, treeAt (p.maxPath + 1) m root = some t ∧ (reach (p.maxPath + 1) m root).Perm (List.range nn) ∧
      t.syms.Perm (leafSyms m) ∧ t.size = nn := by
  have hc := h.childlessLeaves
  obtain ⟨t, ht⟩ := h.exists_tree hk (rank root) root (Nat.le_refl _) hroot
  have hperm := h.reach_perm hk hroot hcount ht
  have hsyms : t.syms.Perm (leafSyms m) := by
    rw [tree_syms_eq hc ht, leafSyms_eq (Mem.sorted_of_keys_range hk), hk]
    exact hperm.filterMap _
  have hheight : t.height ≤ p.maxPath + 1 := by
    rw [Params.maxPath_eq hp]
    refine Nat.le_trans t.height_le ?_
    rw [hsyms.length_eq]
    exact length_le_of_nodup hd hlt
  have ht' := treeAt_of_height ht hheight
  have hsize : t.size = nn := by
    rw [← reach_length hc ht, hperm.length_eq, List.length_range]
  exact ⟨t, ht', by rw [← reach_eq_of_tree hc ht ht']; exact hperm, hsyms, hsize⟩

end Sys2Proof.Machine
end

