-- ==== Sys2Proof/Laws/BuildTree.lean ====
section
/-!
SUPPORT. What Seed and Merge leave in NODE (41_tree_builder.md R111 to R115, R120), said once: the forest over the
priority collection, kept by every round of Merge, and the tree it comes down to.
-/

namespace Sys2Proof.Machine

/-- The forest over the priority collection Q in the middle of Merge: entries 0 to next - 1 hold a value; the members of
Q are the roots, every other index is a child once; branches stand above their children and carry their sum; the counts
in Q add up to the total; the leaves are the seeded symbols, in order. -/
structure Forest (xs : List Nat) (total : Nat) (m : Mem Node) (q : List Key) (next : Nat) : Prop where
  keys : m.map Prod.fst = List.range next
  roots_nodup : (q.map Prod.snd).Nodup
  roots : ∀ k ∈ q, k.2 < next ∧ ∃ n, Mem.read m k.2 = some n ∧ n.freq = k.1
  single : ∀ i < next, (childRefs m).count i = if i ∈ q.map Prod.snd then 0 else 1
  shapes : ∀ e ∈ m, LeafEntry e.2 ∨
    (e.2.sym = none ∧ ∃ l r a b, e.2.left = some l ∧ e.2.right = some r ∧ l < e.1 ∧ r < e.1 ∧
      Mem.read m l = some a ∧ Mem.read m r = some b ∧ e.2.freq = a.freq + b.freq)
  sum : (q.map Prod.fst).sum = total
  bounded : ∀ e ∈ m, e.2.freq ≤ total
  leaves : leafSyms m = xs

/-- Every round of Merge keeps the forest (R112). -/
theorem Forest.step {xs : List Nat} {total : Nat} {m : Mem Node} {q q1 q2 : List Key} {next : Nat} {a b : Key}
    (h : Forest xs total m q next) (ha : extractMin q = some (a, q1)) (hb : extractMin q1 = some (b, q2)) :
    Forest xs total (Mem.write m next (branchNode (a.1 + b.1) a.2 b.2)) (q2 ++ [(a.1 + b.1, next)]) (next + 1) := by
  obtain ⟨-, -, hp1, -, -⟩ := extractMin_some ha
  obtain ⟨-, -, hp2, -, -⟩ := extractMin_some hb
  have hp : q.Perm (a :: b :: q2) := hp1.trans (hp2.cons a)
  have habove : ∀ k ∈ m.map Prod.fst, k < next := by
    intro k hk; rw [h.keys] at hk; exact List.mem_range.mp hk
  have hw := Mem.write_above habove (branchNode (a.1 + b.1) a.2 b.2)
  have hread : ∀ {i n}, Mem.read m i = some n →
      Mem.read (Mem.write m next (branchNode (a.1 + b.1) a.2 b.2)) i = some n := by
    intro i n hn
    have hi : i < next := habove i (List.mem_map_of_mem (f := Prod.fst) (Mem.mem_of_read hn))
    rw [Mem.read_write_ne _ _ (by omega)]
    exact hn
  have hnd : (a.2 :: b.2 :: q2.map Prod.snd).Nodup := by
    have := (hp.map Prod.snd).nodup_iff.mp h.roots_nodup
    simpa using this
  obtain ⟨ha2, na, hna, hfa⟩ := h.roots a (hp.mem_iff.mpr (by simp))
  obtain ⟨hb2, nb, hnb, hfb⟩ := h.roots b (hp.mem_iff.mpr (by simp))
  have hsum : a.1 + (b.1 + (q2.map Prod.fst).sum) = total := by
    rw [← h.sum, (hp.map Prod.fst).sum_eq]; simp
  have hq2 : ∀ k ∈ q2, k.2 < next := fun k hk => (h.roots k (hp.mem_iff.mpr (by simp [hk]))).1
  refine ⟨Mem.keys_write_next h.keys _, ?_, ?_, ?_, ?_, ?_, ?_, ?_⟩
  · simp only [List.map_append, List.map_cons, List.map_nil]
    refine List.nodup_append.mpr ⟨(List.nodup_cons.mp (List.nodup_cons.mp hnd).2).2, List.nodup_singleton _, ?_⟩
    intro x hx y hy
    obtain ⟨k, hk, rfl⟩ := List.mem_map.mp hx
    have := hq2 k hk
    rw [List.mem_singleton] at hy
    omega
  · intro k hk
    rcases List.mem_append.mp hk with hk | hk
    · obtain ⟨hlt, n, hn, hf⟩ := h.roots k (hp.mem_iff.mpr (by simp [hk]))
      exact ⟨by omega, n, hread hn, hf⟩
    · rw [List.mem_singleton] at hk
      subst hk
      exact ⟨by omega, _, Mem.read_write_same _ _ _, rfl⟩
  · intro i hi
    have hcount : (childRefs (Mem.write m next (branchNode (a.1 + b.1) a.2 b.2))).count i =
        (childRefs m).count i + ((if b.2 = i then 1 else 0) + (if a.2 = i then 1 else 0)) := by
      rw [hw, childRefs, List.flatMap_append, List.count_append]
      simp [childRefs, branchNode, List.count_cons]
      omega
    rw [hcount]
    simp only [List.map_append, List.map_cons, List.map_nil, List.mem_append, List.mem_singleton]
    by_cases hin : i = next
    · subst hin
      have hz : (childRefs m).count i = 0 := by
        rw [List.count_eq_zero]
        intro hc
        obtain ⟨e, he, hk⟩ := List.mem_flatMap.mp hc
        have hei := habove e.1 (List.mem_map_of_mem he)
        rcases h.shapes e he with ⟨-, hl, hr⟩ | ⟨-, l, r, na, nb, hl, hr, h1, h2, -⟩
        · simp [hl, hr] at hk
        · simp only [hl, hr, Option.toList_some, List.mem_append, List.mem_singleton] at hk
          omega
      rw [hz, if_neg (by omega), if_neg (by omega), if_pos (.inr rfl)]
    · have hs := h.single i (by omega)
      have hmem : i ∈ q.map Prod.snd ↔ i = a.2 ∨ i = b.2 ∨ i ∈ q2.map Prod.snd := by
        rw [(hp.map Prod.snd).mem_iff]; simp
      have hab : a.2 ≠ b.2 := fun e => (List.nodup_cons.mp hnd).1 (by simp [e])
      have haq : a.2 ∉ q2.map Prod.snd := fun e => (List.nodup_cons.mp hnd).1 (List.mem_cons_of_mem _ e)
      have hbq : b.2 ∉ q2.map Prod.snd := (List.nodup_cons.mp (List.nodup_cons.mp hnd).2).1
      rw [hs]
      by_cases hia : a.2 = i
      · subst hia
        rw [if_pos (hmem.mpr (.inl rfl)), if_neg (Ne.symm hab), if_pos rfl, if_neg (not_or.mpr ⟨haq, hin⟩)]
      · by_cases hib : b.2 = i
        · subst hib
          rw [if_pos (hmem.mpr (.inr (.inl rfl))), if_pos rfl, if_neg hia, if_neg (not_or.mpr ⟨hbq, hin⟩)]
        · rw [if_neg hib, if_neg hia]
          by_cases hiq : i ∈ q2.map Prod.snd
          · rw [if_pos (hmem.mpr (.inr (.inr hiq))), if_pos (.inl hiq)]
          · rw [if_neg (not_or.mpr ⟨hiq, hin⟩), if_neg]
            rw [hmem]
            exact not_or.mpr ⟨Ne.symm hia, not_or.mpr ⟨Ne.symm hib, hiq⟩⟩
  · intro e he
    rw [hw] at he
    rcases List.mem_append.mp he with he | he
    · rcases h.shapes e he with hl | ⟨hs, l, r, x, y, hl, hr, h1, h2, hx, hy, hf⟩
      · exact .inl hl
      · exact .inr ⟨hs, l, r, x, y, hl, hr, h1, h2, hread hx, hread hy, hf⟩
    · rw [List.mem_singleton] at he
      subst he
      exact .inr ⟨rfl, b.2, a.2, nb, na, rfl, rfl, hb2, ha2, hread hnb, hread hna, by
        simp only [branchNode]; omega⟩
  · simp only [List.map_append, List.map_cons, List.map_nil, List.sum_append, List.sum_cons, List.sum_nil]
    omega
  · intro e he
    rw [hw] at he
    rcases List.mem_append.mp he with he | he
    · exact h.bounded e he
    · rw [List.mem_singleton] at he
      subst he
      simp only [branchNode]
      omega
  · rw [hw, leafSyms, List.filterMap_append]
    have := h.leaves
    simp only [leafSyms] at this
    simp [this, branchNode]

/-- Seed leaves a forest of leaves (R111). -/
theorem Forest.seed (freq : Mem Nat) (xs : List Nat) :
    Forest xs ((xs.map (readFreq freq)).sum) (seedLeaves freq 0 xs) (seedKeys freq 0 xs) xs.length := by
  have hkeys : (seedLeaves freq 0 xs).map Prod.fst = List.range xs.length := by
    have := seed_keys (freq := freq) (k := 0) (xs := xs) (m := []) rfl
    simpa using this
  have hsnd : (seedKeys freq 0 xs).map Prod.snd = List.range xs.length := by
    rw [← hkeys]
    simp [seedKeys, seedLeaves]
  have hrefs : childRefs (seedLeaves freq 0 xs) = [] := by
    simp [childRefs, seedLeaves, leafNode, List.flatMap_map]
  refine ⟨hkeys, ?_, ?_, ?_, ?_, ?_, ?_, ?_⟩
  · rw [hsnd]; exact List.nodup_range
  · intro k hk
    obtain ⟨e, he, rfl⟩ := List.mem_map.mp hk
    have hin : (e.2, leafNode (readFreq freq e.1) e.1) ∈ seedLeaves freq 0 xs := List.mem_map.mpr ⟨e, he, rfl⟩
    refine ⟨?_, _, Mem.read_of_mem (Mem.sorted_of_keys_range hkeys) hin, rfl⟩
    have := List.mem_map_of_mem (f := Prod.fst) hin
    rw [hkeys] at this
    exact List.mem_range.mp this
  · intro i hi
    rw [hrefs, hsnd, if_pos (List.mem_range.mpr hi)]
    rfl
  · intro e he
    obtain ⟨d, -, rfl⟩ := List.mem_map.mp he
    exact .inl ⟨rfl, rfl, rfl⟩
  · rw [seedKeys_freqs]
  · intro e he
    obtain ⟨d, hd, rfl⟩ := List.mem_map.mp he
    have hx : d.1 ∈ xs := List.fst_mem_of_mem_zipIdx hd
    exact List.single_le_sum (by simp) _ (List.mem_map_of_mem hx)
  · simp [leafSyms, seedLeaves, List.filterMap_map, leafNode]

/-- What Seed and Merge leave when they answer (R113, R120): a forest with the one root 2n - 2, over the keys of the
table. -/
theorem buildTree_ok {p : Params} {freq : Mem Nat} {m : Mem Node} {r : Nat} (h : buildTree p freq = .ok (m, r)) :
    r + 2 = 2 * (tableSymbols p freq).length ∧
      Forest (tableSymbols p freq) (((List.range p.nsym).map (readFreq freq)).sum) m
        [(((List.range p.nsym).map (readFreq freq)).sum, r)] (r + 1) := by
  have hlen := tableSymbols_length_le p freq
  have hcap := Params.nodeCap_eq p
  have h2 : 0 < p.nsym := Nat.two_pow_pos _
  have hseed := seed_eq (p := p) (freq := freq) (k := 0) (xs := tableSymbols p freq) (m := []) (by simp) (by omega)
  unfold buildTree at h
  rw [hseed] at h
  simp only [List.nil_append] at h
  have hforest := Forest.seed freq (tableSymbols p freq)
  rw [tableSymbols_sum] at hforest
  -- the root of every later state is the branch made last, or the one seed
  obtain ⟨f, last, ⟨hF, hl⟩, hlast⟩ := merge_induction
    (P := fun m q next => Forest (tableSymbols p freq) (((List.range p.nsym).map (readFreq freq)).sum) m q next ∧
      (q.length = 1 → ∃ k ∈ q, k.2 + 1 = next))
    (fun m q next a q1 b q2 hP ha hb _ _ => ⟨hP.1.step ha hb, fun hq => ⟨(a.1 + b.1, next), by simp, rfl⟩⟩)
    ⟨by rw [seedKeys_length]; exact hforest, fun hq => by
      rw [seedKeys_length] at hq
      rw [seedKeys_length, hq]
      obtain ⟨x, hx⟩ := List.length_eq_one_iff.mp hq
      exact ⟨(readFreq freq x, 0), by simp [hx, seedKeys], rfl⟩⟩ h
  rw [seedKeys_length] at hlast
  obtain ⟨k, hk, hkl⟩ := hl rfl
  rw [List.mem_singleton] at hk
  subst hk
  have hkl : r + 1 = last := hkl
  subst hkl
  have hf : f = ((List.range p.nsym).map (readFreq freq)).sum := by
    have := hF.sum
    simpa using this
  subst hf
  exact ⟨by omega, hF⟩

/-- The tree a forest with one root holds: within MAX_PATH, reaching every index once (R24, R25). -/
theorem Forest.isTree {p : Params} (hp : p.Ok) {xs : List Nat} {total : Nat} {m : Mem Node} {k : Key}
    (h : Forest xs total m [k] (k.2 + 1)) (hd : xs.Nodup) (hlt : ∀ x ∈ xs, x < p.nsym) :
    ∃ t, treeAt (p.maxPath + 1) m k.2 = some t ∧
      (reach (p.maxPath + 1) m k.2).Perm (List.range (k.2 + 1)) ∧ t.syms.Perm xs ∧ t.size = k.2 + 1 := by
  have hranked : Ranked id (k.2 + 1) m := by
    intro e he
    have hek : e.1 < k.2 + 1 := List.mem_range.mp (h.keys ▸ List.mem_map_of_mem he)
    rcases h.shapes e he with hl | ⟨hs, l, r, a, b, hl, hr, h1, h2, -⟩
    · exact .inl hl
    · exact .inr ⟨hs, l, r, hl, hr, by omega, by omega, h1, h2⟩
  have := hranked.isTree hp h.keys (by omega) (root := k.2)
    (fun i hi => by rw [h.single i hi]; simp) (by rw [h.leaves]; exact hd) (by rw [h.leaves]; exact hlt)
  rw [h.leaves] at this
  exact this

end Sys2Proof.Machine
end

