-- ==== Sys2Proof/Laws/Loader.lean ====
section
/-!
SUPPORT. What taking a record can do (45_persistence.md R173), said once.
-/

namespace Sys2Proof.Machine

/-- Attaching a node to an empty stack changes nothing: the node is the root. -/
theorem attach_nil (p : Params) (m : Mem Node) (i : Nat) : attach p m [] i = .ok (m, []) := rfl

/-- Attaching fills one child of the branch on top of the stack and moves the stack on. -/
theorem attach_cons_ok_iff {p : Params} {m m' : Mem Node} {b : Nat} {k : Bool} {rest stk : List (Nat × Bool)} {i : Nat} :
    attach p m ((b, k) :: rest) i = .ok (m', stk) ↔
      ∃ n, Mem.read m b = some n ∧ b < p.nodeCap ∧ m' = Mem.write m b (n.setChild k i) ∧
        stk = if k then rest else (b, true) :: rest := by
  constructor
  · intro h
    simp only [attach] at h
    split at h
    · cases h
    · next n hn =>
      split at h
      · cases h
      · next m1 hw =>
        obtain ⟨hlt, rfl⟩ := writeNode_ok_iff.mp hw
        cases h
        exact ⟨n, readNode_ok_iff.mp hn, hlt, rfl, rfl⟩
  · rintro ⟨n, hn, hlt, rfl, rfl⟩
    simp [attach, readNode_of_read hn, writeNode_of_lt hlt]

/-- An accepted record: the entry at NN, the attachment, and the registers it moves; everything else is as before. -/
theorem takeRecord_ok_iff {x : Option Nat} {s t : State} :
    takeRecord x s = .ok t ↔
      ∃ m stk, s.nn < s.params.nodeCap ∧
        attach s.params (Mem.write s.node s.nn { freq := 0, sym := x, left := none, right := none }) s.lstk s.nn =
          .ok (m, stk) ∧
        t = { s with
          nn := s.nn + 1
          node := m
          lseen := seenAfter x s.lseen
          lstk := stackAfter x s.nn stk
          ldone := s.ldone || (stackAfter x s.nn stk).isEmpty } := by
  constructor
  · intro h
    simp only [takeRecord] at h
    split at h
    · cases h
    · next m hw =>
      obtain ⟨hlt, rfl⟩ := writeNode_ok_iff.mp hw
      split at h
      · cases h
      · next m' stk ha =>
        cases h
        exact ⟨m', stk, hlt, ha, rfl⟩
  · rintro ⟨m, stk, hlt, ha, rfl⟩
    simp [takeRecord, writeNode_of_lt hlt, ha]

/-- A record makes a session BAD exactly in the three cases of R173. -/
theorem recordMalformed_iff {x : Option Nat} {s : State} :
    recordMalformed x s = true ↔
      s.ldone = true ∨ (∃ y, x = some y ∧ (Mem.read s.lseen y).isSome = true) ∨ s.nn = s.params.nodeCap := by
  unfold recordMalformed
  cases x <;> simp [or_assoc]

theorem read_seenAfter (x : Option Nat) (seen : Mem Unit) (y : Nat) :
    (Mem.read (seenAfter x seen) y).isSome = true ↔ (Mem.read seen y).isSome = true ∨ x = some y := by
  cases x with
  | none => simp [seenAfter]
  | some z =>
    by_cases h : y = z
    · subst h; simp [seenAfter]
    · have h' : ¬ z = y := fun e => h e.symm
      simp [seenAfter, Mem.read_write_ne _ _ h, h']

theorem seenAfter_sorted {seen : Mem Unit} (h : Mem.Sorted seen) (x : Option Nat) :
    Mem.Sorted (seenAfter x seen) := by
  cases x with
  | none => exact h
  | some y => exact Mem.sorted_write h y ()

theorem attach_sorted {p : Params} {m m' : Mem Node} {stk stk' : List (Nat × Bool)} {i : Nat} (hs : Mem.Sorted m)
    (h : attach p m stk i = .ok (m', stk')) : Mem.Sorted m' := by
  cases stk with
  | nil => cases h; exact hs
  | cons e rest =>
    obtain ⟨n, -, -, rfl, -⟩ := attach_cons_ok_iff.mp h
    exact Mem.sorted_write hs _ _

/-- The memories stay in canonical form when a record is taken. -/
theorem takeRecord_memory_wf {x : Option Nat} {s t : State} (hw : Memory.wf s) (h : takeRecord x s = .ok t) :
    Memory.wf t := by
  obtain ⟨m, stk, -, ha, rfl⟩ := takeRecord_ok_iff.mp h
  obtain ⟨h1, h2, h3, h4, h5⟩ := hw
  exact ⟨attach_sorted (Mem.sorted_write h1 _ _) ha, h2, h3, seenAfter_sorted h4 x, h5⟩

end Sys2Proof.Machine
end

