-- ==== Sys2Proof/Laws/Commands.lean ====
section
/-!
SUPPORT. What each command can do, said once: its answers and next states, and exactly when it gives them.  A statement
about a command cites these and does not unfold the command.
-/

namespace Sys2Proof.Machine

/-- FCLR always answers (40_frequency.md R101). -/
theorem execFclr_next_iff {s t : State} :
    execFclr s = .next t ↔ t = done { s with freq := [], ftotal := 0 } := by
  simp [execFclr]; exact eq_comm

theorem countSymbol_ok_iff {x : Nat} {s t : State} :
    countSymbol x s = .ok t ↔
      readFreq s.freq x + 1 ≤ s.params.freqMax ∧ s.ftotal + 1 ≤ s.params.freqMax ∧
        t = { s with freq := writeFreq s.freq x (readFreq s.freq x + 1), ftotal := s.ftotal + 1 } := by
  unfold countSymbol
  by_cases h1 : readFreq s.freq x + 1 ≤ s.params.freqMax
  · by_cases h2 : s.ftotal + 1 ≤ s.params.freqMax
    · simp [addFreq, h1, h2]; exact eq_comm
    · simp [addFreq, h1, h2]
  · simp [addFreq, h1]

/-- FSYM (40_frequency.md R102): the capacity guard, or one more occurrence. -/
theorem execFsym_next_iff {x : Nat} {s t : State} :
    execFsym x s = .next t ↔
      x < s.params.nsym ∧
        ((s.ftotal = s.params.freqMax ∧ t = raise .capacityExceeded s) ∨
          (s.ftotal ≠ s.params.freqMax ∧ readFreq s.freq x + 1 ≤ s.params.freqMax ∧
            s.ftotal + 1 ≤ s.params.freqMax ∧
            t = done { s with
              freq := writeFreq s.freq x (readFreq s.freq x + 1), ftotal := s.ftotal + 1 })) := by
  unfold execFsym
  by_cases hx : x < s.params.nsym
  · rw [if_pos (symbolInAlphabet_iff.mpr hx)]
    by_cases hf : s.ftotal = s.params.freqMax
    · simp [State.tableFull, hf, hx]; exact eq_comm
    · rw [if_neg (by simpa [State.tableFull] using hf), settle_map_next_iff]
      simp only [countSymbol_ok_iff]
      constructor
      · rintro ⟨u, ⟨h1, h2, rfl⟩, rfl⟩
        exact ⟨hx, .inr ⟨hf, h1, h2, rfl⟩⟩
      · rintro ⟨-, ⟨h, -⟩ | ⟨-, h1, h2, rfl⟩⟩
        · exact absurd h hf
        · exact ⟨_, ⟨h1, h2, rfl⟩, rfl⟩
  · have : ¬ symbolInAlphabet s.params x = true := fun h => hx (symbolInAlphabet_iff.mp h)
    simp [this, hx]

/-- The steps of BUILD after its refusals (41_tree_builder.md R110). -/
theorem buildSteps_ok_iff {s t : State} :
    buildSteps s = .ok t ↔
      ∃ m r code, buildTree s.params s.freq = .ok (m, r) ∧ generateCodes s.params m r = .ok code ∧
        t = closeDecode { s with
          node := m, root := r, nn := 2 * (tableSymbols s.params s.freq).length - 1, code := code, tv := true,
          freq := [], ftotal := 0 } := by
  constructor
  · intro h
    simp only [buildSteps] at h
    split at h
    · cases h
    · next m r hb =>
      split at h
      · cases h
      · next code hc => cases h; exact ⟨m, r, code, hb, hc, rfl⟩
  · rintro ⟨m, r, code, hb, hc, rfl⟩
    simp [buildSteps, hb, hc]

/-- BUILD (R110, R119): BadState, EmptyInputError, or a new tree. -/
theorem execBuild_next_iff {s t : State} :
    execBuild s = .next t ↔
      (s.lst ≠ .idle ∧ t = raise .badState s) ∨
      (s.lst = .idle ∧ s.ftotal = 0 ∧ t = raise .emptyInputError s) ∨
      (s.lst = .idle ∧ s.ftotal ≠ 0 ∧ ∃ u, buildSteps s = .ok u ∧ t = done u) := by
  unfold execBuild State.loadOpen State.tableEmpty
  by_cases h1 : s.lst = .idle
  · by_cases h2 : s.ftotal = 0
    · simp [h1, h2]; exact eq_comm
    · simp only [h1, h2, ne_eq, not_true, decide_false, Bool.false_eq_true, if_false, false_and, false_or, not_false_eq_true,
        true_and]
      exact settle_map_next_iff
  · simp [h1]; exact eq_comm

/-- What Seed and Merge leave when they answer: they answer when some count is not 0 and the total fits FREQ_W bits
(R111, R112, R120). -/
theorem buildTree_total {p : Params} {freq : Mem Nat} (hne : tableSymbols p freq ≠ [])
    (hsum : ((List.range p.nsym).map (readFreq freq)).sum ≤ p.freqMax) :
    ∃ m r, buildTree p freq = .ok (m, r) := by
  have hlen := tableSymbols_length_le p freq
  have hcap := Params.nodeCap_eq p
  have hpos : 1 ≤ (tableSymbols p freq).length := List.length_pos_iff.mpr hne
  unfold buildTree
  rw [seed_eq (k := 0) (m := []) (by simp) (by omega)]
  simp only [List.nil_append]
  apply merge_total
  · intro h
    have := congrArg List.length h
    rw [seedKeys_length] at this
    simp only [List.length_nil] at this
    omega
  · rw [seedKeys_freqs, tableSymbols_sum]; exact hsum
  · rw [seedKeys_length]; omega
  · exact Nat.le_refl _

theorem execDrop_next_iff {s t : State} :
    execDrop s = .next t ↔ t = done (closeLoad (closeDecode (clearTree s))) := by
  simp [execDrop]; exact eq_comm

/-- ENC (43_encoder.md R141). -/
theorem execEnc_next_iff {x : Nat} {s t : State} :
    execEnc x s = .next t ↔
      x < s.params.nsym ∧
        ((s.tv = false ∧ t = raise .badState s) ∨
          (s.tv = true ∧ Mem.read s.code x = none ∧ t = raise .unknownSymbolError s) ∨
          (s.tv = true ∧ ∃ q, Mem.read s.code x = some q ∧ t = done (emitAll (q.map Rsp.bit) s))) := by
  unfold execEnc State.hasTree
  by_cases hx : x < s.params.nsym
  · rw [if_pos (symbolInAlphabet_iff.mpr hx)]
    cases htv : s.tv
    · simp [hx]; exact eq_comm
    · cases hc : Mem.read s.code x <;> simp [hx] <;> exact eq_comm
  · have : ¬ symbolInAlphabet s.params x = true := fun h => hx (symbolInAlphabet_iff.mp h)
    simp [this, hx]

/-- DBEG (44_decoder.md R152). -/
theorem execDbeg_next_iff {s t : State} :
    execDbeg s = .next t ↔
      (s.tv = false ∧ t = raise .badState s) ∨
      (s.tv = true ∧ ∃ n, Mem.read s.node s.root = some n ∧
        t = done { s with dcur := s.root, dst := if n.sym.isSome then .vroot else .atNode }) := by
  unfold execDbeg State.hasTree
  cases htv : s.tv
  · simp; exact eq_comm
  · simp only [if_true]
    cases hr : Mem.read s.node s.root with
    | none => simp [readNode, hr]
    | some n => simp [readNode, hr]; exact eq_comm

/-- One step of the decoder's cursor (R153). -/
theorem stepCursor_ok_iff {b : Bool} {s t : State} :
    stepCursor b s = .ok t ↔
      ((s.dst = .idle ∨ s.dst = .dead) ∧ t = s) ∨
      (s.dst = .vroot ∧ t = { s with dst := if b then .dead else .atNode }) ∨
      (s.dst = .atNode ∧ ∃ n, Mem.read s.node s.dcur = some n ∧
        ((n.child b = none ∧ t = { s with dst := .dead }) ∨
          ∃ j, n.child b = some j ∧ t = { s with dcur := j })) := by
  unfold stepCursor
  cases hd : s.dst
  · simp; exact eq_comm
  · simp; exact eq_comm
  · cases hr : Mem.read s.node s.dcur with
    | none => simp [readNode, hr]
    | some n => cases hc : n.child b <;> simp [readNode, hr, hc] <;> exact eq_comm
  · simp; exact eq_comm

/-- DBIT (R153). -/
theorem execDbit_next_iff {b : Bool} {s t : State} :
    execDbit b s = .next t ↔
      (s.dst = .idle ∧ t = raise .badState s) ∨ (s.dst ≠ .idle ∧ ∃ u, stepCursor b s = .ok u ∧ t = done u) := by
  unfold execDbit State.decodeOpen
  by_cases h : s.dst = .idle
  · simp [h]; exact eq_comm
  · simp only [h, ne_eq, not_false_eq_true, decide_true, if_true, false_and, false_or, true_and]
    exact settle_map_next_iff

/-- DEND (R154). -/
theorem execDend_next_iff {s t : State} :
    execDend s = .next t ↔
      (s.dst = .idle ∧ t = raise .badState s) ∨
      (s.dst = .dead ∧ t = raise .deadEndError (closeDecode s)) ∨
      (s.dst = .vroot ∧ t = raise .incompletePathError (closeDecode s)) ∨
      (s.dst = .atNode ∧ ∃ n, Mem.read s.node s.dcur = some n ∧
        ((n.sym = none ∧ t = raise .incompletePathError (closeDecode s)) ∨
          ∃ x, n.sym = some x ∧ t = done (emit (.sym x) (closeDecode s)))) := by
  unfold execDend
  cases hd : s.dst
  · simp; exact eq_comm
  · simp; exact eq_comm
  · cases hr : Mem.read s.node s.dcur with
    | none => simp [readNode, hr]
    | some n => cases hx : n.sym <;> simp [readNode, hr, hx] <;> exact eq_comm
  · simp; exact eq_comm

/-- SER (45_persistence.md R171): the key record of the tree at ROOT. -/
theorem execSer_next_iff {s t : State} :
    execSer s = .next t ↔
      (s.tv = false ∧ t = raise .badState s) ∨
      (s.tv = true ∧ ∃ u, s.tree? = some u ∧ t = done (emitAll u.records s)) := by
  unfold execSer State.hasTree
  cases htv : s.tv
  · simp; exact eq_comm
  · simp only [if_true, Bool.true_eq_false, false_and, false_or, true_and, State.tree?]
    constructor
    · intro h
      split at h
      · cases h
      · next rs hrs =>
        obtain ⟨u, hu, rfl⟩ := preorder_ok_iff.mp hrs
        cases h
        exact ⟨u, hu, rfl⟩
    · rintro ⟨u, hu, rfl⟩
      rw [preorder_ok_iff.mpr ⟨u, hu, rfl⟩]

theorem execLbeg_next_iff {s t : State} :
    execLbeg s = .next t ↔ t = done { closeLoad (closeDecode (clearTree s)) with lst := .active } := by
  simp [execLbeg]; exact eq_comm

/-- LoadNode (R173). -/
theorem loadNode_next_iff {x : Option Nat} {s t : State} :
    loadNode x s = .next t ↔
      (s.lst = .idle ∧ t = raise .badState s) ∨ (s.lst = .bad ∧ t = done s) ∨
      (s.lst = .active ∧ recordMalformed x s = true ∧ t = done { s with lst := .bad }) ∨
      (s.lst = .active ∧ recordMalformed x s = false ∧ ∃ u, takeRecord x s = .ok u ∧ t = done u) := by
  unfold loadNode
  cases hl : s.lst
  · simp; exact eq_comm
  · cases hm : recordMalformed x s
    · simp only [Bool.false_eq_true, if_false, false_and, false_or, true_and, reduceCtorEq]
      rw [settle_map_next_iff]
    · simp; exact eq_comm
  · simp; exact eq_comm

/-- LLEAF (R174). -/
theorem execLleaf_next_iff {x : Nat} {s t : State} :
    execLleaf x s = .next t ↔ x < s.params.nsym ∧ loadNode (some x) s = .next t := by
  unfold execLleaf
  by_cases hx : x < s.params.nsym
  · simp [symbolInAlphabet_iff.mpr hx, hx]
  · have : ¬ symbolInAlphabet s.params x = true := fun h => hx (symbolInAlphabet_iff.mp h)
    simp [this, hx]

/-- The good end of a load session (R176). -/
theorem finishLoad_ok_iff {s t : State} :
    finishLoad s = .ok t ↔
      ∃ code, generateCodes s.params s.node 0 = .ok code ∧
        t = { closeLoad s with root := 0, code := code, tv := true } := by
  unfold finishLoad
  cases generateCodes s.params s.node 0 <;> simp <;> exact eq_comm

/-- LEND (R176). -/
theorem execLend_next_iff {s t : State} :
    execLend s = .next t ↔
      (s.lst = .idle ∧ t = raise .badState s) ∨
      (s.lst ≠ .idle ∧ ¬ (s.lst = .active ∧ s.ldone = true) ∧
        t = raise .malformedTreeError { closeLoad s with nn := 0, node := [] }) ∨
      (s.lst = .active ∧ s.ldone = true ∧ ∃ u, finishLoad s = .ok u ∧ t = done u) := by
  unfold execLend State.loadOpen State.loadGood
  cases hl : s.lst
  · simp; exact eq_comm
  · cases hd : s.ldone
    · simp; exact eq_comm
    · simp only [ne_eq, reduceCtorEq, not_false_eq_true, decide_true, if_true, Bool.and_true, false_and, not_true,
        and_self, and_false, false_or, true_and]
      exact settle_map_next_iff
  · simp; exact eq_comm

/-- A step takes one word and runs it, or keeps the state, or is refused (00_scope.md R14). -/
theorem step_next_iff {s t : State} :
    step s = .next t ↔
      s.params.Ok ∧ ((s.cmds = [] ∧ t = s) ∨
        ∃ w ws, s.cmds = w :: ws ∧ runWord w { s with cmds := ws } = .next t) := by
  unfold step
  by_cases hp : s.params.Ok
  · rw [if_pos hp]
    cases hc : s.cmds with
    | nil =>
      rw [fetch_nil hc]
      constructor
      · intro h; cases h; exact ⟨hp, .inl ⟨rfl, rfl⟩⟩
      · rintro ⟨-, ⟨-, rfl⟩ | ⟨w, ws, h, -⟩⟩
        · rfl
        · cases h
    | cons w ws =>
      rw [fetch_cons hc]
      constructor
      · intro h; exact ⟨hp, .inr ⟨w, ws, rfl, h⟩⟩
      · rintro ⟨-, ⟨h, -⟩ | ⟨w', ws', h, hr⟩⟩
        · cases h
        · cases h; exact hr
  · simp [hp]

/-- A word runs the command it decodes to, or answers IllegalCommand (30_encoding.md R73, R75). -/
theorem runWord_next_iff {w : Word} {s t : State} :
    runWord w s = .next t ↔
      (∃ i, decode s.params w = .ok i ∧ exec i s = .next t) ∨
      (∃ e, decode s.params w = .error e ∧ t = raise .illegalCommand s) := by
  unfold runWord
  cases hd : decode s.params w <;> simp [execIllegal] <;> exact eq_comm

end Sys2Proof.Machine
end

