-- ==== Sys2Proof/Laws/PerInstr.lean ====
section
/-!
SUPPORT. Statements made for every command of the syntax, one lemma per constructor.
-/

namespace Sys2Proof.Laws

/-- The command's OP and form are a row of the opcode table (30_encoding.md R74). -/
def TableRow.Statement (i : Instr) : Prop := (⟨i.op, i.form⟩ : Row) ∈ opcodeRows

namespace TableRow
theorem fclr : Statement .fclr := by simp [Statement, Instr.op, Instr.form, opcodeRows]
theorem fsym (x : Nat) : Statement (.fsym x) := by simp [Statement, Instr.op, Instr.form, opcodeRows]
theorem build : Statement .build := by simp [Statement, Instr.op, Instr.form, opcodeRows]
theorem enc (x : Nat) : Statement (.enc x) := by simp [Statement, Instr.op, Instr.form, opcodeRows]
theorem dbeg : Statement .dbeg := by simp [Statement, Instr.op, Instr.form, opcodeRows]
theorem dbit (b : Bool) : Statement (.dbit b) := by simp [Statement, Instr.op, Instr.form, opcodeRows]
theorem dend : Statement .dend := by simp [Statement, Instr.op, Instr.form, opcodeRows]
theorem ser : Statement .ser := by simp [Statement, Instr.op, Instr.form, opcodeRows]
theorem lbeg : Statement .lbeg := by simp [Statement, Instr.op, Instr.form, opcodeRows]
theorem lleaf (x : Nat) : Statement (.lleaf x) := by simp [Statement, Instr.op, Instr.form, opcodeRows]
theorem lbr : Statement .lbr := by simp [Statement, Instr.op, Instr.form, opcodeRows]
theorem lend : Statement .lend := by simp [Statement, Instr.op, Instr.form, opcodeRows]
theorem drop : Statement .drop := by simp [Statement, Instr.op, Instr.form, opcodeRows]
end TableRow

/-- The fields of a well-formed command's word read back as the command, for every legal SYM_W (30_encoding.md R72). -/
def FieldsReadBack.Statement (i : Instr) : Prop :=
  ∀ p : Params, i.wf p = true → decodeFields p i.op i.arg = .ok i

namespace FieldsReadBack
theorem fclr : Statement .fclr := fun _ _ => rfl
theorem fsym (x : Nat) : Statement (.fsym x) := fun _ h => formS_ok_iff.mpr ⟨by simpa [Instr.wf, Instr.arg] using h, rfl⟩
theorem build : Statement .build := fun _ _ => rfl
theorem enc (x : Nat) : Statement (.enc x) := fun _ h => formS_ok_iff.mpr ⟨by simpa [Instr.wf, Instr.arg] using h, rfl⟩
theorem dbeg : Statement .dbeg := fun _ _ => rfl
theorem dbit (b : Bool) : Statement (.dbit b) := fun _ _ => by cases b <;> rfl
theorem dend : Statement .dend := fun _ _ => rfl
theorem ser : Statement .ser := fun _ _ => rfl
theorem lbeg : Statement .lbeg := fun _ _ => rfl
theorem lleaf (x : Nat) : Statement (.lleaf x) := fun _ h => formS_ok_iff.mpr ⟨by simpa [Instr.wf, Instr.arg] using h, rfl⟩
theorem lbr : Statement .lbr := fun _ _ => rfl
theorem lend : Statement .lend := fun _ _ => rfl
theorem drop : Statement .drop := fun _ _ => rfl
end FieldsReadBack

end Sys2Proof.Laws
end

