-- ==== Sys2Proof/Tests/Slice0.lean ====
section
/-!
SUPPORT. The model's own tests: ill-formed terms, words written out from 30_encoding.md, one or two steps per command
with the results that 95_test_vectors.md or the rule's own example gives, and for every statement of
Certificates/Slice0/Obligations.lean that has hypotheses concrete values that meet them.
-/

namespace Sys2Proof.Tests

open Sys2Proof Sys2Proof.Machine

/-! ## Small states -/

/-- A block with two symbols (SYM_W = 1) and frequencies of four bits, right after reset. -/
def empty : State := State.resetAt { symW := 1, freqW := 4 }

/-- Each of the two symbols counted once. -/
def counted : State := { empty with freq := [(0, 1), (1, 1)], ftotal := 2 }

/-- The tree of V6 over the symbols 0 and 1: branch 2 with left 1 and right 0. -/
def twoLeaf : State :=
  { empty with
    tv := true, root := 2, nn := 3, code := [(0, [true]), (1, [false])]
    node := [(0, ⟨1, some 0, none, none⟩), (1, ⟨1, some 1, none, none⟩), (2, ⟨2, none, some 1, some 0⟩)] }

/-- The one-leaf tree of V2 over the symbol 1. -/
def oneLeaf : State :=
  { empty with tv := true, root := 0, nn := 1, code := [(1, [false])], node := [(0, ⟨3, some 1, none, none⟩)] }

/-- A decode session on a tree. -/
def decoding (d : DecState) (i : Nat) (s : State) : State := { s with dst := d, dcur := i }

/-- A load session with no record yet. -/
def loadOpened : State := { empty with lst := .active }

/-- The load session of 45_persistence.md R174's example, before its record: one branch, waiting for its left child. -/
def loadBranch : State := { loadOpened with nn := 1, node := [(0, ⟨0, none, none, none⟩)], lstk := [(0, false)] }

/-- The records of the branch and its left leaf taken. -/
def loadHalf : State :=
  { loadOpened with
    nn := 2, node := [(0, ⟨0, none, some 1, none⟩), (1, ⟨0, some 1, none, none⟩)], lstk := [(0, true)], lseen := [(1, ())] }

/-- All three records taken. -/
def loadWhole : State :=
  { loadOpened with
    nn := 3, ldone := true, lseen := [(0, ()), (1, ())]
    node := [(0, ⟨0, none, some 1, some 2⟩), (1, ⟨0, some 1, none, none⟩), (2, ⟨0, some 0, none, none⟩)] }

/-- The tree of 45_persistence.md R176's example, as a load leaves it. -/
def loadedTree : State :=
  { empty with
    tv := true, root := 0, nn := 3, code := [(0, [true]), (1, [false])]
    node := [(0, ⟨0, none, some 1, some 2⟩), (1, ⟨0, some 1, none, none⟩), (2, ⟨0, some 0, none, none⟩)] }

/-- A load session that a second record after a leaf has made BAD. -/
def loadBad : State :=
  { loadOpened with
    lst := .bad, nn := 1, ldone := true, node := [(0, ⟨0, some 1, none, none⟩)], lseen := [(1, ())] }

/-- A Frequency Table that counts FREQ_MAX symbols, with FREQ_W = 1. -/
def full : State := { State.resetAt { symW := 1, freqW := 1 } with freq := [(0, 1)], ftotal := 1 }

/-- s with these response words after its own. -/
def answered (s : State) (ws : List Word) : State := { s with rsp := s.rsp ++ ws }

/-! ## WellFormed -/

theorem test_wf_refuses_fsym : (Instr.fsym 256).wf Params.ref = false := by decide
theorem test_wf_refuses_enc : (Instr.enc 256).wf Params.ref = false := by decide
theorem test_wf_refuses_lleaf : (Instr.lleaf 2).wf { symW := 1, freqW := 4 } = false := by decide
theorem test_wf_takes_the_ends : (Instr.fsym 0).wf Params.ref = true ∧ (Instr.lleaf 255).wf Params.ref = true := by decide

/-! ## Decode: words written out from R70, R71, R74 (OP in bits 31:24, ARG in bits 23:0) -/

theorem test_decode_fclr : decode Params.ref 0b00000001_000000000000000000000000#32 = .ok .fclr := by rfl
theorem test_decode_fsym : decode Params.ref 0b00000010_000000000000000001000001#32 = .ok (.fsym 0x41) := by rfl
theorem test_decode_build : decode Params.ref 0b00000011_000000000000000000000000#32 = .ok .build := by rfl
theorem test_decode_enc : decode Params.ref 0b00000100_000000000000000011111111#32 = .ok (.enc 0xFF) := by rfl
theorem test_decode_dbeg : decode Params.ref 0b00000101_000000000000000000000000#32 = .ok .dbeg := by rfl
theorem test_decode_dbit : decode Params.ref 0b00000110_000000000000000000000000#32 = .ok (.dbit false) ∧
    decode Params.ref 0b00000110_000000000000000000000001#32 = .ok (.dbit true) := by exact ⟨rfl, rfl⟩
theorem test_decode_dend : decode Params.ref 0b00000111_000000000000000000000000#32 = .ok .dend := by rfl
theorem test_decode_ser : decode Params.ref 0b00001000_000000000000000000000000#32 = .ok .ser := by rfl
theorem test_decode_lbeg : decode Params.ref 0b00001001_000000000000000000000000#32 = .ok .lbeg := by rfl
theorem test_decode_lleaf : decode Params.ref 0b00001010_000000000000000001000010#32 = .ok (.lleaf 0x42) := by rfl
theorem test_decode_lbr : decode Params.ref 0b00001011_000000000000000000000000#32 = .ok .lbr := by rfl
theorem test_decode_lend : decode Params.ref 0b00001100_000000000000000000000000#32 = .ok .lend := by rfl
theorem test_decode_drop : decode Params.ref 0b00001101_000000000000000000000000#32 = .ok .drop := by rfl

/-- V11: OP 0x00, 0x0E and 0xFF, and a must-be-zero bit in each of the three forms. -/
theorem test_decode_refuses :
    decode Params.ref 0x00000000#32 = .error (.unknownOp 0) ∧
    decode Params.ref 0x0E000041#32 = .error (.unknownOp 0x0E) ∧
    decode Params.ref 0xFFFFFFFF#32 = .error (.unknownOp 0xFF) ∧
    decode Params.ref 0x03000001#32 = .error (.nonZeroMustBeZero 3 1) ∧
    decode Params.ref 0x02000100#32 = .error (.nonZeroMustBeZero 2 0x100) ∧
    decode Params.ref 0x06000002#32 = .error (.nonZeroMustBeZero 6 2) := ⟨rfl, rfl, rfl, rfl, rfl, rfl⟩

/-- 30_encoding.md R71: with SYM_W = 24 form S has no must-be-zero bit. -/
theorem test_decode_widest_symbol :
    decode { symW := 24, freqW := 32 } 0x0AFFFFFF#32 = .ok (.lleaf 0xFFFFFF) := by rfl

theorem test_table_word : decodeTableWord 32 0x0D000000 = some .drop ∧ decodeTableWord 32 0 = none := ⟨rfl, rfl⟩

/-! ## The first step after reset -/

theorem test_step_from_reset :
    step (State.reset.withFetchWord 32 0x02000041) =
      .next { State.reset with freq := [(0x41, 1)], ftotal := 1, rsp := [0#32] } := by rfl

/-- V11: the all-zero word. -/
theorem test_step_illegal :
    step (State.reset.withFetchWord 32 0) = .next { State.reset with rsp := [0x10#32] } := by rfl

/-! ## Commands -/

/-- 40_frequency.md R101, example. -/
theorem test_fclr : exec .fclr { State.reset with freq := [(0x41, 2)], ftotal := 2 } =
    .next (answered State.reset [0#32]) := by rfl

/-- 40_frequency.md R102, example. -/
theorem test_fsym : exec (.fsym 0x41) { State.reset with freq := [(0x41, 3), (0x42, 4)], ftotal := 7 } =
    .next (answered { State.reset with freq := [(0x41, 4), (0x42, 4)], ftotal := 8 } [0#32]) := by rfl

/-- V13: the capacity guard. -/
theorem test_fsym_full : exec (.fsym 1) full = .next (answered full [0x12#32]) := by rfl

/-- V6, with SYM_W = 1. -/
theorem test_build : exec .build counted = .next (answered twoLeaf [0#32]) := by rfl

/-- P4, first line. -/
theorem test_build_empty : exec .build empty = .next (answered empty [1#32]) := by rfl

/-- V6: ENC of the leaf under the right child. -/
theorem test_enc : exec (.enc 0) twoLeaf = .next (answered twoLeaf [0x06000001#32, 0#32]) := by rfl

/-- P2: ENC of a symbol that has no code. -/
theorem test_enc_unknown : exec (.enc 0) oneLeaf = .next (answered oneLeaf [2#32]) := by rfl

/-- V6: DBEG stands at a branch. -/
theorem test_dbeg : exec .dbeg twoLeaf = .next (answered (decoding .atNode 2 twoLeaf) [0#32]) := by rfl

/-- V2: DBEG stands at the virtual root. -/
theorem test_dbeg_one_leaf : exec .dbeg oneLeaf = .next (answered (decoding .vroot 0 oneLeaf) [0#32]) := by rfl

/-- V6: bit 1 moves to the right child. -/
theorem test_dbit : exec (.dbit true) (decoding .atNode 2 twoLeaf) =
    .next (answered (decoding .atNode 0 twoLeaf) [0#32]) := by rfl

/-- V6: a bit beyond a leaf. -/
theorem test_dbit_off : exec (.dbit true) (decoding .atNode 0 twoLeaf) =
    .next (answered (decoding .dead 0 twoLeaf) [0#32]) := by rfl

/-- V6: a leaf is reached. -/
theorem test_dend : exec .dend (decoding .atNode 1 twoLeaf) = .next (answered twoLeaf [0x0E000001#32, 0#32]) := by rfl

/-- V6: DECODE [] ends on a branch. -/
theorem test_dend_branch : exec .dend (decoding .atNode 2 twoLeaf) = .next (answered twoLeaf [4#32]) := by rfl

/-- V6: SER, left before right. -/
theorem test_ser : exec .ser twoLeaf =
    .next (answered twoLeaf [0x0B000000#32, 0x0A000001#32, 0x0A000000#32, 0#32]) := by rfl

/-- 45_persistence.md R172: LBEG drops the tree and leaves the Frequency Table. -/
theorem test_lbeg : exec .lbeg { twoLeaf with freq := [(0, 1)], ftotal := 1 } =
    .next (answered { loadOpened with freq := [(0, 1)], ftotal := 1 } [0#32]) := by rfl

/-- 45_persistence.md R174, example. -/
theorem test_lleaf : exec (.lleaf 1) loadBranch = .next (answered loadHalf [0#32]) := by rfl

/-- V12: a symbol on two leaves. -/
theorem test_lleaf_twice : exec (.lleaf 1) loadHalf = .next (answered { loadHalf with lst := .bad } [0#32]) := by rfl

/-- 45_persistence.md R175, example. -/
theorem test_lbr : exec .lbr loadOpened = .next (answered loadBranch [0#32]) := by rfl

/-- V16: NODE is full. -/
theorem test_lbr_full : exec .lbr { loadOpened with nn := 3, lstk := [(0, true), (1, true)] } =
    .next (answered { loadOpened with lst := .bad, nn := 3, lstk := [(0, true), (1, true)] } [0#32]) := by rfl

/-- 45_persistence.md R176, example. -/
theorem test_lend : exec .lend loadWhole = .next (answered loadedTree [0#32]) := by rfl

/-- V12: the record ends early. -/
theorem test_lend_early : exec .lend loadHalf = .next (answered empty [5#32]) := by rfl

/-- 41_tree_builder.md R121: DROP in a load session. -/
theorem test_drop : exec .drop loadHalf = .next (answered empty [0#32]) := by rfl

/-! ## Witnesses: the hypotheses of every statement can be met -/

/-- The invariant, checked in parts. -/
theorem inv_of {s : State} (h : s.params.Ok ∧ FreqInv s ∧ NodeInv s ∧ CodeInv s ∧ LoaderInv s)
    (h' : DecodeInv s ∧ SessionInv s) (ht : s.tv = true → TreeInv s) (hl : s.lst = .active → LoadingInv s) : Inv s :=
  ⟨h.1, h.2.1, h.2.2.1, h.2.2.2.1, h.2.2.2.2, h'.1, h'.2, ht, hl⟩

theorem inv_counted : Inv counted := inv_of (by decide) (by decide) (by decide) (by decide)
theorem inv_twoLeaf : Inv twoLeaf := inv_of (by decide) (by decide) (by decide) (by decide)
theorem inv_oneLeaf : Inv oneLeaf := inv_of (by decide) (by decide) (by decide) (by decide)
theorem inv_loadOpened : Inv loadOpened := inv_of (by decide) (by decide) (by decide) (by decide)
theorem inv_loadBranch : Inv loadBranch := inv_of (by decide) (by decide) (by decide) (by decide)
theorem inv_loadHalf : Inv loadHalf := inv_of (by decide) (by decide) (by decide) (by decide)
theorem inv_loadWhole : Inv loadWhole := inv_of (by decide) (by decide) (by decide) (by decide)
theorem inv_loadBad : Inv loadBad := inv_of (by decide) (by decide) (by decide) (by decide)
theorem inv_loadedTree : Inv loadedTree := inv_of (by decide) (by decide) (by decide) (by decide)

theorem witness_DecodeOfEncodeIsTheCommand :
    Params.ref.Ok ∧ (Instr.fsym 255).wf Params.ref = true := by decide

theorem witness_EncodeOfDecodeIsTheWord :
    Params.ref.Ok ∧ decode Params.ref 0x06000001#32 = .ok (.dbit true) := ⟨by decide, rfl⟩

theorem witness_LegalWordsAreThoseThatSelectARow :
    Params.ref.Ok ∧ decode Params.ref 0x020000FF#32 = .ok (.fsym 255) ∧
      (⟨2, .s⟩ : Row) ∈ opcodeRows ∧ 0x020000FF#32 &&& rowMask Params.ref .s = rowMatch 2 := by
  exact ⟨by decide, rfl, by decide, by decide⟩

theorem witness_IllegalWordAnswersAndChangesNothing :
    State.reset.params.Ok ∧ opField 0x00123456#32 = 0 ∧ 0x0E ≤ opField 0x0E000000#32 ∧
      ((⟨2, .s⟩ : Row) ∈ opcodeRows ∧ 2 = opField 0x02000100#32 ∧
        0x02000100#32 &&& mustBeZero State.reset.params .s ≠ 0#32) := by decide

theorem witness_ResponseWordsHaveTheirTabledBits : 0xFFFFFF < 2 ^ 24 := by decide

theorem witness_DataWordsReplayAsCommands : Params.ref.Ok ∧ 255 < Params.ref.nsym := by decide

theorem witness_StepRunsTheDecodedCommand :
    State.reset.params.Ok ∧ (State.reset.withFetchWord 32 0x0D000000).cmds = [0x0D000000#32] ∧
      decode State.reset.params 0x0D000000#32 = .ok .drop := ⟨by decide, rfl, rfl⟩

theorem witness_StepWithoutCommandKeepsState : State.reset.params.Ok ∧ State.reset.cmds = [] := by decide

theorem witness_StepRefusesParametersOutOfRange :
    ¬ (State.resetAt { symW := 25, freqW := 32 }).params.Ok ∧ ¬ (State.resetAt { symW := 8, freqW := 0 }).params.Ok := by
  decide

theorem witness_OversizedSymbolOperandFaults : empty.params.nsym ≤ 2 := by decide

theorem witness_FsymCountsOneSymbolUnlessFull :
    (counted.params.Ok ∧ FreqInv counted ∧ 1 < counted.params.nsym ∧ counted.ftotal ≠ counted.params.freqMax) ∧
      (full.params.Ok ∧ FreqInv full ∧ 1 < full.params.nsym ∧ full.ftotal = full.params.freqMax) := by decide

theorem witness_TableHoldsOccurrenceCounts :
    empty.params.Ok ∧ (∀ x ∈ [1, 0, 1], x < empty.params.nsym) ∧ [1, 0, 1].length ≤ empty.params.freqMax ∧
      [0, 1, 1].Perm [1, 0, 1] := by decide

/-- The hypotheses on the state before a successful BUILD. -/
theorem witness_BuildMakesATreeAndConsumesTheTable :
    counted.params.Ok ∧ FreqInv counted ∧ counted.lst = .idle ∧ counted.ftotal ≠ 0 := by decide

/-- Those, with the next state: BuildAllocatesLeavesThenBranches, BuildMergesTheTwoLeastWaitingNodes,
BuiltRootFrequencyIsTheTotal, and the first clause of CodesCoverExactlyTheAlphabet. -/
theorem witness_BuildAllocatesLeavesThenBranches :
    (counted.params.Ok ∧ FreqInv counted ∧ counted.lst = .idle ∧ counted.ftotal ≠ 0) ∧
      exec .build counted = .next (answered twoLeaf [0#32]) ∧
      ([0, 1].Pairwise (· < ·) ∧ [0, 1][1]? = some 1) := ⟨by decide, rfl, by decide⟩

theorem witness_BuildMergesTheTwoLeastWaitingNodes :
    exec .build counted = .next (answered twoLeaf [0#32]) ∧
      Mem.read (answered twoLeaf [0#32]).node 2 = some ⟨2, none, some 1, some 0⟩ := ⟨rfl, rfl⟩

theorem witness_BuildRefusesLoadSessionThenEmptyTable :
    loadHalf.lst ≠ .idle ∧ empty.lst = .idle ∧ empty.ftotal = 0 := by decide

/-- One symbol counted three times. -/
def thrice : State := { empty with freq := [(1, 3)], ftotal := 3 }

theorem witness_OneDistinctSymbolGivesOneLeaf :
    thrice.params.Ok ∧ FreqInv thrice ∧ thrice.lst = .idle ∧ 1 < thrice.params.nsym ∧ 0 < readFreq thrice.freq 1 ∧
      ∀ y, y ≠ 1 → readFreq thrice.freq y = 0 := by
  refine ⟨by decide, by decide, by decide, by decide, by decide, fun y hy => ?_⟩
  simp [readFreq, thrice, Mem.read, hy]

theorem witness_BuildDependsOnTheTableOnly :
    counted.params = (answered counted [0#32]).params ∧ counted.lst = .idle ∧ counted.ftotal ≠ 0 ∧
      (∀ x < counted.params.nsym, readFreq counted.freq x = readFreq (answered counted [0#32]).freq x) ∧
      exec .build counted = .next (answered twoLeaf [0#32]) ∧
      exec .build (answered counted [0#32]) = .next (answered twoLeaf [0#32, 0#32]) :=
  ⟨by decide, by decide, by decide, by decide, rfl, rfl⟩

/-- The tree of V6 as an abstract tree, and another tree with the same leaves. -/
theorem witness_BuiltTreeHasLeastCost :
    (counted.params.Ok ∧ FreqInv counted ∧ counted.lst = .idle ∧ counted.ftotal ≠ 0) ∧
      exec .build counted = .next (answered twoLeaf [0#32]) ∧
      (answered twoLeaf [0#32]).tree? = some (.branch 2 (.leaf 1 1) (.leaf 1 0)) ∧
      (SymTree.branch 0 (.leaf 0 0) (.leaf 0 1)).syms.Perm (SymTree.branch 2 (.leaf 1 1) (.leaf 1 0)).syms :=
  ⟨by decide, rfl, rfl, by decide⟩

theorem witness_CodesArePrefixFree :
    Inv twoLeaf ∧ twoLeaf.tv = true ∧ Mem.read twoLeaf.code 0 = some [true] ∧ Mem.read twoLeaf.code 1 = some [false] :=
  ⟨inv_twoLeaf, by decide⟩

theorem witness_CodesCoverExactlyTheAlphabet :
    Inv loadWhole ∧ loadWhole.lst = .active ∧ loadWhole.ldone = true ∧
      exec .lend loadWhole = .next (answered loadedTree [0#32]) := ⟨inv_loadWhole, by decide, by decide, rfl⟩

theorem witness_CodeIsThePathToTheLeaf :
    (Inv twoLeaf ∧ twoLeaf.tv = true ∧ twoLeaf.tree? = some (.branch 2 (.leaf 1 1) (.leaf 1 0))) ∧
      (Inv oneLeaf ∧ oneLeaf.tv = true ∧ oneLeaf.tree? = some (.leaf 3 1)) :=
  ⟨⟨inv_twoLeaf, by decide⟩, ⟨inv_oneLeaf, by decide⟩⟩

theorem witness_TreeAndCodesChangeTogether :
    Inv counted ∧ exec .build counted = .next (answered twoLeaf [0#32]) ∧ (answered twoLeaf [0#32]).tv = true :=
  ⟨inv_counted, rfl, rfl⟩

theorem witness_EncAnswersTheBitPath :
    (empty.params.Ok ∧ 1 < empty.params.nsym ∧ empty.tv = false) ∧
      (oneLeaf.params.Ok ∧ 0 < oneLeaf.params.nsym ∧ oneLeaf.tv = true ∧ Mem.read oneLeaf.code 0 = none) ∧
      (twoLeaf.params.Ok ∧ 0 < twoLeaf.params.nsym ∧ twoLeaf.tv = true ∧ Mem.read twoLeaf.code 0 = some [true]) := by
  decide

theorem witness_DbegStandsOnTheRoot :
    empty.tv = false ∧
      (twoLeaf.tv = true ∧ Mem.read twoLeaf.node twoLeaf.root = some ⟨2, none, some 1, some 0⟩) ∧
      (oneLeaf.tv = true ∧ Mem.read oneLeaf.node oneLeaf.root = some ⟨3, some 1, none, none⟩) := by decide

theorem witness_DbitTakesOneStep :
    twoLeaf.dst = .idle ∧ (decoding .vroot 0 oneLeaf).dst = .vroot ∧ (decoding .dead 0 twoLeaf).dst = .dead ∧
      ((decoding .atNode 0 twoLeaf).dst = .atNode ∧
        Mem.read twoLeaf.node 0 = some ⟨1, some 0, none, none⟩) ∧
      ((decoding .atNode 2 twoLeaf).dst = .atNode ∧
        Mem.read twoLeaf.node 2 = some ⟨2, none, some 1, some 0⟩) := by decide

theorem witness_DendGivesTheResult :
    twoLeaf.dst = .idle ∧ (decoding .dead 0 twoLeaf).dst = .dead ∧ (decoding .vroot 0 oneLeaf).dst = .vroot ∧
      ((decoding .atNode 2 twoLeaf).dst = .atNode ∧
        Mem.read twoLeaf.node 2 = some ⟨2, none, some 1, some 0⟩) ∧
      ((decoding .atNode 1 twoLeaf).dst = .atNode ∧
        Mem.read twoLeaf.node 1 = some ⟨1, some 1, none, none⟩) := by decide

theorem witness_DecodeSessionComputesDecode :
    Inv twoLeaf ∧ twoLeaf.tv = true ∧ twoLeaf.dst = .idle ∧
      decodePath twoLeaf.node twoLeaf.root [true] = some (.symbol 0) := ⟨inv_twoLeaf, by decide⟩

theorem witness_OneLeafTreeDecodes :
    Mem.read oneLeaf.node 0 = some ⟨3, some 1, none, none⟩ := by decide

theorem witness_PathsThatDecodeAreTheCodes :
    Inv oneLeaf ∧ oneLeaf.tv = true ∧ Mem.read oneLeaf.code 1 = some [false] ∧
      ∀ x, Mem.read oneLeaf.code x ≠ some [true] := by
  refine ⟨inv_oneLeaf, rfl, rfl, fun x => ?_⟩
  by_cases h : x = 1 <;> simp [oneLeaf, Mem.read, h]

theorem witness_EncodedWordsReplayToTheSymbol :
    Inv twoLeaf ∧ twoLeaf.dst = .idle ∧ exec (.enc 0) twoLeaf = .next (answered twoLeaf [0x06000001#32, 0#32]) ∧
      (answered twoLeaf [0x06000001#32, 0#32]).rsp = twoLeaf.rsp ++ [0x06000001#32] ++ [statusWord .ok] :=
  ⟨inv_twoLeaf, rfl, rfl, by decide⟩

theorem witness_FromDataRoundTrip :
    empty.params.Ok ∧ empty.lst = .idle ∧ (∀ x ∈ [1, 0, 1], x < empty.params.nsym) ∧
      [1, 0, 1].length ≤ empty.params.freqMax ∧ [1, 0, 1] ≠ [] := by decide

theorem witness_SerAnswersTheKeyRecord : empty.tv = false ∧ Inv twoLeaf ∧ twoLeaf.tv = true :=
  ⟨rfl, inv_twoLeaf, rfl⟩

/-- The first record, a left child and a right child. -/
theorem witness_AcceptedRecordIsAttached :
    (Inv loadOpened ∧ loadOpened.lst = .active ∧ loadOpened.ldone = false ∧
      loadOpened.nn ≠ loadOpened.params.nodeCap ∧ loadOpened.lstk = []) ∧
    (Inv loadBranch ∧ loadBranch.lst = .active ∧ loadBranch.ldone = false ∧
      loadBranch.nn ≠ loadBranch.params.nodeCap ∧ loadBranch.lstk = [(0, false)] ∧
      1 < loadBranch.params.nsym ∧ Mem.read loadBranch.lseen 1 = none) ∧
    (Inv loadHalf ∧ loadHalf.lst = .active ∧ loadHalf.ldone = false ∧
      loadHalf.nn ≠ loadHalf.params.nodeCap ∧ loadHalf.lstk = [(0, true)] ∧
      0 < loadHalf.params.nsym ∧ Mem.read loadHalf.lseen 0 = none) :=
  ⟨⟨inv_loadOpened, by decide⟩, ⟨inv_loadBranch, by decide⟩, ⟨inv_loadHalf, by decide⟩⟩

theorem witness_MalformedRecordMakesTheSessionBad :
    empty.lst = .idle ∧ loadBad.lst = .bad ∧ (loadWhole.lst = .active ∧ loadWhole.ldone = true) ∧
      (loadHalf.lst = .active ∧ 1 < loadHalf.params.nsym ∧ (Mem.read loadHalf.lseen 1).isSome = true) ∧
      ({ loadHalf with nn := 3 }.lst = .active ∧ { loadHalf with nn := 3 }.nn = loadHalf.params.nodeCap) := by decide

theorem witness_LendMakesTheTreeOrReportsMalformed :
    empty.lst = .idle ∧
      (loadHalf.lst ≠ .idle ∧ ¬ (loadHalf.lst = .active ∧ loadHalf.ldone = true)) ∧
      (loadBad.lst ≠ .idle ∧ ¬ (loadBad.lst = .active ∧ loadBad.ldone = true)) ∧
      (Inv loadWhole ∧ loadWhole.lst = .active ∧ loadWhole.ldone = true) :=
  ⟨by decide, by decide, by decide, inv_loadWhole, by decide⟩

/-- A list of records that is a key record, and one that is not. -/
theorem witness_LoadAcceptsExactlyTheKeyRecords :
    empty.params.Ok ∧ (∀ x < 2, x < empty.params.nsym) ∧
      ((SymTree.branch 0 (.leaf 0 1) (.leaf 0 0)).records = [none, some 1, some 0].map recordRsp ∧
        (SymTree.branch 0 (.leaf 0 1) (.leaf 0 0)).syms.Nodup) ∧
      ¬ ∃ u : SymTree, u.records = [].map recordRsp ∧ u.syms.Nodup := by
  refine ⟨by decide, by decide, by decide, ?_⟩
  rintro ⟨u, hu, -⟩
  cases u <;> simp [SymTree.records] at hu

theorem witness_PersistenceRoundTrip :
    Inv twoLeaf ∧ twoLeaf.tv = true ∧
      exec .ser twoLeaf = .next (answered twoLeaf [0x0B000000#32, 0x0A000001#32, 0x0A000000#32, 0#32]) ∧
      (answered twoLeaf [0x0B000000#32, 0x0A000001#32, 0x0A000000#32, 0#32]).rsp =
        twoLeaf.rsp ++ [0x0B000000#32, 0x0A000001#32, 0x0A000000#32] ++ [statusWord .ok] :=
  ⟨inv_twoLeaf, by decide, rfl, by decide⟩

theorem witness_BadStateExactlyWhenTabled :
    (Instr.enc 0).wf empty.params = true ∧ BadStateWhen empty (.enc 0) ∧ ¬ BadStateWhen twoLeaf (.enc 0) := by
  simp [BadStateWhen, empty, twoLeaf, State.resetAt, Instr.wf, Params.nsym]

theorem witness_AnswersHaveTheirTabledShape :
    (Inv twoLeaf ∧ (Instr.enc 0).wf twoLeaf.params = true ∧
      exec (.enc 0) twoLeaf = .next (answered twoLeaf [0x06000001#32, 0#32])) ∧
    decode twoLeaf.params 0x04000002#32 = .error (.nonZeroMustBeZero 4 2) := ⟨⟨inv_twoLeaf, by decide, rfl⟩, rfl⟩

/-- The five errors of the document, each raised. -/
theorem witness_DocumentErrorsBelongToOneCommand :
    exec .build empty = .next (answered empty [statusWord .emptyInputError]) ∧
    exec (.enc 0) oneLeaf = .next (answered oneLeaf [statusWord .unknownSymbolError]) ∧
    exec .dend (decoding .dead 0 twoLeaf) = .next (answered twoLeaf [statusWord .deadEndError]) ∧
    exec .dend (decoding .atNode 2 twoLeaf) = .next (answered twoLeaf [statusWord .incompletePathError]) ∧
    exec .lend loadHalf = .next (answered empty [statusWord .malformedTreeError]) := ⟨rfl, rfl, rfl, rfl, rfl⟩

/-- Each of the eight error statuses, as the answer to one word. -/
theorem witness_FailingCommandsWriteOnlyWhatIsTabled :
    runWord 0x00000000#32 counted = .next (answered counted [statusWord .illegalCommand]) ∧
    runWord 0x04000001#32 counted = .next (answered counted [statusWord .badState]) ∧
    runWord 0x02000001#32 full = .next (answered full [statusWord .capacityExceeded]) ∧
    runWord 0x03000000#32 empty = .next (answered empty [statusWord .emptyInputError]) ∧
    runWord 0x04000000#32 oneLeaf = .next (answered oneLeaf [statusWord .unknownSymbolError]) ∧
    runWord 0x07000000#32 (decoding .dead 0 twoLeaf) = .next (answered twoLeaf [statusWord .deadEndError]) ∧
    runWord 0x07000000#32 (decoding .vroot 0 oneLeaf) = .next (answered oneLeaf [statusWord .incompletePathError]) ∧
    runWord 0x0C000000#32 loadBad = .next (answered empty [statusWord .malformedTreeError]) :=
  ⟨rfl, rfl, rfl, rfl, rfl, rfl, rfl, rfl⟩

theorem witness_CommandsWriteOnlyTheirColumns : exec .lbr loadOpened = .next (answered loadBranch [0#32]) := rfl

theorem witness_TreeIsReadOnlyUntilItEnds :
    Inv twoLeaf ∧ twoLeaf.tv = true ∧ exec (.enc 0) twoLeaf = .next (answered twoLeaf [0x06000001#32, 0#32]) :=
  ⟨inv_twoLeaf, by decide, rfl⟩

theorem witness_FailedSessionsAreSticky :
    ((decoding .dead 0 twoLeaf).dst = .dead ∧
      exec .dend (decoding .dead 0 twoLeaf) = .next (answered twoLeaf [3#32]) ∧
      (answered twoLeaf [3#32]).dst ≠ .dead) ∧
    (loadBad.lst = .bad ∧ exec .lend loadBad = .next (answered empty [5#32]) ∧
      (answered empty [5#32]).lst ≠ .bad) := ⟨⟨by decide, rfl, by decide⟩, ⟨by decide, rfl, by decide⟩⟩

theorem witness_OpenSessionsEndOnlyAsTabled :
    ((decoding .atNode 2 twoLeaf).dst ≠ .idle ∧
      exec .dend (decoding .atNode 2 twoLeaf) = .next (answered twoLeaf [4#32]) ∧
      (answered twoLeaf [4#32]).dst = .idle) ∧
    ((decoding .atNode 2 twoLeaf).dst ≠ .idle ∧
      exec (.dbit true) (decoding .atNode 2 twoLeaf) = .next (answered (decoding .atNode 0 twoLeaf) [0#32]) ∧
      (answered (decoding .atNode 0 twoLeaf) [0#32]).dcur ≠ (decoding .atNode 2 twoLeaf).dcur) ∧
    (loadHalf.lst ≠ .idle ∧ exec .drop loadHalf = .next (answered empty [0#32]) ∧
      (answered empty [0#32]).lst = .idle) ∧
    (loadBranch.lst ≠ .idle ∧ exec (.lleaf 1) loadBranch = .next (answered loadHalf [0#32]) ∧
      (answered loadHalf [0#32]).nn ≠ loadBranch.nn) :=
  ⟨⟨by decide, rfl, by decide⟩, ⟨by decide, rfl, by decide⟩, ⟨by decide, rfl, by decide⟩, ⟨by decide, rfl, by decide⟩⟩

theorem witness_ResetStateSatisfiesTheInvariant : Params.ref.Ok := by decide

theorem witness_ResetValues : State.reset.params = Params.ref := by decide

theorem witness_MemoriesStayCanonical :
    Memory.wf counted ∧ step { counted with cmds := [0x02000001#32] } =
      .next { counted with freq := [(0, 1), (1, 2)], ftotal := 3, rsp := [0#32] } := ⟨by decide, rfl⟩

theorem witness_EveryStepKeepsTheInvariant :
    Inv { loadBranch with cmds := [0x0A000001#32] } ∧
      step { loadBranch with cmds := [0x0A000001#32] } = .next (answered loadHalf [0#32]) :=
  ⟨inv_of (by decide) (by decide) (by decide) (by decide), rfl⟩

theorem witness_EveryWordIsAnswered : Inv loadBad ∧ Inv (decoding .vroot 0 oneLeaf) ∧ Inv (decoding .dead 0 twoLeaf) :=
  ⟨inv_loadBad, inv_of (by decide) (by decide) (by decide) (by decide), inv_of (by decide) (by decide) (by decide) (by decide)⟩

/-- A built tree and a loaded tree of the same shape at other indices. -/
theorem witness_AnswersDependOnTheTreeShapeOnly :
    Inv twoLeaf ∧ Inv loadedTree ∧ twoLeaf.tv = true ∧ loadedTree.tv = true ∧ twoLeaf.params = loadedTree.params ∧
      twoLeaf.tree?.map SymTree.shape = loadedTree.tree?.map SymTree.shape :=
  ⟨inv_twoLeaf, inv_loadedTree, by decide⟩

end Sys2Proof.Tests
end

section
/-!
PROOFS. The statements of 00_scope.md: the step runs the decoded command, and the block's answers depend on NODE only
through the shape of the tree it holds.
-/

namespace Sys2Proof.Machine

/-! ### The step, word by word (00_scope.md R14, 30_encoding.md R73) -/

/-- With a word waiting, a step takes it and runs it. -/
theorem step_of_cons {s : State} {w : Word} {ws : List Word} (hp : s.params.Ok) (hc : s.cmds = w :: ws) :
    step s = runWord w { s with cmds := ws } := by
  simp [step, hp, fetch_cons hc]

theorem runWord_of_decode {s : State} {w : Word} {i : Instr} (h : decode s.params w = .ok i) :
    runWord w s = exec i s := by
  simp [runWord, h]

/-- Settles O8: a step takes the oldest word, and a word that decodes runs its command. -/
theorem stepRunsTheDecodedCommand : Obligations.StepRunsTheDecodedCommand := by
  unfold Obligations.StepRunsTheDecodedCommand
  intro s w ws i hp hc hd
  rw [step_of_cons hp hc]
  exact runWord_of_decode hd

/-! ### What the invariant gives of a block with a tree (10_state.md R24, R27, R28) -/

theorem Inv.codeInv {s : State} (h : Inv s) : CodeInv s := by
  obtain ⟨-, -, -, hcode, -⟩ := h
  exact hcode

theorem Inv.treeInv {s : State} (h : Inv s) (htv : s.tv = true) : TreeInv s := by
  obtain ⟨-, -, -, -, -, -, -, htree, -⟩ := h
  exact htree htv

/-- R24: in a memory of leaf and branch entries every leaf is childless. -/
theorem NodeShapes.childlessLeaves {s : State} (h : NodeShapes s) : ChildlessLeaves s.node := by
  intro i n x hn hx
  rcases h (i, n) (Mem.mem_of_read hn) with ⟨-, hl, hr⟩ | ⟨hsym, -⟩
  · exact ⟨hl, hr⟩
  · exact absurd (hx.symm.trans hsym) nofun

/-- With TV = 1 the block holds a tree, its leaves are childless, and the code table is the tree's. -/
theorem Inv.exists_tree {s : State} (h : Inv s) (htv : s.tv = true) :
    ∃ t, s.tree? = some t ∧ ChildlessLeaves s.node ∧
      ∀ x < s.params.nsym, Mem.read s.code x = t.codeTable.lookup x := by
  obtain ⟨-, -, -, hshapes, -, ⟨t, ht, hcode⟩, -, -⟩ := h.treeInv htv
  exact ⟨t, ht, hshapes.childlessLeaves, hcode⟩

/-- R27: a symbol outside the alphabet has no code. -/
theorem CodeInv.read_of_nsym_le {s : State} (h : CodeInv s) {x : Nat} (hx : s.params.nsym ≤ x) :
    Mem.read s.code x = none := by
  obtain ⟨-, hentries⟩ := h
  refine Option.eq_none_iff_forall_ne_some.mpr fun q hq => ?_
  obtain ⟨hlt, -⟩ := hentries (x, q) (Mem.mem_of_read hq)
  exact absurd hlt (Nat.not_lt.mpr hx)

/-- CODE is canonical, so two blocks over one alphabet whose symbols have the same codes hold the same code table. -/
theorem CodeInv.code_ext {s₁ s₂ : State} (h₁ : CodeInv s₁) (h₂ : CodeInv s₂) (hp : s₁.params = s₂.params)
    (h : ∀ x < s₁.params.nsym, Mem.read s₁.code x = Mem.read s₂.code x) : s₁.code = s₂.code := by
  refine Mem.ext_of_sorted h₁.1 h₂.1 fun x => ?_
  rcases Nat.lt_or_ge x s₁.params.nsym with hx | hx
  · exact h x hx
  · rw [h₁.read_of_nsym_le hx, h₂.read_of_nsym_le (hp ▸ hx)]

/-! ### Decoding and serializing over the abstract tree (44_decoder.md R150, R151; 45_persistence.md R171) -/

/-- decode over an abstract tree: the walk of a path (R150), with the virtual root of a one-leaf tree (R151). -/
def SymTree.decode (t : SymTree) (q : BitPath) : DecodeResult :=
  match t with
  | .leaf _ x =>
    match q with
    | [] => .incompletePath
    | [false] => .symbol x
    | _ => .deadEnd
  | .branch _ _ _ => t.walkPath q

/-- The decode function of R150 on NODE is decode over the tree NODE holds. -/
theorem decodePath_eq_decode {m : Mem Node} (hc : ChildlessLeaves m) {d root : Nat} {t : SymTree}
    (h : treeAt d m root = some t) (q : BitPath) : decodePath m root q = some (t.decode q) := by
  cases d with
  | zero => simp [treeAt] at h
  | succ d =>
    have hdesc := descend_eq_walkPath hc h q
    rcases treeAt_succ_some.mp h with ⟨n, x, hn, hx, rfl⟩ | ⟨n, l, r, a, b, hn, hx, -, -, -, -, rfl⟩
    · simp only [decodePath, hn, hx]
      match q with
      | [] | [false] | [true] | false :: _ :: _ | true :: _ :: _ => rfl
    · simpa only [decodePath, hn, hx, SymTree.decode] using hdesc

/-- With a tree, SER answers its key record and writes nothing else (R171). -/
theorem exec_ser_of_tree {s : State} {t : SymTree} (htv : s.tv = true) (ht : s.tree? = some t) :
    exec .ser s = .next { s with rsp := s.rsp ++ words t.records ++ [statusWord .ok] } :=
  execSer_next_iff.mpr (.inr ⟨htv, t, ht, rfl⟩)

/-! ### What is read of a tree is read of its shape (00_scope.md R12) -/

namespace SymTree

theorem shape_walkPath (t : SymTree) (q : BitPath) : t.shape.walkPath q = t.walkPath q := by
  induction t generalizing q with
  | leaf f x => cases q <;> rfl
  | branch f l r ihl ihr =>
    cases q with
    | nil => rfl
    | cons b q => simp [shape, walkPath, ihl, ihr]

theorem shape_decode (t : SymTree) (q : BitPath) : t.shape.decode q = t.decode q := by
  cases t with
  | leaf f x => rfl
  | branch f l r => exact shape_walkPath (branch f l r) q

theorem decode_congr_shape {t u : SymTree} (h : t.shape = u.shape) (q : BitPath) : t.decode q = u.decode q := by
  rw [← shape_decode t, h, shape_decode]

theorem codeTable_congr_shape {t u : SymTree} (h : t.shape = u.shape) : t.codeTable = u.codeTable := by
  rw [← shape_codeTable t, h, shape_codeTable]

theorem records_congr_shape {t u : SymTree} (h : t.shape = u.shape) : t.records = u.records := by
  rw [← shape_records t, h, shape_records]

end SymTree

/-- Settles O58: CODE, the decode function and the SER record are each a function of the tree at ROOT, and each of the
three functions gives the same on trees of equal shape. -/
theorem answersDependOnTheTreeShapeOnly : Obligations.AnswersDependOnTheTreeShapeOnly := by
  unfold Obligations.AnswersDependOnTheTreeShapeOnly
  intro s₁ s₂ h₁ h₂ htv₁ htv₂ hp hshapes
  obtain ⟨t₁, ht₁, hleaves₁, hcode₁⟩ := h₁.exists_tree htv₁
  obtain ⟨t₂, ht₂, hleaves₂, hcode₂⟩ := h₂.exists_tree htv₂
  have hshape : t₁.shape = t₂.shape := by simpa [ht₁, ht₂] using hshapes
  refine ⟨h₁.codeInv.code_ext h₂.codeInv hp fun x hx => ?_, fun q => ?_, words t₁.records,
    exec_ser_of_tree htv₁ ht₁, ?_⟩
  · rw [hcode₁ x hx, hcode₂ x (hp ▸ hx), SymTree.codeTable_congr_shape hshape]
  · rw [decodePath_eq_decode hleaves₁ ht₁, decodePath_eq_decode hleaves₂ ht₂, SymTree.decode_congr_shape hshape]
  · rw [SymTree.records_congr_shape hshape]
    exact exec_ser_of_tree htv₂ ht₂

end Sys2Proof.Machine
end

section
/-!
PROOFS. The statements of 10_state.md about what a command writes: the access table (R31), the tree that no command
changes before it ends (R36), and the failed sessions that last (R33).
-/

namespace Sys2Proof.Machine

/-! ### The access table (10_state.md R31) -/

/-- LLEAF and LBR write NN, NODE and the registers of the load session. -/
theorem loadNode_writes {x : Option Nat} {s t : State} (h : loadNode x s = .next t) :
    t = { s with
      nn := t.nn, node := t.node, lst := t.lst, ldone := t.ldone, lstk := t.lstk, lseen := t.lseen, rsp := t.rsp } := by
  rcases loadNode_next_iff.mp h with ⟨-, rfl⟩ | ⟨-, rfl⟩ | ⟨-, -, rfl⟩ | ⟨-, -, u, hu, rfl⟩
  · rfl
  · rfl
  · rfl
  · obtain ⟨m, stk, -, -, rfl⟩ := takeRecord_ok_iff.mp hu
    rfl

/-- A branch record carries no symbol, and the branch it makes waits for its children: LBR writes neither LSEEN nor
LDONE. -/
theorem loadNode_none_keeps {s t : State} (h : loadNode none s = .next t) :
    t.ldone = s.ldone ∧ t.lseen = s.lseen := by
  rcases loadNode_next_iff.mp h with ⟨-, rfl⟩ | ⟨-, rfl⟩ | ⟨-, -, rfl⟩ | ⟨-, -, u, hu, rfl⟩
  · exact ⟨rfl, rfl⟩
  · exact ⟨rfl, rfl⟩
  · exact ⟨rfl, rfl⟩
  · obtain ⟨m, stk, -, -, rfl⟩ := takeRecord_ok_iff.mp hu
    exact ⟨Bool.or_false _, rfl⟩

/-- The cursor of the decoder moves and nothing else does. -/
theorem stepCursor_writes {b : Bool} {s t : State} (h : stepCursor b s = .ok t) :
    t = { s with dst := t.dst, dcur := t.dcur } := by
  rcases stepCursor_ok_iff.mp h with ⟨-, rfl⟩ | ⟨-, rfl⟩ | ⟨-, n, -, ⟨-, rfl⟩ | ⟨j, -, rfl⟩⟩ <;> rfl

/-- Settles O48: row by row of the table of R31, each case of a command's inversion lemma names all it writes. -/
theorem commandsWriteOnlyTheirColumns : Obligations.CommandsWriteOnlyTheirColumns := by
  unfold Obligations.CommandsWriteOnlyTheirColumns
  intro i s t h
  cases i with
  | fclr => obtain rfl := execFclr_next_iff.mp h; rfl
  | fsym x => obtain ⟨-, ⟨-, rfl⟩ | ⟨-, -, -, rfl⟩⟩ := execFsym_next_iff.mp h <;> rfl
  | build =>
    rcases execBuild_next_iff.mp h with ⟨-, rfl⟩ | ⟨-, -, rfl⟩ | ⟨-, -, u, hu, rfl⟩
    · rfl
    · rfl
    · obtain ⟨m, r, code, -, -, rfl⟩ := buildSteps_ok_iff.mp hu
      rfl
  | enc x => obtain ⟨-, ⟨-, rfl⟩ | ⟨-, -, rfl⟩ | ⟨-, q, -, rfl⟩⟩ := execEnc_next_iff.mp h <;> rfl
  | dbeg => obtain ⟨-, rfl⟩ | ⟨-, n, -, rfl⟩ := execDbeg_next_iff.mp h <;> rfl
  | dbit b =>
    rcases execDbit_next_iff.mp h with ⟨-, rfl⟩ | ⟨-, u, hu, rfl⟩
    · rfl
    · rw [stepCursor_writes hu]
      rfl
  | dend =>
    rcases execDend_next_iff.mp h with ⟨-, rfl⟩ | ⟨-, rfl⟩ | ⟨-, rfl⟩ | ⟨-, n, -, ⟨-, rfl⟩ | ⟨x, -, rfl⟩⟩ <;> rfl
  | ser => obtain ⟨-, rfl⟩ | ⟨-, u, -, rfl⟩ := execSer_next_iff.mp h <;> rfl
  | lbeg => obtain rfl := execLbeg_next_iff.mp h; rfl
  | lleaf x => exact loadNode_writes (execLleaf_next_iff.mp h).2
  | lbr =>
    obtain ⟨hldone, hlseen⟩ := loadNode_none_keeps h
    have hw := loadNode_writes h
    rwa [hldone, hlseen] at hw
  | lend =>
    rcases execLend_next_iff.mp h with ⟨-, rfl⟩ | ⟨-, -, rfl⟩ | ⟨-, -, u, hu, rfl⟩
    · rfl
    · rfl
    · obtain ⟨code, -, rfl⟩ := finishLoad_ok_iff.mp hu
      rfl
  | drop => obtain rfl := execDrop_next_iff.mp h; rfl

/-! ### A tree is read-only until it ends (10_state.md R36) -/

/-- TV, NODE, ROOT, NN and CODE are in t as in s: the tree is the same, entry by entry. -/
def SameTree (s t : State) : Prop :=
  t.tv = s.tv ∧ t.node = s.node ∧ t.root = s.root ∧ t.nn = s.nn ∧ t.code = s.code

/-- Only BUILD, DROP and the commands of a load session have a column of the tree in their row of R31. -/
theorem OnlyTabledStateWritten.sameTree {i : Instr} {s t : State} (h : OnlyTabledStateWritten s t i) :
    SameTree s t ∨ i = .build ∨ i = .drop ∨ i = .lbeg ∨ (∃ x, i = .lleaf x) ∨ i = .lbr ∨ i = .lend := by
  cases i with
  | build | drop | lbeg | lleaf | lbr | lend => simp
  | fclr | fsym | enc | dbeg | dbit | dend | ser =>
    left
    unfold OnlyTabledStateWritten at h
    rw [h]
    exact ⟨rfl, rfl, rfl, rfl, rfl⟩

/-- With no load session open, a record is answered with BadState. -/
theorem loadNode_of_idle {x : Option Nat} {s t : State} (hl : s.lst = .idle) (h : loadNode x s = .next t) :
    t = raise .badState s := by
  simpa [loadNode_next_iff, hl] using h

/-- With no load session open, LEND is answered with BadState. -/
theorem execLend_of_idle {s t : State} (hl : s.lst = .idle) (h : execLend s = .next t) : t = raise .badState s := by
  simpa [execLend_next_iff, hl] using h

/-- A refused command keeps the tree. -/
theorem sameTree_raise (c : Status) (s : State) : SameTree s (raise c s) := ⟨rfl, rfl, rfl, rfl, rfl⟩

/-- BUILD keeps the tree or answers OK. -/
theorem execBuild_sameTree_or_ok {s t : State} (h : execBuild s = .next t) :
    SameTree s t ∨ t.rsp = s.rsp ++ [statusWord .ok] := by
  rcases execBuild_next_iff.mp h with ⟨-, rfl⟩ | ⟨-, -, rfl⟩ | ⟨-, -, u, hu, rfl⟩
  · exact .inl (sameTree_raise _ _)
  · exact .inl (sameTree_raise _ _)
  · obtain ⟨m, r, code, -, -, rfl⟩ := buildSteps_ok_iff.mp hu
    exact .inr rfl

/-- Settles O49: the access table leaves BUILD, DROP and the load commands; a tree shuts out a load session (R30 item
2), so LLEAF, LBR and LEND are refused. -/
theorem treeIsReadOnlyUntilItEnds : Obligations.TreeIsReadOnlyUntilItEnds := by
  unfold Obligations.TreeIsReadOnlyUntilItEnds
  intro i s t hinv htv h
  obtain ⟨hidle, -⟩ := hinv.treeInv htv
  suffices hs : SameTree s t ∨ i = .drop ∨ i = .lbeg ∨ (i = .build ∧ t.rsp = s.rsp ++ [statusWord .ok]) by
    refine hs.imp_left fun ⟨htv', hrest⟩ => ⟨htv'.trans htv, hrest⟩
  rcases (commandsWriteOnlyTheirColumns i s t h).sameTree with hs | rfl | rfl | rfl | ⟨x, rfl⟩ | rfl | rfl
  · exact .inl hs
  · exact (execBuild_sameTree_or_ok h).imp_right fun hok => .inr (.inr ⟨rfl, hok⟩)
  · exact .inr (.inl rfl)
  · exact .inr (.inr (.inl rfl))
  · obtain rfl := loadNode_of_idle hidle (execLleaf_next_iff.mp h).2
    exact .inl (sameTree_raise _ _)
  · obtain rfl := loadNode_of_idle hidle h
    exact .inl (sameTree_raise _ _)
  · obtain rfl := execLend_of_idle hidle h
    exact .inl (sameTree_raise _ _)

/-! ### Failed sessions last (10_state.md R33) -/

/-- A bit does not bring a dead decode session back. -/
theorem execDbit_of_dead {b : Bool} {s t : State} (hd : s.dst = .dead) (h : execDbit b s = .next t) :
    t.dst = .dead := by
  rcases execDbit_next_iff.mp h with ⟨-, rfl⟩ | ⟨-, u, hu, rfl⟩
  · exact hd
  · obtain rfl : u = s := by simpa [stepCursor_ok_iff, hd] using hu
    exact hd

/-- A record does not bring a bad load session back. -/
theorem loadNode_of_bad {x : Option Nat} {s t : State} (hl : s.lst = .bad) (h : loadNode x s = .next t) :
    t.lst = .bad := by
  obtain rfl : t = done s := by simpa [loadNode_next_iff, hl] using h
  exact hl

/-- A dead decode session outlasts every command that does not end or restart it. -/
theorem dead_lasts {i : Instr} {s t : State} (h : exec i s = .next t) (hd : s.dst = .dead) (ht : t.dst ≠ .dead) :
    i = .dend ∨ i = .dbeg ∨ i = .build ∨ i = .drop ∨ i = .lbeg := by
  have hw := commandsWriteOnlyTheirColumns i s t h
  cases i with
  | dend | dbeg | build | drop | lbeg => simp
  | dbit b => exact absurd (execDbit_of_dead hd h) ht
  | fclr | fsym | enc | ser | lleaf | lbr | lend =>
    unfold OnlyTabledStateWritten at hw
    rw [hw] at ht
    exact absurd hd ht

/-- A bad load session outlasts every command that does not end or restart it. -/
theorem bad_lasts {i : Instr} {s t : State} (h : exec i s = .next t) (hl : s.lst = .bad) (ht : t.lst ≠ .bad) :
    i = .lend ∨ i = .lbeg ∨ i = .drop := by
  have hw := commandsWriteOnlyTheirColumns i s t h
  cases i with
  | lend | lbeg | drop => simp
  | lleaf x => exact absurd (loadNode_of_bad hl (execLleaf_next_iff.mp h).2) ht
  | lbr => exact absurd (loadNode_of_bad hl h) ht
  | fclr | fsym | build | enc | dbeg | dbit | dend | ser =>
    unfold OnlyTabledStateWritten at hw
    rw [hw] at ht
    exact absurd hl ht

/-- Settles O50: of the commands that may outlive a failed session, R31 lets only DBIT write DST, and DBIT keeps DEAD;
only LLEAF and LBR write LST, and they keep BAD. -/
theorem failedSessionsAreSticky : Obligations.FailedSessionsAreSticky := by
  unfold Obligations.FailedSessionsAreSticky
  exact fun i s t h => ⟨dead_lasts h, bad_lasts h⟩

end Sys2Proof.Machine
end

section
/-!
PROOFS. Every step keeps the invariant of 10_state.md R30, in the commands that neither make a tree nor load one: the
streams, the Frequency Table, the decode session, and the block emptied of its tree.
-/

namespace Sys2Proof.Machine

/-! ### What an operation on one part of the state has to keep -/

/-- The invariant does not read the two streams. -/
theorem Inv.streams {s : State} (h : Inv s) (cs rs : List Word) : Inv { s with cmds := cs, rsp := rs } := h

/-- A new Frequency Table has to keep item 1 of R30 only. -/
theorem Inv.table {s : State} (h : Inv s) {f : Mem Nat} {n : Nat} (hf : FreqInv { s with freq := f, ftotal := n }) :
    Inv { s with freq := f, ftotal := n } := by
  obtain ⟨hp, -, hrest⟩ := h
  exact ⟨hp, hf, hrest⟩

/-- A move of the decode session has to keep items 5 and 6 of R30 only. -/
theorem Inv.decoding {s : State} (h : Inv s) {d : DecState} {c : Nat} (hd : DecodeInv { s with dst := d, dcur := c }) :
    Inv { s with dst := d, dcur := c } := by
  obtain ⟨hp, hf, hnode, hcode, hload, -, hrest⟩ := h
  exact ⟨hp, hf, hnode, hcode, hload, hd, hrest⟩

/-! ### The Frequency Table (R30 item 1, R26) -/

/-- The empty table counts no symbol. -/
theorem freqInv_of_empty {s : State} (hf : s.freq = []) (hn : s.ftotal = 0) : FreqInv s := by
  simp [FreqInv, hf, hn, Mem.sorted_nil, List.sum_eq_zero]

/-- One more occurrence of x adds one to the sum of the counts. -/
theorem sum_readFreq_count (f : Mem Nat) {x n : Nat} (hx : x < n) :
    ((List.range n).map (readFreq (writeFreq f x (readFreq f x + 1)))).sum =
      ((List.range n).map (readFreq f)).sum + 1 := by
  have hmem : x ∈ List.range n := List.mem_range.mpr hx
  have hothers : ((List.range n).erase x).map (readFreq (writeFreq f x (readFreq f x + 1))) =
      ((List.range n).erase x).map (readFreq f) := by
    refine List.map_congr_left fun y hy => readFreq_writeFreq_ne f _ ?_
    exact (List.nodup_range.mem_erase_iff.mp hy).1
  rw [← List.sum_map_erase _ hmem, ← List.sum_map_erase (readFreq f) hmem, hothers, readFreq_writeFreq_same]
  omega

/-- FSYM keeps FTOTAL the sum of FREQ (R102). -/
theorem FreqInv.count {s : State} (h : FreqInv s) {x : Nat} (hx : x < s.params.nsym)
    (hn : s.ftotal + 1 ≤ s.params.freqMax) :
    FreqInv { s with freq := writeFreq s.freq x (readFreq s.freq x + 1), ftotal := s.ftotal + 1 } := by
  obtain ⟨hsorted, hentries, htotal, -⟩ := h
  have hzero := writeFreq_noZero (fun e he => (hentries e he).2) x (readFreq s.freq x + 1)
  refine ⟨sorted_writeFreq hsorted x (readFreq s.freq x + 1), fun e he => ⟨?_, hzero e he⟩, ?_, hn⟩
  · rw [writeFreq, if_neg (Nat.succ_ne_zero _)] at he
    rcases Mem.mem_write he with rfl | he
    · exact hx
    · exact (hentries e he).1
  · exact (congrArg (· + 1) htotal).trans (sum_readFreq_count s.freq hx).symm

theorem execFclr_keeps_inv {s t : State} (h : Inv s) (ht : execFclr s = .next t) : Inv t := by
  obtain rfl := execFclr_next_iff.mp ht
  exact (h.table (freqInv_of_empty rfl rfl)).streams _ _

theorem execFsym_keeps_inv {x : Nat} {s t : State} (h : Inv s) (ht : execFsym x s = .next t) : Inv t := by
  obtain ⟨-, hf, -⟩ := id h
  obtain ⟨hx, ⟨-, rfl⟩ | ⟨-, -, hn, rfl⟩⟩ := execFsym_next_iff.mp ht
  · exact h.streams _ _
  · exact (h.table (hf.count hx hn)).streams _ _

/-! ### The decode session (R30 items 5 and 6) -/

/-- No decode session: nothing is asked of the cursor. -/
theorem Inv.closeDecode {s : State} (h : Inv s) : Inv (closeDecode s) :=
  h.decoding ⟨fun _ => rfl, fun _ => rfl, nofun, fun hd => absurd rfl hd⟩

/-- A session that is open and off the virtual root: its cursor names an allocated entry. -/
theorem Inv.decodeAt {s : State} (h : Inv s) (htv : s.tv = true) {d : DecState} {c : Nat} (hidle : d ≠ .idle)
    (hroot : d ≠ .vroot) (hc : c < s.nn) : Inv { s with dst := d, dcur := c } :=
  h.decoding ⟨fun hf => absurd (htv.symm.trans hf) nofun, fun hd => absurd hd hidle, fun hd => absurd hd hroot,
    fun _ => hc⟩

/-- An open decode session has a tree, and its cursor names an allocated entry of it. -/
theorem Inv.open_decode {s : State} (h : Inv s) (hd : s.dst ≠ .idle) : s.tv = true ∧ s.dcur < s.nn := by
  obtain ⟨-, -, -, -, -, ⟨htree, -, -, hcur⟩, -⟩ := h
  exact ⟨by simpa using mt htree hd, hcur hd⟩

/-- The children of an allocated entry are allocated (R22, R23). -/
theorem Inv.child_lt {s : State} (h : Inv s) {i j : Nat} {n : Node} {b : Bool} (hn : Mem.read s.node i = some n)
    (hj : n.child b = some j) : j < s.nn := by
  obtain ⟨-, -, ⟨-, -, hentries⟩, -⟩ := h
  obtain ⟨-, -, hleft, hright⟩ := hentries _ (Mem.mem_of_read hn)
  cases b with
  | false => exact hleft j hj
  | true => exact hright j hj

theorem execDbeg_keeps_inv {s t : State} (h : Inv s) (ht : execDbeg s = .next t) : Inv t := by
  rcases execDbeg_next_iff.mp ht with ⟨-, rfl⟩ | ⟨htv, n, hn, rfl⟩
  · exact h.streams _ _
  · obtain ⟨-, -, hroot, hshapes, -⟩ := h.treeInv htv
    cases hsym : n.sym with
    | none => exact (h.decodeAt htv (by simp) (by simp) hroot).streams _ _
    | some x =>
      have hleaf : LeafEntry n := ⟨by simp [hsym], hshapes.childlessLeaves _ _ _ hn hsym⟩
      exact (h.decoding (d := .vroot) ⟨fun hf => absurd (htv.symm.trans hf) nofun, nofun, fun _ => ⟨rfl, n, hn, hleaf⟩,
        fun _ => hroot⟩).streams _ _

/-- One bit keeps the decode session on an entry of the tree (R153). -/
theorem stepCursor_keeps_inv {b : Bool} {s t : State} (h : Inv s) (hd : s.dst ≠ .idle) (ht : stepCursor b s = .ok t) :
    Inv t := by
  obtain ⟨htv, hcur⟩ := h.open_decode hd
  rcases stepCursor_ok_iff.mp ht with ⟨-, rfl⟩ | ⟨-, rfl⟩ | ⟨hat, n, hn, ⟨-, rfl⟩ | ⟨j, hj, rfl⟩⟩
  · exact h
  · exact h.decodeAt htv (by cases b <;> simp) (by cases b <;> simp) hcur
  · exact h.decodeAt htv nofun nofun hcur
  · exact h.decodeAt htv hd (by simp [hat]) (h.child_lt hn hj)

theorem execDbit_keeps_inv {b : Bool} {s t : State} (h : Inv s) (ht : execDbit b s = .next t) : Inv t := by
  rcases execDbit_next_iff.mp ht with ⟨-, rfl⟩ | ⟨hd, u, hu, rfl⟩
  · exact h.streams _ _
  · exact (stepCursor_keeps_inv h hd hu).streams _ _

theorem execDend_keeps_inv {s t : State} (h : Inv s) (ht : execDend s = .next t) : Inv t := by
  rcases execDend_next_iff.mp ht with ⟨-, rfl⟩ | ⟨-, rfl⟩ | ⟨-, rfl⟩ | ⟨-, n, -, ⟨-, rfl⟩ | ⟨x, -, rfl⟩⟩
  · exact h.streams _ _
  all_goals exact h.closeDecode.streams _ _

/-! ### ENC and SER only answer -/

theorem execEnc_keeps_inv {x : Nat} {s t : State} (h : Inv s) (ht : execEnc x s = .next t) : Inv t := by
  obtain ⟨-, ⟨-, rfl⟩ | ⟨-, -, rfl⟩ | ⟨-, q, -, rfl⟩⟩ := execEnc_next_iff.mp ht <;> exact h.streams _ _

theorem execSer_keeps_inv {s t : State} (h : Inv s) (ht : execSer s = .next t) : Inv t := by
  obtain ⟨-, rfl⟩ | ⟨-, u, -, rfl⟩ := execSer_next_iff.mp ht <;> exact h.streams _ _

/-! ### The block emptied of its tree (R30 items 4, 7 and 8) -/

/-- No node is allocated and no session holds anything; LST may be any. -/
structure Treeless (s : State) : Prop where
  tv : s.tv = false
  root : s.root = 0
  nn : s.nn = 0
  node : s.node = []
  code : s.code = []
  dst : s.dst = .idle
  dcur : s.dcur = 0
  ldone : s.ldone = false
  lstk : s.lstk = []
  lseen : s.lseen = []

theorem Treeless.inv {s : State} (h : Treeless s) (hp : s.params.Ok) (hf : FreqInv s) : Inv s := by
  obtain ⟨htv, hroot, hnn, hnode, hcode, hdst, hdcur, hldone, hlstk, hlseen⟩ := h
  refine ⟨hp, hf, ?_, ?_, ?_, ?_, ?_, fun ht => absurd (htv.symm.trans ht) nofun, fun _ => ?_⟩
  · simp [NodeInv, hnode, hnn]
  · simp [CodeInv, hcode, Mem.sorted_nil]
  · simp [LoaderInv, hlstk, hlseen, Mem.sorted_nil]
  · simp [DecodeInv, hdst, hdcur]
  · simp [SessionInv, htv, hroot, hcode, hnn, hldone, hlstk, hlseen]
  · simp [LoadingInv, hnode, hnn, hldone, hlstk, hlseen, leafSyms]

theorem execDrop_keeps_inv {s t : State} (h : Inv s) (ht : execDrop s = .next t) : Inv t := by
  obtain ⟨hp, hf, -⟩ := h
  obtain rfl := execDrop_next_iff.mp ht
  exact Treeless.inv ⟨rfl, rfl, rfl, rfl, rfl, rfl, rfl, rfl, rfl, rfl⟩ hp hf

theorem execLbeg_keeps_inv {s t : State} (h : Inv s) (ht : execLbeg s = .next t) : Inv t := by
  obtain ⟨hp, hf, -⟩ := h
  obtain rfl := execLbeg_next_iff.mp ht
  exact Treeless.inv ⟨rfl, rfl, rfl, rfl, rfl, rfl, rfl, rfl, rfl, rfl⟩ hp hf

end Sys2Proof.Machine
end

section
/-!
PROOFS. The two commands that make a tree, BUILD and LEND, keep the invariant of 10_state.md R30: a node memory in which
children stand on one side of their parents and every index but the root is a child once is the tree of items 2 and 3,
and the Code Table Generator gives it its codes.
-/

namespace Sys2Proof.Machine

/-! ### What the Code Table Generator leaves (42_code_table.md R130, R131; 10_state.md R27, R28) -/

theorem mem_recordAll {code : Mem BitPath} {es : List (Nat × BitPath)} {e : Nat × BitPath}
    (h : e ∈ recordAll code es) : e ∈ code ∨ e ∈ es := by
  induction es generalizing code with
  | nil => exact .inl h
  | cons d es ih =>
    rcases ih h with h | h
    · rcases Mem.mem_write h with rfl | h
      · exact .inr List.mem_cons_self
      · exact .inl h
    · exact .inr (List.mem_cons_of_mem _ h)

/-- Recorded leaves with pairwise distinct symbols read as they are looked up in their list. -/
theorem read_recordAll {code : Mem BitPath} {es : List (Nat × BitPath)} (hd : (es.map Prod.fst).Nodup) (x : Nat) :
    Mem.read (recordAll code es) x = (es.lookup x).or (Mem.read code x) := by
  induction es generalizing code with
  | nil => rfl
  | cons e es ih =>
    obtain ⟨y, q⟩ := e
    by_cases hxy : x = y
    · subst hxy
      rw [read_recordAll_of_mem hd List.mem_cons_self, List.lookup_cons_self]
      rfl
    · show Mem.read (recordAll (Mem.write code y q) es) x = _
      rw [ih (List.nodup_cons.mp hd).2, Mem.read_write_ne _ _ hxy, List.lookup_cons, beq_false_of_ne hxy]

/-- A code is not empty, and a tree of n leaves has no code of more than max 1 (n - 1) bits (10_state.md R27). -/
theorem SymTree.codeTable_length (t : SymTree) :
    ∀ e ∈ t.codeTable, 1 ≤ e.2.length ∧ e.2.length ≤ max 1 (t.syms.length - 1) := by
  intro e he
  cases t with
  | leaf f x =>
    obtain rfl := List.mem_singleton.mp he
    exact ⟨Nat.le_refl _, Nat.le_max_left _ _⟩
  | branch f l r =>
    have hlt := (branch f l r).paths_length_lt e he
    have hheight := (branch f l r).height_le
    have hpos : 1 ≤ e.2.length := by
      rcases List.mem_append.mp he with he | he <;> obtain ⟨d, -, rfl⟩ := List.mem_map.mp he <;> simp
    omega

/-- The code table of a tree over the alphabet meets R27. -/
theorem codeInv_of_tree {s : State} {t : SymTree} (hd : t.syms.Nodup) (hlt : ∀ x ∈ t.syms, x < s.params.nsym)
    (hcode : s.code = recordAll [] t.codeTable) : CodeInv s := by
  rw [CodeInv, hcode]
  refine ⟨recordAll_sorted Mem.sorted_nil _, fun e he => ?_⟩
  have he : e ∈ t.codeTable := (mem_recordAll he).resolve_left List.not_mem_nil
  have hsym : e.1 ∈ t.syms := t.codeTable_syms ▸ List.mem_map_of_mem he
  have hlen : t.syms.length ≤ s.params.nsym := length_le_of_nodup hd hlt
  obtain ⟨hpos, hmax⟩ := t.codeTable_length e he
  refine ⟨hlt _ hsym, hpos, hmax.trans ?_⟩
  unfold Params.maxPath
  omega

/-! ### What NODE holds within its widths (10_state.md R22, R23) -/

theorem NodeInv.leafSyms_lt {s : State} (h : NodeInv s) : ∀ x ∈ leafSyms s.node, x < s.params.nsym := by
  obtain ⟨-, -, hentries⟩ := h
  intro x hx
  obtain ⟨e, he, hsym⟩ := List.mem_filterMap.mp hx
  obtain ⟨-, hlt, -⟩ := hentries e he
  exact hlt x hsym

theorem NodeInv.childRefs_lt {s : State} (h : NodeInv s) : ∀ c ∈ childRefs s.node, c < s.nn := by
  obtain ⟨-, -, hentries⟩ := h
  intro c hc
  obtain ⟨e, he, hc⟩ := List.mem_flatMap.mp hc
  obtain ⟨-, -, hleft, hright⟩ := hentries e he
  rcases List.mem_append.mp hc with hc | hc
  · exact hleft c (Option.mem_toList.mp hc)
  · exact hright c (Option.mem_toList.mp hc)

/-! ### A new tree (R30 items 2 and 3) -/

/-- What BUILD and LEND leave: a ranked memory with one root and pairwise distinct symbols, its codes generated, and no
session open. -/
structure NewTree (rank : Nat → Nat) (s : State) : Prop where
  tv : s.tv = true
  dst : s.dst = .idle
  dcur : s.dcur = 0
  lst : s.lst = .idle
  ldone : s.ldone = false
  lstk : s.lstk = []
  lseen : s.lseen = []
  nodes : NodeInv s
  ranked : Ranked rank s.nn s.node
  shapes : NodeShapes s
  root : s.root < s.nn
  single : ∀ i < s.nn, (childRefs s.node).count i = if i = s.root then 0 else 1
  distinct : (leafSyms s.node).Nodup
  codes : generateCodes s.params s.node s.root = .ok s.code

/-- The tree and its codes are those of R24, R25, R27 and R28. -/
theorem NewTree.tree {rank : Nat → Nat} {s : State} (h : NewTree rank s) (hp : s.params.Ok) :
    TreeInv s ∧ CodeInv s := by
  have hlt := h.nodes.leafSyms_lt
  obtain ⟨t, ht, hreach, hsyms, hsize⟩ := h.ranked.isTree hp h.nodes.1 h.root h.single h.distinct hlt
  obtain ⟨t', ht', -, hcode⟩ := generateCodes_ok_iff.mp h.codes
  obtain rfl : t = t' := Option.some.inj (ht.symm.trans ht')
  have hd : t.syms.Nodup := hsyms.nodup_iff.mpr h.distinct
  have hcount := t.size_add_one
  rw [hsize, hsyms.length_eq] at hcount
  have hmatches : CodeMatchesTree s := by
    refine ⟨t, ht, fun x _ => ?_⟩
    rw [hcode, read_recordAll (t.codeTable_syms ▸ hd), Mem.read_nil, Option.or_none]
  exact ⟨⟨h.lst, by omega, h.root, h.shapes, ⟨h.single, h.nodes.childRefs_lt, hreach⟩, hmatches, h.distinct, by omega⟩,
    codeInv_of_tree hd (fun x hx => hlt x (hsyms.mem_iff.mp hx)) hcode⟩

theorem NewTree.inv {rank : Nat → Nat} {s : State} (h : NewTree rank s) (hp : s.params.Ok) (hf : FreqInv s) :
    Inv s := by
  obtain ⟨htree, hcode⟩ := h.tree hp
  refine ⟨hp, hf, h.nodes, hcode, ?_, ?_, ?_, fun _ => htree, fun hl => absurd (h.lst.symm.trans hl) nofun⟩
  · simp [LoaderInv, h.lstk, h.lseen, Mem.sorted_nil]
  · simp [DecodeInv, h.tv, h.dst, h.dcur]
  · simp [SessionInv, h.tv, h.lst, h.ldone, h.lstk, h.lseen]

/-! ### BUILD (41_tree_builder.md R110) -/

/-- BUILD's branches stand above their children. -/
theorem Forest.ranked {xs : List Nat} {total next : Nat} {m : Mem Node} {q : List Key} (h : Forest xs total m q next) :
    Ranked id next m := by
  intro e he
  have hlt : e.1 < next := List.mem_range.mp (h.keys ▸ List.mem_map_of_mem he)
  refine (h.shapes e he).imp_right fun ⟨hsym, l, r, a, b, hleft, hright, hl, hr, _⟩ => ?_
  exact ⟨hsym, l, r, hleft, hright, by omega, by omega, hl, hr⟩

/-- In a forest with one root every other index is a child once (R25). -/
theorem Forest.single_of_root {xs : List Nat} {total next : Nat} {m : Mem Node} {k : Key}
    (h : Forest xs total m [k] next) : ∀ i < next, (childRefs m).count i = if i = k.2 then 0 else 1 := by
  intro i hi
  rw [h.single i hi]
  simp

/-- The entries of a forest over symbols of the alphabet fit their widths (R120). -/
theorem Forest.nodeInv {s : State} {xs : List Nat} {total : Nat} {q : List Key} (h : Forest xs total s.node q s.nn)
    (hcap : s.nn ≤ s.params.nodeCap) (htotal : total ≤ s.params.freqMax) (hlt : ∀ x ∈ xs, x < s.params.nsym) :
    NodeInv s := by
  refine ⟨h.keys, hcap, fun e he => ⟨(h.bounded e he).trans htotal, fun x hx => ?_, ?_⟩⟩
  · exact hlt x (h.leaves ▸ List.mem_filterMap.mpr ⟨e, he, hx⟩)
  · rcases h.ranked e he with ⟨-, hleft, hright⟩ | ⟨-, l, r, hleft, hright, hl, hr, -⟩
    · simp [hleft, hright]
    · simpa [hleft, hright] using ⟨hl, hr⟩

theorem Forest.nodeShapes {s : State} {xs : List Nat} {total : Nat} {q : List Key} (h : Forest xs total s.node q s.nn) :
    NodeShapes s := by
  intro e he
  refine (h.shapes e he).imp_right fun ⟨hsym, l, r, a, b, hleft, hright, _, _, ha, hb, hfreq⟩ => ?_
  exact ⟨hsym, l, hleft, r, hright, a, ha, b, hb, hfreq⟩

/-- What BUILD's steps leave is a new tree over the keys of the table. -/
theorem buildSteps_newTree {s t : State} (h : Inv s) (hl : s.lst = .idle) (ht : buildSteps s = .ok t) :
    NewTree id t := by
  obtain ⟨-, ⟨-, -, htotal, hmax⟩, -, -, -, -, ⟨-, -, -, hsession⟩, -⟩ := h
  obtain ⟨hldone, hlstk, hlseen⟩ := hsession hl
  obtain ⟨m, r, code, hbuild, hcode, rfl⟩ := buildSteps_ok_iff.mp ht
  obtain ⟨hr, hforest⟩ := buildTree_ok hbuild
  have hn : 2 * (tableSymbols s.params s.freq).length - 1 = r + 1 := by omega
  have hlen := tableSymbols_length_le s.params s.freq
  have hcap := s.params.nodeCap_eq
  rw [hn]
  rw [← htotal] at hforest
  exact {
    tv := rfl, dst := rfl, dcur := rfl, lst := hl, ldone := hldone, lstk := hlstk, lseen := hlseen
    nodes := Forest.nodeInv hforest (show r + 1 ≤ s.params.nodeCap by omega) hmax fun x hx => (mem_tableSymbols.mp hx).1
    ranked := hforest.ranked
    shapes := Forest.nodeShapes hforest
    root := Nat.lt_succ_self r
    single := hforest.single_of_root
    distinct := hforest.leaves ▸ (tableSymbols_sorted s.params s.freq).imp Nat.ne_of_lt
    codes := hcode }

theorem execBuild_keeps_inv {s t : State} (h : Inv s) (ht : execBuild s = .next t) : Inv t := by
  obtain ⟨hp, -⟩ := id h
  rcases execBuild_next_iff.mp ht with ⟨-, rfl⟩ | ⟨-, -, rfl⟩ | ⟨hl, -, u, hu, rfl⟩
  · exact h.streams _ _
  · exact h.streams _ _
  · have hnew := buildSteps_newTree h hl hu
    obtain ⟨m, r, code, -, -, rfl⟩ := buildSteps_ok_iff.mp hu
    exact (hnew.inv hp (freqInv_of_empty rfl rfl)).streams _ _

/-! ### LEND (45_persistence.md R176) -/

/-- When LSTK is empty, every branch of a load session has both its children, at larger indices. -/
theorem LoadingInv.complete {s : State} (h : LoadingInv s) (hstk : s.lstk = []) {e : Nat × Node} (he : e ∈ s.node) :
    LeafEntry e.2 ∨
      (e.2.sym = none ∧ ∃ l r, e.2.left = some l ∧ e.2.right = some r ∧ e.1 < l ∧ e.1 < r) := by
  obtain ⟨hentries, -⟩ := h
  obtain ⟨-, hshape, hleft, hright⟩ := hentries e he
  refine hshape.imp_right fun ⟨hsym, hwait⟩ => ⟨hsym, ?_⟩
  simp only [hstk, List.not_mem_nil, false_and, false_or, List.map_nil, not_false_eq_true, true_and] at hwait
  obtain ⟨⟨l, hl⟩, ⟨r, hr⟩⟩ := hwait.imp Option.isSome_iff_exists.mp Option.isSome_iff_exists.mp
  exact ⟨l, r, hl, hr, hleft l hl, hright r hr⟩

/-- The loader's branches stand below their children. -/
theorem LoadingInv.ranked {s : State} (h : LoadingInv s) (hnode : NodeInv s) (hstk : s.lstk = []) :
    Ranked (s.nn - ·) s.nn s.node := by
  obtain ⟨-, -, hwidths⟩ := hnode
  intro e he
  obtain ⟨-, -, hleft, hright⟩ := hwidths e he
  refine (h.complete hstk he).imp_right fun ⟨hsym, l, r, hl, hr, hel, her⟩ => ?_
  have := hleft l hl
  have := hright r hr
  exact ⟨hsym, l, r, hl, hr, by omega, by omega,
    Nat.sub_lt_sub_left (by omega) hel, Nat.sub_lt_sub_left (by omega) her⟩

/-- All frequencies of a load session are 0, and so are their sums (R24). -/
theorem LoadingInv.nodeShapes {s : State} (h : LoadingInv s) (hnode : NodeInv s) (hstk : s.lstk = []) :
    NodeShapes s := by
  obtain ⟨hkeys, -, hwidths⟩ := hnode
  have hread : ∀ i < s.nn, ∃ n, Mem.read s.node i = some n ∧ n.freq = 0 := fun i hi => by
    obtain ⟨n, hn⟩ := Option.isSome_iff_exists.mp ((Mem.read_isSome_of_keys_range hkeys i).mpr hi)
    exact ⟨n, hn, (h.1 _ (Mem.mem_of_read hn)).1⟩
  intro e he
  obtain ⟨-, -, hleft, hright⟩ := hwidths e he
  refine (h.complete hstk he).imp_right fun ⟨hsym, l, r, hl, hr, _⟩ => ?_
  obtain ⟨a, ha, hafreq⟩ := hread l (hleft l hl)
  obtain ⟨b, hb, hbfreq⟩ := hread r (hright r hr)
  exact ⟨hsym, l, hl, r, hr, a, ha, b, hb, by rw [(h.1 e he).1, hafreq, hbfreq]⟩

/-- The good end of a load session makes a new tree of its nodes. -/
theorem finishLoad_newTree {s t : State} (h : Inv s) (hl : s.lst = .active) (hdone : s.ldone = true)
    (ht : finishLoad s = .ok t) : NewTree (s.nn - ·) t := by
  obtain ⟨-, -, hnode, -, -, ⟨hnotree, hcur, -⟩, ⟨-, -, hload, -⟩, -, hloading⟩ := h
  have hloading := hloading hl
  obtain ⟨-, hsingle, hcomplete, -, hdistinct, -⟩ := id hloading
  obtain ⟨hnn, hstk⟩ := hcomplete.mp hdone
  have hdst := hnotree (hload (by simp [hl]))
  obtain ⟨code, hcode, rfl⟩ := finishLoad_ok_iff.mp ht
  exact {
    tv := rfl, dst := hdst, dcur := hcur hdst, lst := rfl, ldone := rfl, lstk := rfl, lseen := rfl
    nodes := hnode
    ranked := hloading.ranked hnode hstk
    shapes := hloading.nodeShapes hnode hstk
    root := hnn
    single := hsingle
    distinct := hdistinct
    codes := hcode }

/-- The bad end of a load session leaves no tree. -/
theorem treeless_of_malformed {s : State} (h : Inv s) (hl : s.lst ≠ .idle) :
    Treeless { closeLoad s with nn := 0, node := [] } := by
  obtain ⟨-, -, -, -, -, ⟨hnotree, hcur, -⟩, ⟨hroot, -, hload, -⟩, -⟩ := h
  have htv := hload hl
  obtain ⟨hroot, hcode⟩ := hroot htv
  exact ⟨htv, hroot, rfl, rfl, hcode, hnotree htv, hcur (hnotree htv), rfl, rfl, rfl⟩

theorem execLend_keeps_inv {s t : State} (h : Inv s) (ht : execLend s = .next t) : Inv t := by
  obtain ⟨hp, hf, -⟩ := id h
  rcases execLend_next_iff.mp ht with ⟨-, rfl⟩ | ⟨hl, -, rfl⟩ | ⟨hl, hdone, u, hu, rfl⟩
  · exact h.streams _ _
  · exact ((treeless_of_malformed h hl).inv hp hf).streams _ _
  · have hnew := finishLoad_newTree h hl hdone hu
    obtain ⟨code, -, rfl⟩ := finishLoad_ok_iff.mp hu
    exact (hnew.inv hp hf).streams _ _

end Sys2Proof.Machine
end

section
/-!
PROOFS. A record taken by LLEAF or LBR keeps the invariant of 10_state.md R30 with what it says of a load session, and
so every step keeps the invariant.  Taking a record is said in two parts (45_persistence.md R173): the branch on top of
LSTK gets the new node as its child, and the new node is appended.
-/

namespace Sys2Proof.Machine

/-! ### What taking a record leaves in NODE and LSTK (R173) -/

/-- The entry of a record just taken (R173): a leaf of the symbol, or a branch that lacks both children. -/
def newNode (x : Option Nat) : Node := { freq := 0, sym := x, left := none, right := none }

/-- LSTK once the branch on top of it has got a child. -/
def advance : List (Nat × Bool) → List (Nat × Bool)
  | [] => []
  | (b, k) :: rest => if k then rest else (b, true) :: rest

/-- An entry of NODE once node i is attached: the branch on top of the stack has it as a child. -/
def linked (stk : List (Nat × Bool)) (i : Nat) (e : Nat × Node) : Node :=
  match stk with
  | [] => e.2
  | (b, k) :: _ => if e.1 = b then e.2.setChild k i else e.2

/-- NODE once node i is attached. -/
def linkAll (stk : List (Nat × Bool)) (i : Nat) (m : Mem Node) : Mem Node := m.map fun e => (e.1, linked stk i e)

@[simp] theorem linked_nil (i : Nat) (e : Nat × Node) : linked [] i e = e.2 := rfl

@[simp] theorem linked_top (b : Nat) (k : Bool) (rest : List (Nat × Bool)) (i : Nat) (n : Node) :
    linked ((b, k) :: rest) i (b, n) = n.setChild k i := if_pos rfl

theorem linked_of_ne_top {b : Nat} (k : Bool) (rest : List (Nat × Bool)) (i : Nat) {e : Nat × Node} (h : e.1 ≠ b) :
    linked ((b, k) :: rest) i e = e.2 := if_neg h

/-- Attaching a node adds it as a child and writes no other field. -/
theorem linked_cases (stk : List (Nat × Bool)) (i : Nat) (e : Nat × Node) :
    linked stk i e = e.2 ∨ ∃ k, linked stk i e = e.2.setChild k i := by
  rcases stk with - | ⟨⟨b, k⟩, rest⟩
  · exact .inl rfl
  · by_cases h : e.1 = b
    · exact .inr ⟨k, if_pos h⟩
    · exact .inl (if_neg h)

@[simp] theorem linked_freq (stk : List (Nat × Bool)) (i : Nat) (e : Nat × Node) :
    (linked stk i e).freq = e.2.freq := by
  rcases linked_cases stk i e with h | ⟨k, h⟩ <;> simp [h]

@[simp] theorem linked_sym (stk : List (Nat × Bool)) (i : Nat) (e : Nat × Node) : (linked stk i e).sym = e.2.sym := by
  rcases linked_cases stk i e with h | ⟨k, h⟩ <;> simp [h]

/-- A child of an entry after node i is attached is i or was a child before. -/
theorem child_linked {stk : List (Nat × Bool)} {i : Nat} {e : Nat × Node} {b : Bool} {c : Nat}
    (h : (linked stk i e).child b = some c) : c = i ∨ e.2.child b = some c := by
  rcases linked_cases stk i e with he | ⟨k, he⟩
  · exact .inr (he ▸ h)
  · rw [he, Node.child_setChild] at h
    split at h
    · exact .inl (Option.some.inj h).symm
    · exact .inr h

@[simp] theorem linkAll_keys (stk : List (Nat × Bool)) (i : Nat) (m : Mem Node) :
    (linkAll stk i m).map Prod.fst = m.map Prod.fst := by
  simp [linkAll, Function.comp_def]

@[simp] theorem leafSyms_linkAll (stk : List (Nat × Bool)) (i : Nat) (m : Mem Node) :
    leafSyms (linkAll stk i m) = leafSyms m := by
  simp [leafSyms, linkAll, List.filterMap_map]

theorem leafSyms_append_newNode (m : Mem Node) (i : Nat) (x : Option Nat) :
    leafSyms (m ++ [(i, newNode x)]) = leafSyms m ++ x.toList := by
  cases x <;> simp [leafSyms, newNode]

theorem read_linkAll (stk : List (Nat × Bool)) (i : Nat) (m : Mem Node) (j : Nat) :
    Mem.read (linkAll stk i m) j = (Mem.read m j).map fun n => linked stk i (j, n) := by
  induction m with
  | nil => rfl
  | cons e m ih =>
    obtain ⟨k, n⟩ := e
    show Mem.read ((k, linked stk i (k, n)) :: linkAll stk i m) j = _
    rw [Mem.read_cons, Mem.read_cons, ih]
    by_cases h : j = k <;> simp [h]

/-- Writing the child of the branch on top of the stack is attaching the node. -/
theorem write_setChild_eq_linkAll {m : Mem Node} (hs : Mem.Sorted m) {b : Nat} {n : Node} (hn : Mem.read m b = some n)
    (k : Bool) (rest : List (Nat × Bool)) (i : Nat) :
    Mem.write m b (n.setChild k i) = linkAll ((b, k) :: rest) i m := by
  have hs' : Mem.Sorted (linkAll ((b, k) :: rest) i m) := by rw [Mem.Sorted, linkAll_keys]; exact hs
  refine Mem.ext_of_sorted (Mem.sorted_write hs _ _) hs' fun j => ?_
  rw [Mem.read_write, read_linkAll]
  split
  · next h => rw [h, hn, Option.map_some, linked_top]
  · next h =>
    cases Mem.read m j with
    | none => rfl
    | some n => rw [Option.map_some, linked_of_ne_top _ _ _ h]

/-- Attaching a node, when the branch on top of the stack is allocated. -/
theorem attach_eq {p : Params} {m : Mem Node} {stk : List (Nat × Bool)} {nn i : Nat}
    (hkeys : m.map Prod.fst = List.range nn) (hcap : nn ≤ p.nodeCap) (hstk : ∀ e ∈ stk, e.1 < nn) :
    attach p m stk i = .ok (linkAll stk i m, advance stk) := by
  rcases stk with - | ⟨⟨b, k⟩, rest⟩
  · simp [attach_nil, linkAll, advance]
  · have hb : b < nn := hstk (b, k) List.mem_cons_self
    obtain ⟨n, hn⟩ := Option.isSome_iff_exists.mp ((Mem.read_isSome_of_keys_range hkeys b).mpr hb)
    exact attach_cons_ok_iff.mpr
      ⟨n, hn, by omega, (write_setChild_eq_linkAll (Mem.sorted_of_keys_range hkeys) hn k rest i).symm, rfl⟩

/-- A node that is not on the stack is not changed by the attachment. -/
theorem linkAll_append_newNode {stk : List (Nat × Bool)} {i : Nat} (hstk : ∀ e ∈ stk, e.1 < i) (m : Mem Node)
    (x : Option Nat) : linkAll stk i (m ++ [(i, newNode x)]) = linkAll stk i m ++ [(i, newNode x)] := by
  have hnew : linked stk i (i, newNode x) = newNode x := by
    rcases stk with - | ⟨⟨b, k⟩, rest⟩
    · rfl
    · exact linked_of_ne_top k rest i (Nat.ne_of_gt (hstk (b, k) List.mem_cons_self))
  simp [linkAll, hnew]

/-- The state after an accepted record (R173). -/
def recordTaken (x : Option Nat) (s : State) : State :=
  { s with
    nn := s.nn + 1
    node := linkAll s.lstk s.nn s.node ++ [(s.nn, newNode x)]
    lseen := seenAfter x s.lseen
    lstk := stackAfter x s.nn (advance s.lstk)
    ldone := s.ldone || (stackAfter x s.nn (advance s.lstk)).isEmpty }

/-- Within the widths of R22 and R29, and with room in NODE, a record is taken. -/
theorem takeRecord_eq {x : Option Nat} {s : State} (hnode : NodeInv s) (hload : LoaderInv s)
    (hcap : s.nn < s.params.nodeCap) : takeRecord x s = .ok (recordTaken x s) := by
  obtain ⟨hkeys, -⟩ := hnode
  obtain ⟨-, hstk, -⟩ := hload
  have hnew : Mem.write s.node s.nn (newNode x) = s.node ++ [(s.nn, newNode x)] :=
    Mem.write_above (fun k hk => List.mem_range.mp (hkeys ▸ hk)) _
  have hattach := attach_eq (i := s.nn) (Mem.keys_write_next hkeys (newNode x)) hcap
    fun e he => Nat.lt_succ_of_lt (hstk e he)
  rw [hnew, linkAll_append_newNode hstk] at hattach
  exact takeRecord_ok_iff.mpr ⟨_, _, hcap, hnew ▸ hattach, rfl⟩

/-! ### The stack (10_state.md R29) -/

theorem advance_keys_sublist (stk : List (Nat × Bool)) : ((advance stk).map Prod.fst).Sublist (stk.map Prod.fst) := by
  rcases stk with - | ⟨⟨b, _ | _⟩, rest⟩
  · exact List.Sublist.refl _
  · exact List.Sublist.refl _
  · exact List.sublist_cons_self _ _

theorem mem_keys_of_mem_advance {stk : List (Nat × Bool)} {e : Nat × Bool} (h : e ∈ advance stk) :
    e.1 ∈ stk.map Prod.fst :=
  (advance_keys_sublist stk).subset (List.mem_map_of_mem h)

theorem mem_stackAfter {x : Option Nat} {i : Nat} {stk : List (Nat × Bool)} {e : Nat × Bool} :
    e ∈ stackAfter x i stk ↔ (x = none ∧ e = (i, false)) ∨ e ∈ stk := by
  cases x <;> simp [stackAfter]

/-- A record moves only the top of the stack and pushes the new node. -/
theorem mem_stackAfter_advance {x : Option Nat} {i j b : Nat} {k c : Bool} {rest : List (Nat × Bool)} (hi : j ≠ i)
    (hb : j ≠ b) : (j, c) ∈ stackAfter x i (advance ((b, k) :: rest)) ↔ (j, c) ∈ (b, k) :: rest := by
  cases k <;> simp [mem_stackAfter, advance, hi, hb]

/-- The stack keeps its order, and the symbols seen stay in the alphabet. -/
theorem recordTaken_loaderInv {x : Option Nat} {s : State} (h : LoaderInv s) (hx : ∀ y ∈ x, y < s.params.nsym) :
    LoaderInv (recordTaken x s) := by
  obtain ⟨horder, hstk, hsorted, hseen⟩ := h
  have hadv : ∀ e ∈ advance s.lstk, e.1 < s.nn := fun e he => by
    obtain ⟨d, hd, hde⟩ := List.mem_map.mp (mem_keys_of_mem_advance he)
    exact hde ▸ hstk d hd
  have horder' : ((advance s.lstk).map Prod.fst).Pairwise (· > ·) := horder.sublist (advance_keys_sublist _)
  refine ⟨?_, fun e he => ?_, seenAfter_sorted hsorted x, fun e he => ?_⟩
  · cases x with
    | some y => exact horder'
    | none =>
      refine List.pairwise_cons.mpr ⟨fun i hi => ?_, horder'⟩
      obtain ⟨e, he, rfl⟩ := List.mem_map.mp hi
      exact hadv e he
  · show e.1 < s.nn + 1
    rcases mem_stackAfter.mp he with ⟨-, rfl⟩ | he
    · exact Nat.lt_succ_self _
    · exact Nat.lt_succ_of_lt (hadv e he)
  · cases x with
    | none => exact hseen e he
    | some y =>
      rcases Mem.mem_write he with rfl | he
      · exact hx y rfl
      · exact hseen e he

/-! ### The entries (10_state.md R22, R30 item 9) -/

/-- An entry after a record is the new one, or an old one with the new node attached or not. -/
theorem mem_node_recordTaken {x : Option Nat} {s : State} {e : Nat × Node} :
    e ∈ (recordTaken x s).node ↔ e = (s.nn, newNode x) ∨ ∃ d ∈ s.node, (d.1, linked s.lstk s.nn d) = e := by
  simp [recordTaken, linkAll, or_comm]

theorem recordTaken_nodeInv {x : Option Nat} {s : State} (h : NodeInv s) (hcap : s.nn < s.params.nodeCap)
    (hx : ∀ y ∈ x, y < s.params.nsym) : NodeInv (recordTaken x s) := by
  obtain ⟨hkeys, -, hentries⟩ := h
  refine ⟨?_, hcap, fun e he => ?_⟩
  · simp [recordTaken, hkeys, List.range_succ]
  · rcases mem_node_recordTaken.mp he with rfl | ⟨d, hd, rfl⟩
    · exact ⟨Nat.zero_le _, hx, nofun, nofun⟩
    · obtain ⟨hfreq, hsym, hleft, hright⟩ := hentries d hd
      refine ⟨(linked_freq ..).trans_le hfreq, fun y hy => hsym y (linked_sym .. ▸ hy), fun c hc => ?_, fun c hc => ?_⟩
      · rcases child_linked (b := false) hc with rfl | hc
        · exact Nat.lt_succ_self _
        · exact Nat.lt_succ_of_lt (hleft c hc)
      · rcases child_linked (b := true) hc with rfl | hc
        · exact Nat.lt_succ_self _
        · exact Nat.lt_succ_of_lt (hright c hc)

/-- Two members of the stack do not name one branch. -/
theorem LoaderInv.top_unique {s : State} (h : LoaderInv s) {b : Nat} {k c : Bool} {rest : List (Nat × Bool)}
    (hstk : s.lstk = (b, k) :: rest) : b ∉ rest.map Prod.fst ∧ ((b, c) ∈ s.lstk → c = k) := by
  obtain ⟨horder, -⟩ := h
  rw [hstk, List.map_cons, List.pairwise_cons] at horder
  have hb : b ∉ rest.map Prod.fst := fun hm => Nat.lt_irrefl _ (horder.1 b hm)
  refine ⟨hb, fun hc => ?_⟩
  rcases List.mem_cons.mp (hstk ▸ hc) with hc | hc
  · exact (Prod.mk.inj hc).2
  · exact absurd (List.mem_map_of_mem hc) hb

/-- The branch on top of the stack lacks the child its bit names. -/
theorem LoadingBranch.child_top {s : State} {b : Nat} {k : Bool} {rest : List (Nat × Bool)} {n : Node}
    (h : LoadingBranch s b n) (hload : LoaderInv s) (hstk : s.lstk = (b, k) :: rest) :
    n.child k = none ∧ (k = true → n.left.isSome = true) ∧ (k = false → n.right = none) := by
  obtain ⟨-, ⟨hm, hl, hr⟩ | ⟨hm, hl, hr⟩ | ⟨hm, -⟩⟩ := h
  · obtain rfl := (hload.top_unique hstk).2 hm
    exact ⟨hl, nofun, fun _ => hr⟩
  · obtain rfl := (hload.top_unique hstk).2 hm
    exact ⟨hr, fun _ => hl, nofun⟩
  · exact absurd (by simp [hstk]) hm

/-- A branch of the load session stays one: the one on top of the stack has moved on by one child, the others wait as
before. -/
theorem recordTaken_loadingBranch {x : Option Nat} {s : State} (hload : LoaderInv s) {i : Nat} {n : Node}
    (hi : i < s.nn) (h : LoadingBranch s i n) : LoadingBranch (recordTaken x s) i (linked s.lstk s.nn (i, n)) := by
  have hne : i ≠ s.nn := Nat.ne_of_lt hi
  obtain ⟨hsym, hwait⟩ := id h
  refine ⟨by simpa using hsym, ?_⟩
  show ((i, false) ∈ stackAfter x s.nn (advance s.lstk) ∧ _) ∨ ((i, true) ∈ stackAfter x s.nn (advance s.lstk) ∧ _) ∨
    (i ∉ (stackAfter x s.nn (advance s.lstk)).map Prod.fst ∧ _)
  rcases hstk : s.lstk with - | ⟨⟨b, k⟩, rest⟩
  · rw [hstk] at hwait
    refine .inr (.inr ⟨?_, by simpa using hwait⟩)
    simp [mem_stackAfter, advance, hne]
  · by_cases hib : i = b
    · subst hib
      obtain ⟨-, hleft, hright⟩ := h.child_top hload hstk
      obtain ⟨hrest, -⟩ := hload.top_unique (c := k) hstk
      cases k with
      | false =>
        refine .inr (.inl ⟨?_, by simpa [Node.setChild] using hright⟩)
        simp [mem_stackAfter, advance]
      | true =>
        refine .inr (.inr ⟨?_, by simpa [Node.setChild] using hleft⟩)
        simpa [mem_stackAfter, advance, hne] using hrest
    · rw [hstk] at hwait
      rw [linked_of_ne_top (e := (i, n)) _ _ _ hib]
      simpa only [List.mem_map, Prod.exists, exists_and_right, exists_eq_right,
        mem_stackAfter_advance hne hib] using hwait

/-! ### What a load session keeps (R30 item 9) -/

/-- The members of the stack are branches that wait for a child (R29). -/
theorem LoadingInv.branch_on_stack {s : State} (h : LoadingInv s) {e : Nat × Bool} (he : e ∈ s.lstk) :
    ∃ n, Mem.read s.node e.1 = some n ∧ LoadingBranch s e.1 n := by
  obtain ⟨hentries, -, -, hstk, -⟩ := h
  obtain ⟨n, hn, hsym⟩ := hstk e he
  obtain ⟨-, hshape, -⟩ := hentries _ (Mem.mem_of_read hn)
  exact ⟨n, hn, hshape.resolve_left fun ⟨hsome, _⟩ => by simp [hsym] at hsome⟩

/-- A leaf is on no stack, so attaching a node does not change it. -/
theorem LoadingInv.linked_leaf {s : State} (h : LoadingInv s) (hnode : NodeInv s) {e : Nat × Node} (he : e ∈ s.node)
    (hleaf : LeafEntry e.2) : linked s.lstk s.nn e = e.2 := by
  rcases hstk : s.lstk with - | ⟨⟨b, k⟩, rest⟩
  · rfl
  · refine linked_of_ne_top k rest s.nn fun heb => ?_
    obtain ⟨n, hn, hsym, -⟩ := h.branch_on_stack (e := (b, k)) (by simp [hstk])
    have hen := Mem.read_of_mem (Mem.sorted_of_keys_range hnode.1) he
    rw [heb] at hen
    obtain rfl := Option.some.inj (hen.symm.trans hn)
    exact absurd (hsym ▸ hleaf.1) nofun

/-- Setting a child an entry lacks adds that one child. -/
theorem kids_setChild_perm {n : Node} {k : Bool} (h : n.child k = none) (i : Nat) :
    (kids (n.setChild k i)).Perm (i :: kids n) := by
  cases k with
  | false =>
    have hleft : n.left = none := h
    simp [kids, Node.setChild, hleft]
  | true =>
    have hright : n.right = none := h
    simp [kids, Node.setChild, hright]

/-- Attaching node i makes i a child once more and no other node. -/
theorem count_childRefs_linkAll {m : Mem Node} (hs : Mem.Sorted m) {b : Nat} {k : Bool} {n : Node}
    (hn : Mem.read m b = some n) (hchild : n.child k = none) (rest : List (Nat × Bool)) (i j : Nat) :
    (childRefs (linkAll ((b, k) :: rest) i m)).count j = (childRefs m).count j + if i = j then 1 else 0 := by
  have hentry : ∀ e ∈ m, (kids (linked ((b, k) :: rest) i e)).count j =
      (kids e.2).count j + (if e.1 = b then 1 else 0) * (if i = j then 1 else 0) := by
    intro e he
    by_cases heb : e.1 = b
    · have hen := Mem.read_of_mem hs he
      rw [heb] at hen
      obtain rfl := Option.some.inj (hen.symm.trans hn)
      rw [linked, if_pos heb, (kids_setChild_perm hchild i).count_eq, List.count_cons]
      simp [heb]
    · rw [linked_of_ne_top _ _ _ heb]
      simp [heb]
  rw [count_childRefs, count_childRefs, linkAll, List.map_map, ← sum_indicator hs hn fun _ => if i = j then 1 else 0,
    ← List.sum_map_add]
  exact congrArg List.sum (List.map_congr_left hentry)

theorem childRefs_append_newNode (m : Mem Node) (i : Nat) (x : Option Nat) :
    childRefs (m ++ [(i, newNode x)]) = childRefs m := by
  simp [childRefs, newNode]

/-- Every node but the first has one parent once the new one is attached (R25, R173). -/
theorem recordTaken_single {x : Option Nat} {s : State} (h : LoadingInv s) (hnode : NodeInv s) (hload : LoaderInv s)
    (hopen : s.ldone = false) :
    ∀ i < s.nn + 1, (childRefs (recordTaken x s).node).count i = if i = 0 then 0 else 1 := by
  intro i hi
  obtain ⟨-, hsingle, hcomplete, -⟩ := id h
  show (childRefs (linkAll s.lstk s.nn s.node ++ [(s.nn, newNode x)])).count i = _
  rw [childRefs_append_newNode]
  rcases hstk : s.lstk with - | ⟨⟨b, k⟩, rest⟩
  · have hnn : s.nn = 0 := by
      by_contra hnn
      exact absurd (hopen.symm.trans (hcomplete.mpr ⟨Nat.pos_of_ne_zero hnn, hstk⟩)) nofun
    have hempty : s.node = [] := by simpa [hnn] using hnode.1
    simp [hempty, linkAll, childRefs, show i = 0 by omega]
  · have hmem : (b, k) ∈ s.lstk := by simp [hstk]
    have hb : b < s.nn := hload.2.1 _ hmem
    obtain ⟨n, hn, hbranch⟩ := h.branch_on_stack hmem
    obtain ⟨hchild, -⟩ := hbranch.child_top hload hstk
    rw [count_childRefs_linkAll (Mem.sorted_of_keys_range hnode.1) hn hchild]
    by_cases hin : i = s.nn
    · have hnone : (childRefs s.node).count s.nn = 0 :=
        List.count_eq_zero.mpr fun hm => Nat.lt_irrefl _ (hnode.childRefs_lt _ hm)
      simp [hin, hnone, show s.nn ≠ 0 by omega]
    · rw [hsingle i (by omega), if_neg (Ne.symm hin), Nat.add_zero]

/-- An entry after a record has frequency 0, is a leaf or a branch that lacks what the stack waits for, and stands below
its children (R173, R179). -/
theorem recordTaken_entries {x : Option Nat} {s : State} (h : LoadingInv s) (hnode : NodeInv s) (hload : LoaderInv s) :
    ∀ e ∈ (recordTaken x s).node, e.2.freq = 0 ∧ (LeafEntry e.2 ∨ LoadingBranch (recordTaken x s) e.1 e.2) ∧
      (∀ c ∈ e.2.left, e.1 < c) ∧ (∀ c ∈ e.2.right, e.1 < c) := by
  intro e he
  rcases mem_node_recordTaken.mp he with rfl | ⟨d, hd, rfl⟩
  · refine ⟨rfl, ?_, nofun, nofun⟩
    cases x with
    | some y => exact .inl ⟨rfl, rfl, rfl⟩
    | none => exact .inr ⟨rfl, .inl ⟨List.mem_cons_self, rfl, rfl⟩⟩
  · obtain ⟨hfreq, hshape, hleft, hright⟩ := h.1 d hd
    have hdn : d.1 < s.nn := List.mem_range.mp (hnode.1 ▸ List.mem_map_of_mem hd)
    refine ⟨(linked_freq ..).trans hfreq, ?_, fun c hc => ?_, fun c hc => ?_⟩
    · rcases hshape with hleaf | hbranch
      · exact .inl ((h.linked_leaf hnode hd hleaf).symm ▸ hleaf)
      · exact .inr (recordTaken_loadingBranch hload hdn hbranch)
    · rcases child_linked (b := false) hc with rfl | hc
      · exact hdn
      · exact hleft c hc
    · rcases child_linked (b := true) hc with rfl | hc
      · exact hdn
      · exact hright c hc

/-- The members of the stack after a record are branches. -/
theorem recordTaken_stack {x : Option Nat} {s : State} (h : LoadingInv s)
    (hsorted : Mem.Sorted (recordTaken x s).node) :
    ∀ e ∈ (recordTaken x s).lstk, ∃ n ∈ Mem.read (recordTaken x s).node e.1, n.sym = none := by
  intro e he
  rcases mem_stackAfter.mp he with ⟨rfl, rfl⟩ | he
  · exact ⟨newNode none, Mem.read_of_mem hsorted (mem_node_recordTaken.mpr (.inl rfl)), rfl⟩
  · obtain ⟨d, hd, hde⟩ := List.mem_map.mp (mem_keys_of_mem_advance he)
    obtain ⟨n, hn, hsym, -⟩ := h.branch_on_stack hd
    rw [hde] at hn
    refine ⟨linked s.lstk s.nn (e.1, n), Mem.read_of_mem hsorted ?_, (linked_sym ..).trans hsym⟩
    exact mem_node_recordTaken.mpr (.inr ⟨(e.1, n), Mem.mem_of_read hn, rfl⟩)

/-- The leaves after a record: a leaf record's symbol joins them. -/
theorem recordTaken_leafSyms (x : Option Nat) (s : State) :
    leafSyms (recordTaken x s).node = leafSyms s.node ++ x.toList := by
  show leafSyms (linkAll s.lstk s.nn s.node ++ [(s.nn, newNode x)]) = _
  rw [leafSyms_append_newNode, leafSyms_linkAll]

/-- A well-formed record keeps the load session well-formed (R173, R179). -/
theorem recordTaken_loadingInv {x : Option Nat} {s : State} (h : LoadingInv s) (hnode : NodeInv s) (hload : LoaderInv s)
    (hopen : s.ldone = false) (hcap : s.nn < s.params.nodeCap) (hx : ∀ y ∈ x, y < s.params.nsym)
    (hnew : ∀ y ∈ x, ¬ (Mem.read s.lseen y).isSome = true) : LoadingInv (recordTaken x s) := by
  obtain ⟨-, -, -, -, hdistinct, hseen⟩ := id h
  have hsorted := Mem.sorted_of_keys_range (recordTaken_nodeInv hnode hcap hx).1
  refine ⟨recordTaken_entries h hnode hload, recordTaken_single h hnode hload hopen, ?_, recordTaken_stack h hsorted,
    ?_, fun y hy => ?_⟩
  · simp [recordTaken, hopen]
  · rw [recordTaken_leafSyms]
    cases x with
    | none => simpa using hdistinct
    | some y =>
      have hy : y ∉ leafSyms s.node := mt (hseen y (hx y rfl)).mpr (hnew y rfl)
      simpa [List.nodup_append] using ⟨hdistinct, fun a ha hay => hy (hay ▸ ha)⟩
  · rw [recordTaken_leafSyms, List.mem_append, Option.mem_toList, ← hseen y hy]
    exact read_seenAfter x s.lseen y

/-! ### LLEAF, LBR and every step -/

/-- An accepted record keeps the invariant. -/
theorem recordTaken_inv {x : Option Nat} {s : State} (h : Inv s) (hl : s.lst = .active)
    (hx : ∀ y ∈ x, y < s.params.nsym) (hm : recordMalformed x s = false) (hcap : s.nn < s.params.nodeCap) :
    Inv (recordTaken x s) := by
  have hwell := mt recordMalformed_iff.mpr (Bool.eq_false_iff.mp hm)
  obtain ⟨hopen, hnew, -⟩ : ¬ s.ldone = true ∧ _ := by simpa only [not_or] using hwell
  obtain ⟨hp, hf, hnode, hcode, hload, ⟨hnotree, hcur, -⟩, ⟨hroot, -, htv, -⟩, -, hloading⟩ := h
  have htv : s.tv = false := htv (by simp [hl])
  have hdst := hnotree htv
  have hactive : ¬ s.lst = .idle := by simp [hl]
  refine ⟨hp, hf, recordTaken_nodeInv hnode hcap hx, hcode, recordTaken_loaderInv hload hx, ?_, ?_, ?_, fun _ => ?_⟩
  · exact ⟨fun _ => hdst, hcur, fun hd => absurd (hdst.symm.trans hd) nofun, fun hd => absurd hdst hd⟩
  · exact ⟨hroot, fun _ hi => absurd hi hactive, fun _ => htv, fun hi => absurd hi hactive⟩
  · exact fun ht => absurd (htv.symm.trans ht) nofun
  · exact recordTaken_loadingInv (hloading hl) hnode hload (Bool.eq_false_iff.mpr hopen) hcap hx
      fun y hy hs => hnew ⟨y, hy, hs⟩

/-- A malformed record spoils the session and keeps the invariant: of a BAD session nothing is asked about its nodes. -/
theorem Inv.spoiled {s : State} (h : Inv s) (hl : s.lst = .active) : Inv { s with lst := .bad } := by
  obtain ⟨hp, hf, hnode, hcode, hload, hdec, ⟨hroot, -, htv, -⟩, -, -⟩ := h
  have htv : s.tv = false := htv (by simp [hl])
  exact ⟨hp, hf, hnode, hcode, hload, hdec, ⟨hroot, fun _ => nofun, fun _ => htv, nofun⟩,
    fun ht => absurd (htv.symm.trans ht) nofun, nofun⟩

theorem loadNode_keeps_inv {x : Option Nat} {s t : State} (h : Inv s) (hx : ∀ y ∈ x, y < s.params.nsym)
    (ht : loadNode x s = .next t) : Inv t := by
  obtain ⟨-, -, hnode, -, hload, -⟩ := id h
  rcases loadNode_next_iff.mp ht with ⟨-, rfl⟩ | ⟨-, rfl⟩ | ⟨hl, -, rfl⟩ | ⟨hl, hm, u, hu, rfl⟩
  · exact h.streams _ _
  · exact h.streams _ _
  · exact (h.spoiled hl).streams _ _
  · obtain ⟨-, -, hcap, -⟩ := takeRecord_ok_iff.mp hu
    rw [takeRecord_eq hnode hload hcap] at hu
    cases hu
    exact (recordTaken_inv h hl hx hm hcap).streams _ _

/-- Every command keeps the invariant. -/
theorem exec_keeps_inv {i : Instr} {s t : State} (h : Inv s) (ht : exec i s = .next t) : Inv t := by
  cases i with
  | fclr => exact execFclr_keeps_inv h ht
  | fsym x => exact execFsym_keeps_inv h ht
  | build => exact execBuild_keeps_inv h ht
  | enc x => exact execEnc_keeps_inv h ht
  | dbeg => exact execDbeg_keeps_inv h ht
  | dbit b => exact execDbit_keeps_inv h ht
  | dend => exact execDend_keeps_inv h ht
  | ser => exact execSer_keeps_inv h ht
  | lbeg => exact execLbeg_keeps_inv h ht
  | lleaf x =>
    obtain ⟨hx, ht⟩ := execLleaf_next_iff.mp ht
    exact loadNode_keeps_inv h (fun y hy => Option.some.inj hy ▸ hx) ht
  | lbr => exact loadNode_keeps_inv h (by simp) ht
  | lend => exact execLend_keeps_inv h ht
  | drop => exact execDrop_keeps_inv h ht

/-- Every word keeps the invariant, whether it decodes or not. -/
theorem runWord_keeps_inv {w : Word} {s t : State} (h : Inv s) (ht : runWord w s = .next t) : Inv t := by
  rcases runWord_next_iff.mp ht with ⟨i, -, hi⟩ | ⟨e, -, rfl⟩
  · exact exec_keeps_inv h hi
  · exact h.streams _ _

/-- Settles O56, command by command: taking a word from the stream keeps the invariant, and so does the command it
decodes to. -/
theorem everyStepKeepsTheInvariant : Obligations.EveryStepKeepsTheInvariant := by
  unfold Obligations.EveryStepKeepsTheInvariant
  intro s t h ht
  obtain ⟨-, ⟨-, rfl⟩ | ⟨w, ws, -, hw⟩⟩ := step_next_iff.mp ht
  · exact h
  · exact runWord_keeps_inv (h.streams ws s.rsp) hw

end Sys2Proof.Machine
end

section
/-!
PROOFS. The statements of 20_memory.md: a symbol of NSYM or more names no entry of a memory (R54), and every step keeps
the canonical form of the memories (R55), from every state that has it.
-/

namespace Sys2Proof.Machine

/-! ### A symbol operand outside the alphabet (20_memory.md R54) -/

theorem symbolInAlphabet_of_nsym_le {p : Params} {x : Nat} (h : p.nsym ≤ x) : symbolInAlphabet p x = false := by
  simpa [symbolInAlphabet] using h

/-- Settles O11: the three commands with a symbol operand test it before anything else. -/
theorem oversizedSymbolOperandFaults : Obligations.OversizedSymbolOperandFaults := by
  unfold Obligations.OversizedSymbolOperandFaults
  intro s x hx
  have hout := symbolInAlphabet_of_nsym_le hx
  refine ⟨?_, ?_, ?_⟩
  · simp [exec, execFsym, hout]
  · simp [exec, execEnc, hout]
  · simp [exec, execLleaf, hout]

/-! ### The canonical form of the memories (20_memory.md R55) -/

/-- The canonical form does not read the two streams. -/
theorem Memory.wf.streams {s : State} (h : Memory.wf s) (cs rs : List Word) :
    Memory.wf { s with cmds := cs, rsp := rs } := h

/-- FREQ stays in canonical form when a count is written. -/
theorem Memory.wf.count {s : State} (h : Memory.wf s) (x c n : Nat) :
    Memory.wf { s with freq := writeFreq s.freq x c, ftotal := n } := by
  obtain ⟨hnode, hfreq, hcode, hlseen, hzero⟩ := h
  exact ⟨hnode, sorted_writeFreq hfreq x c, hcode, hlseen, writeFreq_noZero hzero x c⟩

/-- NODE is in canonical form after Seed and Merge, whatever the Frequency Table: its entries are those of a forest. -/
theorem buildTree_sorted {p : Params} {freq : Mem Nat} {m : Mem Node} {r : Nat} (h : buildTree p freq = .ok (m, r)) :
    Mem.Sorted m := by
  obtain ⟨-, hforest⟩ := buildTree_ok h
  exact Mem.sorted_of_keys_range hforest.keys

/-- BUILD makes NODE and CODE anew and empties FREQ. -/
theorem buildSteps_memory_wf {s t : State} (h : Memory.wf s) (ht : buildSteps s = .ok t) : Memory.wf t := by
  obtain ⟨-, -, -, hlseen, -⟩ := h
  obtain ⟨m, r, code, hbuild, hcode, rfl⟩ := buildSteps_ok_iff.mp ht
  exact ⟨buildTree_sorted hbuild, Mem.sorted_nil, generateCodes_sorted hcode, hlseen, nofun⟩

/-- The good end of a load session makes CODE anew and empties LSEEN. -/
theorem finishLoad_memory_wf {s t : State} (h : Memory.wf s) (ht : finishLoad s = .ok t) : Memory.wf t := by
  obtain ⟨hnode, hfreq, -, -, hzero⟩ := h
  obtain ⟨code, hcode, rfl⟩ := finishLoad_ok_iff.mp ht
  exact ⟨hnode, hfreq, generateCodes_sorted hcode, Mem.sorted_nil, hzero⟩

/-- A record writes the memories only when it is accepted. -/
theorem loadNode_memory_wf {x : Option Nat} {s t : State} (h : Memory.wf s) (ht : loadNode x s = .next t) :
    Memory.wf t := by
  rcases loadNode_next_iff.mp ht with ⟨-, rfl⟩ | ⟨-, rfl⟩ | ⟨-, -, rfl⟩ | ⟨-, -, u, hu, rfl⟩
  · exact h.streams _ _
  · exact h.streams _ _
  · exact h
  · exact (takeRecord_memory_wf h hu).streams _ _

/-- Every command keeps the canonical form of the memories.  The access table leaves the commands of the decoder, ENC
and SER no memory to write (10_state.md R31). -/
theorem exec_memory_wf {i : Instr} {s t : State} (h : Memory.wf s) (ht : exec i s = .next t) : Memory.wf t := by
  obtain ⟨hnode, hfreq, hcode, hlseen, hzero⟩ := id h
  cases i with
  | fclr =>
    obtain rfl := execFclr_next_iff.mp ht
    exact ⟨hnode, Mem.sorted_nil, hcode, hlseen, nofun⟩
  | fsym x =>
    obtain ⟨-, ⟨-, rfl⟩ | ⟨-, -, -, rfl⟩⟩ := execFsym_next_iff.mp ht
    · exact h.streams _ _
    · exact (h.count x _ _).streams _ _
  | build =>
    rcases execBuild_next_iff.mp ht with ⟨-, rfl⟩ | ⟨-, -, rfl⟩ | ⟨-, -, u, hu, rfl⟩
    · exact h.streams _ _
    · exact h.streams _ _
    · exact (buildSteps_memory_wf h hu).streams _ _
  | enc | dbeg | dbit | dend | ser =>
    have hw := commandsWriteOnlyTheirColumns _ s t ht
    unfold OnlyTabledStateWritten at hw
    rw [hw]
    exact h
  | lleaf x => exact loadNode_memory_wf h (execLleaf_next_iff.mp ht).2
  | lbr => exact loadNode_memory_wf h ht
  | lend =>
    rcases execLend_next_iff.mp ht with ⟨-, rfl⟩ | ⟨-, -, rfl⟩ | ⟨-, -, u, hu, rfl⟩
    · exact h.streams _ _
    · exact ⟨Mem.sorted_nil, hfreq, hcode, Mem.sorted_nil, hzero⟩
    · exact (finishLoad_memory_wf h hu).streams _ _
  | lbeg =>
    obtain rfl := execLbeg_next_iff.mp ht
    exact ⟨Mem.sorted_nil, hfreq, Mem.sorted_nil, Mem.sorted_nil, hzero⟩
  | drop =>
    obtain rfl := execDrop_next_iff.mp ht
    exact ⟨Mem.sorted_nil, hfreq, Mem.sorted_nil, Mem.sorted_nil, hzero⟩

/-- Every word keeps the canonical form of the memories, whether it decodes or not. -/
theorem runWord_memory_wf {w : Word} {s t : State} (h : Memory.wf s) (ht : runWord w s = .next t) : Memory.wf t := by
  rcases runWord_next_iff.mp ht with ⟨i, -, hi⟩ | ⟨e, -, rfl⟩
  · exact exec_memory_wf h hi
  · exact h.streams _ _

/-- Settles O55, command by command: taking a word from the stream touches no memory, and the command it decodes to
keeps the canonical form, which is the model's own choice (log entry 7). -/
theorem memoriesStayCanonical : Obligations.MemoriesStayCanonical := by
  unfold Obligations.MemoriesStayCanonical
  intro s t h ht
  obtain ⟨-, ⟨-, rfl⟩ | ⟨w, ws, -, hw⟩⟩ := step_next_iff.mp ht
  · exact h
  · exact runWord_memory_wf (h.streams ws s.rsp) hw

end Sys2Proof.Machine
end

section
/-!
PROOFS. The statements of 30_encoding.md about the command words: decoding and encoding are inverse (R72 to R74), the
opcode table as match and mask (R71, R74), and the illegal words (R75).
-/

namespace Sys2Proof

/-! ### Decoding and encoding are inverse (30_encoding.md R72 to R74) -/

/-- The fields of every well-formed command's word read back as the command. -/
theorem decodeFields_of_wf {p : Params} {i : Instr} (h : i.wf p = true) : decodeFields p i.op i.arg = .ok i := by
  cases i with
  | fsym x => exact Laws.FieldsReadBack.fsym x p h
  | enc x => exact Laws.FieldsReadBack.enc x p h
  | lleaf x => exact Laws.FieldsReadBack.lleaf x p h
  | dbit b => exact Laws.FieldsReadBack.dbit b p h
  | fclr | build | dbeg | dend | ser | lbeg | lbr | lend | drop => rfl

/-- The opcode map reads a command exactly from its own OP and ARG, and only a well-formed one (R73, R74). -/
theorem decodeFields_ok_iff {p : Params} {op arg : Nat} {i : Instr} :
    decodeFields p op arg = .ok i ↔ i.wf p = true ∧ op = i.op ∧ arg = i.arg := by
  constructor
  · intro h
    unfold decodeFields at h
    split at h
    case h_1 | h_3 | h_5 | h_7 | h_8 | h_9 | h_11 | h_12 | h_13 =>
      obtain ⟨rfl, rfl⟩ := formN_ok_iff.mp h
      exact ⟨rfl, rfl, rfl⟩
    case h_2 | h_4 | h_10 =>
      obtain ⟨hlt, rfl⟩ := formS_ok_iff.mp h
      exact ⟨decide_eq_true hlt, rfl, rfl⟩
    case h_6 =>
      obtain ⟨hlt, rfl⟩ := formB_ok_iff.mp h
      obtain rfl | rfl : arg = 0 ∨ arg = 1 := by omega
      · exact ⟨rfl, rfl, rfl⟩
      · exact ⟨rfl, rfl, rfl⟩
    case h_14 => cases h
  · rintro ⟨hw, rfl, rfl⟩
    exact decodeFields_of_wf hw

/-- A word decodes to a command exactly when the command is well-formed and the word is its encoding. -/
theorem decode_ok_iff {p : Params} (hp : p.Ok) {w : Word} {i : Instr} :
    decode p w = .ok i ↔ i.wf p = true ∧ encode i = w := by
  rw [decode, decodeFields_ok_iff]
  constructor
  · rintro ⟨hw, hop, harg⟩
    exact ⟨hw, by rw [encode, ← hop, ← harg, wordOf_fields]⟩
  · rintro ⟨hw, rfl⟩
    have harg := Instr.arg_lt hp hw
    exact ⟨hw, opField_wordOf i.op_lt harg, argField_wordOf harg⟩

theorem decode_encode {p : Params} (hp : p.Ok) {i : Instr} (hw : i.wf p = true) : decode p (encode i) = .ok i :=
  (decode_ok_iff hp).mpr ⟨hw, rfl⟩

/-- Settles O2: the fields of the word are the command's OP and ARG, and these read back as the command. -/
theorem decodeOfEncodeIsTheCommand : Obligations.DecodeOfEncodeIsTheCommand := by
  unfold Obligations.DecodeOfEncodeIsTheCommand
  exact fun p hp i hw => decode_encode hp hw

/-- Settles O3: the opcode map reads a command from its own OP and ARG only, and a word is its two fields. -/
theorem encodeOfDecodeIsTheWord : Obligations.EncodeOfDecodeIsTheWord := by
  unfold Obligations.EncodeOfDecodeIsTheWord
  exact fun p hp w i hd => (decode_ok_iff hp).mp hd

/-- Settles O1: each word, evaluated by the decoder. -/
theorem tableWordsDecodeToTheirCommands : Obligations.TableWordsDecodeToTheirCommands := by
  unfold Obligations.TableWordsDecodeToTheirCommands
  exact ⟨rfl, rfl, rfl, rfl, rfl, rfl, rfl, rfl, rfl, rfl, rfl, rfl, rfl, rfl, rfl, rfl, rfl, rfl⟩

/-! ### The opcode table as match and mask (30_encoding.md R71, R74) -/

/-- How many low ARG bits an operand form uses (R71). -/
def operandBits (p : Params) : Form → Nat
  | .n => 0
  | .s => p.symW
  | .b => 1

/-- The must-be-zero bits of a form are the ARG bits above its operand. -/
theorem mustBeZero_eq (p : Params) (f : Form) :
    mustBeZero p f = BitVec.ofNat 32 (2 ^ 24 - 1) &&& ~~~(BitVec.ofNat 32 (2 ^ operandBits p f - 1)) := by
  cases f with
  | n => simp [mustBeZero, operandBits]
  | s => rfl
  | b => simp [mustBeZero, operandBits]

/-- Bit j of a form's must-be-zero bits is set from the operand up to the end of ARG. -/
theorem getLsbD_mustBeZero (p : Params) (f : Form) (j : Nat) :
    (mustBeZero p f).getLsbD j = decide (operandBits p f ≤ j ∧ j < 24) := by
  rw [mustBeZero_eq]
  simp only [BitVec.getLsbD_and, BitVec.getLsbD_not, BitVec.getLsbD_ofNat, Nat.testBit_two_pow_sub_one]
  grind

theorem testBit_argField (w : Word) (j : Nat) : (argField w).testBit j = (decide (j < 24) && w.getLsbD j) := by
  rw [argField, Nat.testBit_mod_two_pow, BitVec.testBit_toNat]

/-- The must-be-zero bits of a word are all zero exactly when its ARG fits the operand. -/
theorem and_mustBeZero_eq_zero_iff (p : Params) (w : Word) (f : Form) :
    w &&& mustBeZero p f = 0#32 ↔ argField w < 2 ^ operandBits p f := by
  constructor
  · intro h
    refine Nat.lt_pow_two_of_testBit _ fun j hj => ?_
    have hbit := congrArg (·.getLsbD j) h
    simpa [getLsbD_mustBeZero, testBit_argField, hj, Bool.and_comm] using hbit
  · intro h
    refine BitVec.eq_of_getLsbD_eq fun j _ => ?_
    by_cases hj : operandBits p f ≤ j
    · have hbit : (argField w).testBit j = false :=
        Nat.testBit_lt_two_pow (h.trans_le (Nat.pow_le_pow_right Nat.two_pos hj))
      simpa [getLsbD_mustBeZero, testBit_argField, hj, Bool.and_comm] using hbit
    · simp [getLsbD_mustBeZero, hj]

theorem testBit_opField (w : Word) (j : Nat) : (opField w).testBit j = w.getLsbD (j + 24) := by
  rw [opField, Nat.testBit_div_two_pow, BitVec.testBit_toNat]

/-- A row's mask adds all of OP to the must-be-zero bits. -/
theorem getLsbD_rowMask (p : Params) (f : Form) (j : Nat) :
    (rowMask p f).getLsbD j = (decide (24 ≤ j ∧ j < 32) || (mustBeZero p f).getLsbD j) := by
  have hop : 0xFF000000#32 = BitVec.ofNat 32 ((2 ^ 8 - 1) * 2 ^ 24) := rfl
  rw [rowMask, hop, BitVec.getLsbD_or, BitVec.getLsbD_ofNat, Nat.testBit_mul_two_pow, Nat.testBit_two_pow_sub_one]
  grind

theorem opField_and_rowMask (p : Params) (w : Word) (f : Form) : opField (w &&& rowMask p f) = opField w := by
  refine Nat.eq_of_testBit_eq fun j => ?_
  have hlt : w.getLsbD (j + 24) = true → j + 24 < 32 := BitVec.lt_of_getLsbD
  simp only [testBit_opField, BitVec.getLsbD_and, getLsbD_rowMask]
  grind

theorem argField_and_rowMask (p : Params) (w : Word) (f : Form) :
    argField (w &&& rowMask p f) = (w &&& mustBeZero p f).toNat := by
  refine Nat.eq_of_testBit_eq fun j => ?_
  simp only [testBit_argField, BitVec.testBit_toNat, BitVec.getLsbD_and, getLsbD_rowMask, getLsbD_mustBeZero]
  grind

/-- Two words are equal when their fields are. -/
theorem word_ext_iff {v w : Word} : v = w ↔ opField v = opField w ∧ argField v = argField w := by
  refine ⟨fun h => h ▸ ⟨rfl, rfl⟩, fun ⟨hop, harg⟩ => ?_⟩
  rw [← wordOf_fields v, hop, harg, wordOf_fields]

theorem rowMatch_eq (op : Nat) : rowMatch op = wordOf op 0 := by
  refine BitVec.eq_of_toNat_eq ?_
  simp [rowMatch, wordOf, Nat.shiftLeft_eq]

/-- A word selects a row by match and mask exactly when it has the row's OP and its ARG fits the row's operand. -/
theorem and_rowMask_eq_rowMatch_iff (p : Params) (w : Word) (f : Form) {op : Nat} (hop : op < 2 ^ 8) :
    w &&& rowMask p f = rowMatch op ↔ opField w = op ∧ argField w < 2 ^ operandBits p f := by
  rw [word_ext_iff, rowMatch_eq, opField_and_rowMask, argField_and_rowMask, opField_wordOf hop (by omega),
    argField_wordOf (by omega), ← and_mustBeZero_eq_zero_iff, BitVec.toNat_eq]
  rfl

/-- A command is well-formed exactly when its ARG fits the operand of its form (R72). -/
theorem Instr.wf_iff_arg_lt {p : Params} {i : Instr} : i.wf p = true ↔ i.arg < 2 ^ operandBits p i.form := by
  cases i with
  | fsym x | enc x | lleaf x => exact decide_eq_true_iff
  | dbit b => cases b <;> simp [wf, arg, form, operandBits]
  | fclr | build | dbeg | dend | ser | lbeg | lbr | lend | drop => simp [wf, arg, form, operandBits]

/-- The OP and form of every command are a row of the table. -/
theorem Instr.row_mem (i : Instr) : (⟨i.op, i.form⟩ : Row) ∈ opcodeRows := by
  cases i with
  | fclr => exact Laws.TableRow.fclr
  | fsym x => exact Laws.TableRow.fsym x
  | build => exact Laws.TableRow.build
  | enc x => exact Laws.TableRow.enc x
  | dbeg => exact Laws.TableRow.dbeg
  | dbit b => exact Laws.TableRow.dbit b
  | dend => exact Laws.TableRow.dend
  | ser => exact Laws.TableRow.ser
  | lbeg => exact Laws.TableRow.lbeg
  | lleaf x => exact Laws.TableRow.lleaf x
  | lbr => exact Laws.TableRow.lbr
  | lend => exact Laws.TableRow.lend
  | drop => exact Laws.TableRow.drop

theorem opcodeRows_ops_nodup : (opcodeRows.map Row.op).Nodup := by decide

/-- Every row has a command for each ARG that fits its operand. -/
theorem exists_command_of_row {p : Params} {r : Row} (hr : r ∈ opcodeRows) {arg : Nat}
    (harg : arg < 2 ^ operandBits p r.form) : ∃ i : Instr, i.op = r.op ∧ i.form = r.form ∧ i.arg = arg := by
  simp only [opcodeRows, List.mem_cons, List.not_mem_nil, or_false] at hr
  have hnone : ∀ {n : Nat}, n < 2 ^ operandBits p .n → 0 = n := fun h => (Nat.lt_one_iff.mp h).symm
  rcases hr with rfl | rfl | rfl | rfl | rfl | rfl | rfl | rfl | rfl | rfl | rfl | rfl | rfl
  · exact ⟨.fclr, rfl, rfl, hnone harg⟩
  · exact ⟨.fsym arg, rfl, rfl, rfl⟩
  · exact ⟨.build, rfl, rfl, hnone harg⟩
  · exact ⟨.enc arg, rfl, rfl, rfl⟩
  · exact ⟨.dbeg, rfl, rfl, hnone harg⟩
  · refine ⟨.dbit (arg == 1), rfl, rfl, ?_⟩
    obtain rfl | rfl : arg = 0 ∨ arg = 1 := by simp only [operandBits] at harg; omega
    · rfl
    · rfl
  · exact ⟨.dend, rfl, rfl, hnone harg⟩
  · exact ⟨.ser, rfl, rfl, hnone harg⟩
  · exact ⟨.lbeg, rfl, rfl, hnone harg⟩
  · exact ⟨.lleaf arg, rfl, rfl, rfl⟩
  · exact ⟨.lbr, rfl, rfl, hnone harg⟩
  · exact ⟨.lend, rfl, rfl, hnone harg⟩
  · exact ⟨.drop, rfl, rfl, hnone harg⟩

theorem opcodeRows_op_lt {r : Row} (hr : r ∈ opcodeRows) : r.op < 2 ^ 8 := by
  revert r
  decide

/-- Settles O4: both the decoder and the row's mask test the row's OP and that ARG fits the row's operand. -/
theorem legalWordsAreThoseThatSelectARow : Obligations.LegalWordsAreThoseThatSelectARow := by
  unfold Obligations.LegalWordsAreThoseThatSelectARow
  intro p _ w
  refine ⟨fun i hd => ⟨i.row_mem, ?_⟩, fun r hr hw => ?_, opcodeRows_ops_nodup⟩
  · obtain ⟨hwf, hop, harg⟩ := decodeFields_ok_iff.mp hd
    rw [and_rowMask_eq_rowMatch_iff p w i.form i.op_lt, harg]
    exact ⟨hop, Instr.wf_iff_arg_lt.mp hwf⟩
  · obtain ⟨hop, harg⟩ := (and_rowMask_eq_rowMatch_iff p w r.form (opcodeRows_op_lt hr)).mp hw
    obtain ⟨i, hiop, hiform, hiarg⟩ := exists_command_of_row hr harg
    refine ⟨i, decodeFields_ok_iff.mpr ⟨?_, hop.trans hiop.symm, hiarg.symm⟩, hiop, hiform⟩
    rwa [Instr.wf_iff_arg_lt, hiarg, hiform]

/-! ### Illegal words (30_encoding.md R75) -/

/-- A word of a row's OP that decodes has that row's must-be-zero bits all zero. -/
theorem mustBeZero_of_decode {p : Params} {w : Word} {i : Instr} (h : decode p w = .ok i) {r : Row}
    (hr : r ∈ opcodeRows) (hop : r.op = opField w) : w &&& mustBeZero p r.form = 0#32 := by
  obtain ⟨hwf, hiop, harg⟩ := decodeFields_ok_iff.mp h
  have hrow : r = ⟨i.op, i.form⟩ := List.inj_on_of_nodup_map opcodeRows_ops_nodup hr i.row_mem (hop.trans hiop)
  rw [and_mustBeZero_eq_zero_iff, harg, hrow]
  exact Instr.wf_iff_arg_lt.mp hwf

/-- The OP of a word that decodes is one of the table (R74). -/
theorem opField_of_decode {p : Params} {w : Word} {i : Instr} (h : decode p w = .ok i) :
    0 < opField w ∧ opField w < 0x0E := by
  obtain ⟨-, hop, -⟩ := decodeFields_ok_iff.mp h
  rw [hop]
  cases i <;> simp [Instr.op]

end Sys2Proof

namespace Sys2Proof.Machine

/-- A word that does not decode is answered with IllegalCommand alone. -/
theorem runWord_of_decode_error {s : State} {w : Word} {e : Illegal} (h : decode s.params w = .error e) :
    runWord w s = .next { s with rsp := s.rsp ++ [statusWord .illegalCommand] } := by
  rw [runWord, h]
  rfl

/-- Settles O5: a word that decodes has an OP of the table and no must-be-zero bit of its row set, so the words named
decode to no command. -/
theorem illegalWordAnswersAndChangesNothing : Obligations.IllegalWordAnswersAndChangesNothing := by
  unfold Obligations.IllegalWordAnswersAndChangesNothing
  intro s w ws hp hill
  have herr : ∀ i, decode s.params w ≠ .ok i := by
    intro i hd
    obtain ⟨hpos, hlt⟩ := opField_of_decode hd
    rcases hill with hop | hop | ⟨r, hr, hop, hbits⟩ | rfl | rfl
    · omega
    · omega
    · exact hbits (mustBeZero_of_decode hd hr hop)
    · exact absurd hpos (by decide)
    · exact absurd hlt (by decide)
  rw [step_of_cons (s := { s with cmds := w :: ws }) hp rfl]
  cases hd : decode s.params w with
  | ok i => exact absurd hd (herr i)
  | error e => exact runWord_of_decode_error (s := { s with cmds := ws }) hd

end Sys2Proof.Machine
end

section
/-!
PROOFS. The statements of 30_encoding.md about the response words: their bits (R82 to R85), the data words that are
command words (R87), and the shape of every answer (R86).
-/

namespace Sys2Proof.Machine

/-! ### The bits of the response words (30_encoding.md R82 to R85) -/

/-- A word's lower part is or-ed into its upper part. -/
theorem wordOf_eq_or {hi lo : Nat} (hhi : hi < 2 ^ 8) (hlo : lo < 2 ^ 24) :
    wordOf hi lo = BitVec.ofNat 32 (hi * 2 ^ 24) ||| BitVec.ofNat 32 lo := by
  refine BitVec.eq_of_toNat_eq ?_
  have hor := Nat.shiftLeft_add_eq_or_of_lt hlo hi
  rw [Nat.shiftLeft_eq] at hor
  rw [BitVec.toNat_or, wordOf, BitVec.toNat_ofNat, BitVec.toNat_ofNat, BitVec.toNat_ofNat, hor,
    Nat.mod_eq_of_lt (a := hi * 2 ^ 24) (by omega), Nat.mod_eq_of_lt (a := lo) (by omega), ← hor]
  exact Nat.mod_eq_of_lt (by omega)

/-- Settles O6: a symbol stands in the lower part of its word, and the other words are evaluated. -/
theorem responseWordsHaveTheirTabledBits : Obligations.ResponseWordsHaveTheirTabledBits := by
  unfold Obligations.ResponseWordsHaveTheirTabledBits
  refine ⟨fun b => ?_, fun x hx => wordOf_eq_or (hi := 0x0E) (by decide) hx,
    fun x hx => wordOf_eq_or (hi := 0x0A) (by decide) hx, rfl, rfl, rfl, rfl, rfl, rfl, rfl, rfl, rfl, rfl⟩
  cases b <;> rfl

/-! ### Data words as command words (30_encoding.md R87) -/

theorem word_bit (b : Bool) : (Rsp.bit b).word = encode (.dbit b) := rfl

theorem word_kleaf (x : Nat) : (Rsp.kleaf x).word = encode (.lleaf x) := rfl

theorem word_kbr : Rsp.kbr.word = encode .lbr := rfl

/-- The KIND of SYM is the OP of no command. -/
theorem decode_word_sym {p : Params} {x : Nat} (hx : x < 2 ^ 24) :
    decode p (Rsp.sym x).word = .error (.unknownOp 0x0E) := by
  have hop : opField (Rsp.sym x).word = 0x0E := opField_wordOf (hi := 0x0E) (by decide) hx
  rw [decode, hop]
  rfl

/-- Settles O7: BIT, KLEAF and KBR words are the encodings of DBIT, LLEAF and LBR. -/
theorem dataWordsReplayAsCommands : Obligations.DataWordsReplayAsCommands := by
  unfold Obligations.DataWordsReplayAsCommands
  intro p hp
  refine ⟨fun b => ?_, fun x hx => ?_, ?_, fun x hx => decode_word_sym (hx.trans_le (Params.nsym_le hp))⟩
  · exact word_bit b ▸ decode_encode hp rfl
  · exact word_kleaf x ▸ decode_encode hp (decide_eq_true hx)
  · exact word_kbr ▸ decode_encode hp rfl

/-! ### What the invariant says of the parameters, and of the symbols and the size of a tree (10_state.md R22, R25) -/

theorem Inv.params_ok {s : State} (h : Inv s) : s.params.Ok := by
  obtain ⟨hp, -⟩ := h
  exact hp

theorem Inv.sym_lt {s : State} (h : Inv s) {i x : Nat} {n : Node} (hn : Mem.read s.node i = some n)
    (hx : n.sym = some x) : x < s.params.nsym := by
  obtain ⟨-, -, ⟨-, -, hentries⟩, -⟩ := h
  obtain ⟨-, hsym, -⟩ := hentries _ (Mem.mem_of_read hn)
  exact hsym x hx

/-- The leaves of the block's tree carry symbols of the alphabet. -/
theorem Inv.tree_syms_lt {s : State} (h : Inv s) (htv : s.tv = true) {u : SymTree} (hu : s.tree? = some u) :
    ∀ x ∈ u.syms, x < s.params.nsym := by
  obtain ⟨-, -, hleaves, -⟩ := h.exists_tree htv
  intro x hx
  rw [tree_syms_eq hleaves hu] at hx
  obtain ⟨i, -, hi⟩ := List.mem_filterMap.mp hx
  obtain ⟨n, hn, hsym⟩ := Option.bind_eq_some_iff.mp hi
  exact h.sym_lt hn hsym

/-- The block's tree has NN nodes. -/
theorem Inv.tree_size {s : State} (h : Inv s) (htv : s.tv = true) {u : SymTree} (hu : s.tree? = some u) :
    u.size = s.nn := by
  obtain ⟨-, -, hleaves, -⟩ := h.exists_tree htv
  obtain ⟨-, -, -, -, ⟨-, -, hreach⟩, -⟩ := h.treeInv htv
  rw [← reach_length hleaves hu, hreach.length_eq, List.length_range]

/-- A key record is made of branch records and of leaf records of the tree's symbols (45_persistence.md R170). -/
theorem SymTree.mem_records {t : SymTree} {d : Rsp} (h : d ∈ t.records) : d = .kbr ∨ ∃ x ∈ t.syms, d = .kleaf x := by
  induction t with
  | leaf f x => exact .inr ⟨x, List.mem_singleton_self x, List.mem_singleton.mp h⟩
  | branch f l r ihl ihr =>
    simp only [records, List.mem_cons, List.mem_append] at h
    simp only [syms, List.mem_append]
    rcases h with rfl | h | h
    · exact .inl rfl
    · exact (ihl h).imp_right fun ⟨x, hx, hd⟩ => ⟨x, .inl hx, hd⟩
    · exact (ihr h).imp_right fun ⟨x, hx, hd⟩ => ⟨x, .inr hx, hd⟩

/-! ### The shape of every answer (30_encoding.md R86) -/

/-- The words that t has more than s are an answer R86 allows command i in s. -/
def AnswersAsTabled (i : Instr) (s t : State) : Prop :=
  ∃ ds c, t.rsp = s.rsp ++ words ds ++ [statusWord c] ∧ (∀ d ∈ ds, d.word >>> 24 ≠ 0#32) ∧
    (c ≠ .ok → ds = []) ∧ AllowedAnswer s i ds c

/-- A STATUS word alone. -/
theorem AnswersAsTabled.status {i : Instr} {s t : State} {c : Status} (ht : t.rsp = s.rsp ++ [statusWord c])
    (hc : AllowedAnswer s i [] c) : AnswersAsTabled i s t :=
  ⟨[], c, by simpa [words] using ht, nofun, fun _ => rfl, hc⟩

theorem opField_eq_toNat_shift (w : Word) : opField w = (w >>> 24).toNat := by
  rw [opField, BitVec.toNat_ushiftRight, Nat.shiftRight_eq_div_pow]

theorem Rsp.kind_lt (d : Rsp) : d.kind < 2 ^ 8 := by
  cases d <;> simp [Rsp.kind]

/-- A word shows its KIND when its payload fits the lower part. -/
theorem Rsp.word_shift_ne_zero {d : Rsp} (hkind : 0 < d.kind) (hpayload : d.payload < 2 ^ 24) :
    d.word >>> 24 ≠ 0#32 := by
  intro h
  have hop : opField d.word = d.kind := opField_wordOf d.kind_lt hpayload
  rw [opField_eq_toNat_shift, h] at hop
  exact hkind.ne hop

/-- Data words, none of KIND 0x00, and STATUS(OK). -/
theorem AnswersAsTabled.data {i : Instr} {s t : State} {ds : List Rsp}
    (ht : t.rsp = s.rsp ++ words ds ++ [statusWord .ok]) (hds : ∀ d ∈ ds, 0 < d.kind ∧ d.payload < 2 ^ 24)
    (hc : AllowedAnswer s i ds .ok) : AnswersAsTabled i s t := by
  refine ⟨ds, .ok, ht, fun d hd => ?_, fun h => absurd rfl h, hc⟩
  obtain ⟨hkind, hpayload⟩ := hds d hd
  exact Rsp.word_shift_ne_zero hkind hpayload

theorem execEnc_answersAsTabled {x : Nat} {s t : State} (h : execEnc x s = .next t) :
    AnswersAsTabled (.enc x) s t := by
  obtain ⟨-, ⟨-, rfl⟩ | ⟨-, -, rfl⟩ | ⟨-, q, hq, rfl⟩⟩ := execEnc_next_iff.mp h
  · exact .status rfl (.inr ⟨rfl, .inl rfl⟩)
  · exact .status rfl (.inr ⟨rfl, .inr rfl⟩)
  · refine .data (ds := q.map Rsp.bit) rfl (fun d hd => ?_) (.inl ⟨rfl, q, hq, rfl⟩)
    obtain ⟨b, -, rfl⟩ := List.mem_map.mp hd
    cases b <;> decide

theorem execDend_answersAsTabled {s t : State} (hinv : Inv s) (h : execDend s = .next t) :
    AnswersAsTabled .dend s t := by
  rcases execDend_next_iff.mp h with ⟨-, rfl⟩ | ⟨-, rfl⟩ | ⟨-, rfl⟩ | ⟨-, n, hn, ⟨-, rfl⟩ | ⟨x, hx, rfl⟩⟩
  · exact .status rfl (.inr ⟨rfl, .inl rfl⟩)
  · exact .status rfl (.inr ⟨rfl, .inr (.inl rfl)⟩)
  · exact .status rfl (.inr ⟨rfl, .inr (.inr rfl)⟩)
  · exact .status rfl (.inr ⟨rfl, .inr (.inr rfl)⟩)
  · have hlt := hinv.sym_lt hn hx
    refine .data (ds := [.sym x]) rfl (fun d hd => ?_) (.inl ⟨rfl, x, hlt, rfl⟩)
    obtain rfl := List.mem_singleton.mp hd
    exact ⟨by simp [Rsp.kind], hlt.trans_le (Params.nsym_le hinv.params_ok)⟩

theorem execSer_answersAsTabled {s t : State} (hinv : Inv s) (h : execSer s = .next t) :
    AnswersAsTabled .ser s t := by
  rcases execSer_next_iff.mp h with ⟨-, rfl⟩ | ⟨htv, u, hu, rfl⟩
  · exact .status rfl (.inr ⟨rfl, rfl⟩)
  · refine .data (ds := u.records) rfl (fun d hd => ?_)
      (.inl ⟨rfl, u.records_length.trans (hinv.tree_size htv hu), u, hu, rfl⟩)
    rcases SymTree.mem_records hd with rfl | ⟨x, hx, rfl⟩
    · decide
    · exact ⟨by simp [Rsp.kind], (hinv.tree_syms_lt htv hu x hx).trans_le (Params.nsym_le hinv.params_ok)⟩

/-- LLEAF and LBR answer BadState or OK (45_persistence.md R173). -/
theorem loadNode_rsp {x : Option Nat} {s t : State} (h : loadNode x s = .next t) :
    t.rsp = s.rsp ++ [statusWord .badState] ∨ t.rsp = s.rsp ++ [statusWord .ok] := by
  rcases loadNode_next_iff.mp h with ⟨-, rfl⟩ | ⟨-, rfl⟩ | ⟨-, -, rfl⟩ | ⟨-, -, u, hu, rfl⟩
  · exact .inl rfl
  · exact .inr rfl
  · exact .inr rfl
  · obtain ⟨m, stk, -, -, rfl⟩ := takeRecord_ok_iff.mp hu
    exact .inr rfl

/-- Every command answers as tabled; the three that answer data words have their own lemmas. -/
theorem exec_answersAsTabled {i : Instr} {s t : State} (hinv : Inv s) (h : exec i s = .next t) :
    AnswersAsTabled i s t := by
  cases i with
  | enc x => exact execEnc_answersAsTabled h
  | dend => exact execDend_answersAsTabled hinv h
  | ser => exact execSer_answersAsTabled hinv h
  | fclr =>
    obtain rfl := execFclr_next_iff.mp h
    exact .status rfl ⟨rfl, rfl⟩
  | fsym x =>
    obtain ⟨-, ⟨-, rfl⟩ | ⟨-, -, -, rfl⟩⟩ := execFsym_next_iff.mp h
    · exact .status rfl ⟨rfl, .inr rfl⟩
    · exact .status rfl ⟨rfl, .inl rfl⟩
  | build =>
    rcases execBuild_next_iff.mp h with ⟨-, rfl⟩ | ⟨-, -, rfl⟩ | ⟨-, -, u, hu, rfl⟩
    · exact .status rfl ⟨rfl, .inr (.inl rfl)⟩
    · exact .status rfl ⟨rfl, .inr (.inr rfl)⟩
    · obtain ⟨m, r, code, -, -, rfl⟩ := buildSteps_ok_iff.mp hu
      exact .status rfl ⟨rfl, .inl rfl⟩
  | dbeg =>
    rcases execDbeg_next_iff.mp h with ⟨-, rfl⟩ | ⟨-, n, -, rfl⟩
    · exact .status rfl ⟨rfl, .inr rfl⟩
    · exact .status rfl ⟨rfl, .inl rfl⟩
  | dbit b =>
    rcases execDbit_next_iff.mp h with ⟨-, rfl⟩ | ⟨-, u, hu, rfl⟩
    · exact .status rfl ⟨rfl, .inr rfl⟩
    · rw [stepCursor_writes hu]
      exact .status rfl ⟨rfl, .inl rfl⟩
  | lbeg =>
    obtain rfl := execLbeg_next_iff.mp h
    exact .status rfl ⟨rfl, rfl⟩
  | lleaf x =>
    rcases loadNode_rsp (execLleaf_next_iff.mp h).2 with hrsp | hrsp
    · exact .status hrsp ⟨rfl, .inr rfl⟩
    · exact .status hrsp ⟨rfl, .inl rfl⟩
  | lbr =>
    rcases loadNode_rsp h with hrsp | hrsp
    · exact .status hrsp ⟨rfl, .inr rfl⟩
    · exact .status hrsp ⟨rfl, .inl rfl⟩
  | lend =>
    rcases execLend_next_iff.mp h with ⟨-, rfl⟩ | ⟨-, -, rfl⟩ | ⟨-, -, u, hu, rfl⟩
    · exact .status rfl ⟨rfl, .inr (.inl rfl)⟩
    · exact .status rfl ⟨rfl, .inr (.inr rfl)⟩
    · obtain ⟨code, -, rfl⟩ := finishLoad_ok_iff.mp hu
      exact .status rfl ⟨rfl, .inl rfl⟩
  | drop =>
    obtain rfl := execDrop_next_iff.mp h
    exact .status rfl ⟨rfl, rfl⟩

/-- Settles O45, command by command: each case of a command's inversion lemma names the words it emits. -/
theorem answersHaveTheirTabledShape : Obligations.AnswersHaveTheirTabledShape := by
  unfold Obligations.AnswersHaveTheirTabledShape
  exact ⟨fun i s t hinv _ h => exec_answersAsTabled hinv h, fun w s e hd => runWord_of_decode_error hd⟩

end Sys2Proof.Machine
end

section
/-!
PROOFS. The data words of an ENC answer, sent back as commands between DBEG and DEND (30_encoding.md R87): a list of
command words runs as the list of its commands, a decode session computes decode (44_decoder.md R157), and a code
decodes to its symbol (R156).
-/

namespace Sys2Proof.Machine

/-! ### Words run as commands (00_scope.md R14, R15; 30_encoding.md R73) -/

/-- No command writes the parameters of the block. -/
theorem exec_params {i : Instr} {s t : State} (h : exec i s = .next t) : t.params = s.params := by
  have hw := commandsWriteOnlyTheirColumns i s t h
  unfold OnlyTabledStateWritten at hw
  cases i <;> rw [hw]

/-- The words of a list of well-formed commands run as the commands do. -/
theorem runWords_encode {s : State} (hp : s.params.Ok) {is : List Instr} (hwf : ∀ i ∈ is, i.wf s.params = true) :
    runWords (is.map encode) s = runAll is s := by
  induction is generalizing s with
  | nil => rfl
  | cons i is ih =>
    obtain ⟨hi, his⟩ := List.forall_mem_cons.mp hwf
    rw [List.map_cons, runWords, runAll, runWord_of_decode (decode_encode hp hi)]
    cases h : exec i s with
    | next t =>
      have hparams := exec_params h
      exact ih (hparams ▸ hp) (hparams ▸ his)
    | fault f => rfl
    | refused r => rfl

/-! ### A decode session computes decode (44_decoder.md R157) -/

/-- What decoding the path q still gives in an open decode session: below the cursor the walk of R150, on the virtual
root of a one-leaf tree its four results (R151), and a dead end for ever in DEAD (R33). -/
def State.sessionResult (s : State) (q : BitPath) : Option DecodeResult :=
  match s.dst with
  | .idle => none
  | .vroot =>
    match q with
    | [] => some .incompletePath
    | false :: q => descend s.node s.dcur q
    | true :: _ => some .deadEnd
  | .atNode => descend s.node s.dcur q
  | .dead => some .deadEnd

theorem descend_nil {m : Mem Node} {i : Nat} {r : DecodeResult} :
    descend m i [] = some r ↔
      ∃ n, Mem.read m i = some n ∧ ((n.sym = none ∧ r = .incompletePath) ∨ ∃ x, n.sym = some x ∧ r = .symbol x) := by
  cases hn : Mem.read m i with
  | none => simp [descend, hn]
  | some n => cases hx : n.sym <;> simp [descend, hn, hx, eq_comm]

theorem descend_cons {m : Mem Node} {i : Nat} {b : Bool} {q : BitPath} {r : DecodeResult} :
    descend m i (b :: q) = some r ↔
      ∃ n, Mem.read m i = some n ∧
        ((n.child b = none ∧ r = .deadEnd) ∨ ∃ j, n.child b = some j ∧ descend m j q = some r) := by
  cases hn : Mem.read m i with
  | none => simp [descend, hn]
  | some n =>
    have hchild : (if b then n.right else n.left) = n.child b := rfl
    cases hx : n.child b <;> simp [descend, hn, hchild, hx, eq_comm]

/-- DEND answers the result of the path consumed, and closes the session. -/
theorem execDend_of_sessionResult {s : State} {r : DecodeResult} (h : s.sessionResult [] = some r) :
    execDend s = .next { s with dst := .idle, dcur := 0, rsp := s.rsp ++ words r.answer } := by
  rw [execDend_next_iff]
  unfold State.sessionResult at h
  split at h
  · cases h
  · next hd =>
    cases h
    exact .inr (.inr (.inl ⟨hd, rfl⟩))
  · next hd =>
    obtain ⟨n, hn, ⟨hx, rfl⟩ | ⟨x, hx, rfl⟩⟩ := descend_nil.mp h
    · exact .inr (.inr (.inr ⟨hd, n, hn, .inl ⟨hx, rfl⟩⟩))
    · refine .inr (.inr (.inr ⟨hd, n, hn, .inr ⟨x, hx, ?_⟩⟩))
      simp [words, DecodeResult.answer, done, emit, closeDecode]
  · next hd =>
    cases h
    exact .inr (.inl ⟨hd, rfl⟩)

/-- DBIT takes one bit of the path: what the rest of it gives is what the whole gave before. -/
theorem execDbit_of_sessionResult {s : State} {b : Bool} {q : BitPath} {r : DecodeResult}
    (h : s.sessionResult (b :: q) = some r) :
    ∃ t, execDbit b s = .next t ∧ t.sessionResult q = some r ∧
      t = { s with dst := t.dst, dcur := t.dcur, rsp := s.rsp ++ [statusWord .ok] } := by
  have hopen : s.dst ≠ .idle := fun hd => by simp [State.sessionResult, hd] at h
  suffices hstep : ∃ u, stepCursor b s = .ok u ∧ u.sessionResult q = some r by
    obtain ⟨u, hu, hr⟩ := hstep
    refine ⟨done u, execDbit_next_iff.mpr (.inr ⟨hopen, u, hu, rfl⟩), hr, ?_⟩
    rw [stepCursor_writes hu]
    rfl
  simp only [stepCursor_ok_iff]
  unfold State.sessionResult at h
  split at h
  · cases h
  · next hd =>
    cases b
    · exact ⟨{ s with dst := .atNode }, .inr (.inl ⟨hd, rfl⟩), h⟩
    · exact ⟨{ s with dst := .dead }, .inr (.inl ⟨hd, rfl⟩), h⟩
  · next hd =>
    obtain ⟨n, hn, ⟨hc, rfl⟩ | ⟨j, hc, hj⟩⟩ := descend_cons.mp h
    · exact ⟨{ s with dst := .dead }, .inr (.inr ⟨hd, n, hn, .inl ⟨hc, rfl⟩⟩), rfl⟩
    · refine ⟨{ s with dcur := j }, .inr (.inr ⟨hd, n, hn, .inr ⟨j, hc, rfl⟩⟩), ?_⟩
      simpa [State.sessionResult, hd] using hj
  · next hd =>
    refine ⟨s, .inl ⟨.inr hd, rfl⟩, ?_⟩
    simpa [State.sessionResult, hd] using h

/-- The bits of a path and DEND answer OK for each bit and then the result, and close the session. -/
theorem runAll_session {s : State} {q : BitPath} {r : DecodeResult} (h : s.sessionResult q = some r) :
    runAll (q.map .dbit ++ [.dend]) s = .next { s with
      dst := .idle, dcur := 0, rsp := s.rsp ++ List.replicate q.length (statusWord .ok) ++ words r.answer } := by
  induction q generalizing s with
  | nil => simp [runAll, exec, execDend_of_sessionResult h]
  | cons b q ih =>
    obtain ⟨t, ht, hr, hw⟩ := execDbit_of_sessionResult h
    have hrest := ih hr
    rw [List.map_cons, List.cons_append, runAll, exec, ht]
    simp only
    rw [hrest, hw]
    simp [List.replicate_succ]

/-- The session that DBEG opens gives decode of the whole path, also on the virtual root of a one-leaf tree (R150 to
R152). -/
theorem execDbeg_opens_session {s : State} (htv : s.tv = true) (hleaves : ChildlessLeaves s.node) {n : Node}
    (hn : Mem.read s.node s.root = some n) :
    ∃ t, execDbeg s = .next t ∧ (∀ q, t.sessionResult q = decodePath s.node s.root q) ∧
      t = { s with dst := t.dst, dcur := t.dcur, rsp := s.rsp ++ [statusWord .ok] } := by
  refine ⟨_, execDbeg_next_iff.mpr (.inr ⟨htv, n, hn, rfl⟩), fun q => ?_, rfl⟩
  cases hx : n.sym with
  | none => simp [State.sessionResult, decodePath, hn, hx]
  | some x =>
    obtain ⟨hl, hr⟩ := hleaves _ _ _ hn hx
    simp only [State.sessionResult, decodePath, hn, hx, done_dst, Option.isSome_some, if_true]
    match q with
    | [] | true :: [] | true :: _ :: _ => rfl
    | [false] => exact descend_nil.mpr ⟨n, hn, .inr ⟨x, hx, rfl⟩⟩
    | false :: b :: _ => exact descend_cons.mpr ⟨n, hn, .inl ⟨by cases b <;> assumption, rfl⟩⟩

theorem State.rootNode_of_tree {s : State} {u : SymTree} (hu : s.tree? = some u) :
    ∃ n, Mem.read s.node s.root = some n := by
  rcases treeAt_succ_some.mp hu with ⟨n, x, hn, -⟩ | ⟨n, l, r, a, b, hn, -⟩ <;> exact ⟨n, hn⟩

theorem decodeCommands_wf (p : Params) (q : BitPath) : ∀ i ∈ decodeCommands q, i.wf p = true := by
  intro i hi
  simp only [decodeCommands, List.mem_cons, List.mem_append, List.mem_map, List.not_mem_nil, or_false] at hi
  rcases hi with rfl | ⟨b, -, rfl⟩ | rfl <;> rfl

/-- A decode session on an idle block answers OK for DBEG and for each bit, then decode of the path, and leaves the
state as it was. -/
theorem runAll_decodeCommands {s : State} (h : Inv s) (htv : s.tv = true) (hidle : s.dst = .idle) {u : SymTree}
    (hu : s.tree? = some u) (q : BitPath) :
    runAll (decodeCommands q) s = .next { s with
      rsp := s.rsp ++ List.replicate (q.length + 1) (statusWord .ok) ++ words (u.decode q).answer } := by
  obtain ⟨-, -, hleaves, -⟩ := h.exists_tree htv
  obtain ⟨-, -, -, -, -, ⟨-, hcur, -⟩, -⟩ := id h
  have hdecode := decodePath_eq_decode hleaves hu q
  obtain ⟨n, hn⟩ := s.rootNode_of_tree hu
  obtain ⟨t, ht, hsession, hw⟩ := execDbeg_opens_session htv hleaves hn
  have hrest := runAll_session ((hsession q).trans hdecode)
  rw [decodeCommands, runAll, exec, ht]
  simp only
  rw [hrest, hw]
  simp [← hidle, ← hcur hidle, List.replicate_succ]

/-! ### A code decodes to its symbol (44_decoder.md R156) -/

/-- The entries of a code table decode to their symbols. -/
theorem SymTree.decode_of_mem_codeTable {t : SymTree} {x : Nat} {q : BitPath} (h : (x, q) ∈ t.codeTable) :
    t.decode q = .symbol x := by
  cases t with
  | leaf f y =>
    cases List.mem_singleton.mp h
    rfl
  | branch f l r => exact (mem_paths_iff_walkPath _ x q).mp h

theorem Inv.decode_of_code {s : State} (h : Inv s) (htv : s.tv = true) {u : SymTree} (hu : s.tree? = some u) {x : Nat}
    {q : BitPath} (hq : Mem.read s.code x = some q) : u.decode q = .symbol x := by
  obtain ⟨t, ht, -, hcode⟩ := h.exists_tree htv
  obtain rfl : t = u := Option.some.inj (ht.symm.trans hu)
  have hx : x < s.params.nsym := by
    by_contra hge
    rw [h.codeInv.read_of_nsym_le (Nat.not_lt.mp hge)] at hq
    cases hq
  obtain ⟨es, fs, htable, -⟩ := List.lookup_eq_some_iff.mp ((hcode x hx).symm.trans hq)
  exact SymTree.decode_of_mem_codeTable (by simp [htable])

/-! ### The replay (30_encoding.md R87, 43_encoder.md R143) -/

/-- When ENC answers OK, its data words are the bits of the symbol's code. -/
theorem execEnc_data_words {s a : State} {x : Nat} {ws : List Word} (h : execEnc x s = .next a)
    (hrsp : a.rsp = s.rsp ++ ws ++ [statusWord .ok]) :
    s.tv = true ∧ ∃ q, Mem.read s.code x = some q ∧ ws = words (q.map .bit) := by
  have hlast {c : Status} (hc : (s.rsp ++ [statusWord c] : List Word) = s.rsp ++ ws ++ [statusWord .ok]) :
      statusWord c = statusWord .ok := by
    simpa using congrArg List.getLast? hc
  obtain ⟨-, ⟨-, rfl⟩ | ⟨-, -, rfl⟩ | ⟨htv, q, hq, rfl⟩⟩ := execEnc_next_iff.mp h
  · exact absurd (hlast hrsp) (by decide)
  · exact absurd (hlast hrsp) (by decide)
  · refine ⟨htv, q, hq, ?_⟩
    simpa [words, statusWord] using hrsp.symm

/-- Settles O35: the data words are the code of x as DBIT words, so the list of words is the decode session of that
code, which decodes to x. -/
theorem encodedWordsReplayToTheSymbol : Obligations.EncodedWordsReplayToTheSymbol := by
  unfold Obligations.EncodedWordsReplayToTheSymbol
  intro s a x ws h hidle henc hrsp
  obtain ⟨htv, q, hq, rfl⟩ := execEnc_data_words henc hrsp
  obtain ⟨u, hu, -⟩ := h.exists_tree htv
  have hwords : encode .dbeg :: (words (q.map .bit) ++ [encode .dend]) = (decodeCommands q).map encode := by
    simp [decodeCommands, words, Function.comp_def, word_bit]
  rw [hwords, runWords_encode h.params_ok (decodeCommands_wf _ q), runAll_decodeCommands h htv hidle hu,
    h.decode_of_code htv hu hq]
  simp [words, DecodeResult.answer, statusWord]

end Sys2Proof.Machine
end

section
/-!
PROOFS. The statements of 40_frequency.md: FCLR empties the Frequency Table (R101), FSYM counts one symbol unless the
table is full (R102, R103), and FCLR with one FSYM per symbol counts the occurrences in any order (R100).
-/

namespace Sys2Proof.Machine

/-- A command that is done has answered STATUS(OK) and written nothing besides. -/
theorem done_eq (s : State) : done s = { s with rsp := s.rsp ++ [statusWord .ok] } := rfl

/-! ### FCLR (40_frequency.md R101) -/

theorem exec_fclr (s : State) : exec .fclr s = .next (done { s with freq := [], ftotal := 0 }) :=
  execFclr_next_iff.mpr rfl

/-- Settles O12: FREQ becomes the memory that lists no count, and every count of it reads 0. -/
theorem fclrEmptiesTheTableOnly : Obligations.FclrEmptiesTheTableOnly := by
  unfold Obligations.FclrEmptiesTheTableOnly
  exact ⟨rfl, fun s => ⟨_, exec_fclr s, fun x => readFreq_nil x, rfl⟩⟩

/-! ### FSYM (40_frequency.md R102) -/

/-- The word of FSYM: its symbol is below NSYM, and so fits ARG (00_scope.md R6). -/
theorem encode_fsym {p : Params} (hp : p.Ok) {x : Nat} (hx : x < p.nsym) :
    encode (.fsym x) = 0x02000000#32 ||| BitVec.ofNat 32 x :=
  wordOf_eq_or (hi := 0x02) (by decide) (hx.trans_le (Params.nsym_le hp))

/-- No symbol has more occurrences than the table has in all (10_state.md R30 item 1). -/
theorem FreqInv.readFreq_le_ftotal {s : State} (h : FreqInv s) {x : Nat} (hx : x < s.params.nsym) :
    readFreq s.freq x ≤ s.ftotal := by
  obtain ⟨-, -, htotal, -⟩ := h
  rw [htotal]
  exact List.single_le_sum (by simp) _ (List.mem_map_of_mem (List.mem_range.mpr hx))

/-- A table that is not full has room for one more occurrence: neither addition of R102 overflows, the count of x being
no more than FTOTAL. -/
theorem exec_fsym_of_not_full {s : State} (h : FreqInv s) {x : Nat} (hx : x < s.params.nsym)
    (hfull : s.ftotal ≠ s.params.freqMax) :
    exec (.fsym x) s = .next (done { s with
      freq := writeFreq s.freq x (readFreq s.freq x + 1), ftotal := s.ftotal + 1 }) := by
  have hle := h.readFreq_le_ftotal hx
  obtain ⟨-, -, -, hmax⟩ := h
  exact execFsym_next_iff.mpr ⟨hx, .inr ⟨hfull, by omega, by omega, rfl⟩⟩

theorem exec_fsym_of_full {s : State} {x : Nat} (hx : x < s.params.nsym) (hfull : s.ftotal = s.params.freqMax) :
    exec (.fsym x) s = .next (raise .capacityExceeded s) :=
  execFsym_next_iff.mpr ⟨hx, .inl ⟨hfull, rfl⟩⟩

/-- Settles O13: the count of x is the one entry of FREQ that is written, and only when FTOTAL leaves room for it. -/
theorem fsymCountsOneSymbolUnlessFull : Obligations.FsymCountsOneSymbolUnlessFull := by
  unfold Obligations.FsymCountsOneSymbolUnlessFull
  intro s x hp hf hx
  refine ⟨encode_fsym hp hx, fun hfull => ?_, exec_fsym_of_full hx⟩
  refine ⟨_, exec_fsym_of_not_full hf hx hfull, ?_, fun y hy => ?_, rfl⟩
  · rw [done_freq, readFreq_writeFreq_same]
  · rw [done_freq, readFreq_writeFreq_ne _ _ hy]

/-! ### A sequence of symbols (40_frequency.md R100) -/

theorem runAll_cons_of_next {i : Instr} {is : List Instr} {s t : State} (h : exec i s = .next t) :
    runAll (i :: is) s = runAll is t := by
  rw [runAll, h]

/-- One more occurrence of x in the table, as the number of occurrences in a list with x in front. -/
theorem readFreq_count_add (f : Mem Nat) (x y : Nat) (xs : List Nat) :
    readFreq (writeFreq f x (readFreq f x + 1)) y + xs.count y = readFreq f y + (x :: xs).count y := by
  by_cases hy : y = x
  · subst hy
    rw [readFreq_writeFreq_same, List.count_cons_self]
    omega
  · rw [readFreq_writeFreq_ne f _ hy, List.count_cons_of_ne (Ne.symm hy)]

/-- The state after one FSYM per symbol of xs, each answered OK: the table is consistent and counts the occurrences in xs
on top of those it counted in s, and nothing else is written. -/
structure Counted (xs : List Nat) (s t : State) : Prop where
  inv : FreqInv t
  reads (y : Nat) : readFreq t.freq y = readFreq s.freq y + xs.count y
  frame : t = { s with
    freq := t.freq, ftotal := s.ftotal + xs.length, rsp := s.rsp ++ List.replicate xs.length (statusWord .ok) }

/-- FTOTAL only grows, so a sequence that fits at its end fits at every symbol: no FSYM is refused. -/
theorem runAll_fsyms {s : State} (h : FreqInv s) {xs : List Nat} (hxs : ∀ x ∈ xs, x < s.params.nsym)
    (hroom : s.ftotal + xs.length ≤ s.params.freqMax) : ∃ t, runAll (xs.map .fsym) s = .next t ∧ Counted xs s t := by
  induction xs generalizing s with
  | nil => exact ⟨s, rfl, h, fun y => rfl, by simp⟩
  | cons x xs ih =>
    obtain ⟨hx, hxs⟩ := List.forall_mem_cons.mp hxs
    rw [List.length_cons] at hroom
    have hcount := h.count hx (by omega)
    obtain ⟨t, ht, hinv, hread, hframe⟩ := ih (s := done { s with
      freq := writeFreq s.freq x (readFreq s.freq x + 1), ftotal := s.ftotal + 1 }) hcount hxs
      (by simp only [done_ftotal, done_params]; omega)
    refine ⟨t, ?_, hinv, fun y => ?_, ?_⟩
    · rw [List.map_cons, runAll_cons_of_next (exec_fsym_of_not_full h hx (by omega)), ht]
    · rw [hread y, done_freq, readFreq_count_add]
    · rw [hframe]
      simp [done_eq, List.replicate_succ, Nat.add_right_comm, Nat.add_assoc]

/-- The order of the symbols does not matter: the table is canonical, so what it reads determines it (20_memory.md
R55). -/
theorem Counted.eq_of_perm {xs ys : List Nat} {s t u : State} (ht : Counted xs s t) (hu : Counted ys s u)
    (hperm : ys.Perm xs) : u = t := by
  obtain ⟨⟨hsortedt, hentriest, -⟩, hreadt, hframet⟩ := ht
  obtain ⟨⟨hsortedu, hentriesu, -⟩, hreadu, hframeu⟩ := hu
  have hfreq : u.freq = t.freq := by
    refine freq_ext hsortedu hsortedt (fun e he => (hentriesu e he).2) (fun e he => (hentriest e he).2) fun y => ?_
    rw [hreadu, hreadt, hperm.count_eq]
  rw [hframeu, hframet, hfreq, hperm.length_eq]

/-- FCLR leaves the empty table, which is consistent, and the FSYMs count on top of it. -/
theorem runAll_fclr_fsyms {s : State} {xs : List Nat} (hxs : ∀ x ∈ xs, x < s.params.nsym)
    (hlen : xs.length ≤ s.params.freqMax) :
    ∃ t, runAll (.fclr :: xs.map .fsym) s = .next t ∧ Counted xs (done { s with freq := [], ftotal := 0 }) t := by
  rw [runAll_cons_of_next (exec_fclr s)]
  exact runAll_fsyms (freqInv_of_empty rfl rfl) hxs (by simpa using hlen)

/-- Settles O14: the run counts the symbols of its own sequence, and the two tables of one multiset are equal. -/
theorem tableHoldsOccurrenceCounts : Obligations.TableHoldsOccurrenceCounts := by
  unfold Obligations.TableHoldsOccurrenceCounts
  intro s xs _ hxs hlen
  obtain ⟨t, ht, hcounted⟩ := runAll_fclr_fsyms hxs hlen
  refine ⟨t, ht, fun x => ?_, ?_, fun ys hys => ?_⟩
  · simpa using hcounted.reads x
  · rw [hcounted.frame]
    simp [done_eq, List.replicate_succ]
  · obtain ⟨u, hu, hcountedu⟩ :=
      runAll_fclr_fsyms (fun y hy => hxs y (hys.mem_iff.mp hy)) (hys.length_eq.trans_le hlen)
    rw [hu, hcounted.eq_of_perm hcountedu hys]

end Sys2Proof.Machine
end

section
/-!
PROOFS. What BUILD leaves (41_tree_builder.md R111 to R115, R118), said in full for the statements of that file: when it
answers and with what, the leaves in front and the branches behind them, and which two nodes every branch merges.
-/

namespace Sys2Proof.Machine

/-! ### Seed and Merge, as one induction (R111, R112) -/

/-- The entries Seed allocates, by index. -/
theorem mem_seedLeaves {freq : Mem Nat} {xs : List Nat} {e : Nat × Node} :
    e ∈ seedLeaves freq 0 xs ↔ ∃ x, xs[e.1]? = some x ∧ e.2 = leafNode (readFreq freq x) x := by
  obtain ⟨k, n⟩ := e
  simp only [seedLeaves, List.mem_map, Prod.exists, Prod.mk.injEq, List.mk_mem_zipIdx_iff_getElem?]
  constructor
  · rintro ⟨x, _, hx, rfl, rfl⟩
    exact ⟨x, hx, rfl⟩
  · rintro ⟨x, hx, rfl⟩
    exact ⟨x, k, hx, rfl, rfl⟩

/-- Seed never runs out of NODE, so BUILD's tree is what Merge makes of the seeded leaves. -/
theorem buildTree_eq_merge (p : Params) (freq : Mem Nat) :
    buildTree p freq =
      merge p (tableSymbols p freq).length (seedLeaves freq 0 (tableSymbols p freq))
        (seedKeys freq 0 (tableSymbols p freq)) (tableSymbols p freq).length := by
  have hlen := tableSymbols_length_le p freq
  have hcap := Params.nodeCap_eq p
  have hpos : 0 < p.nsym := Nat.two_pow_pos _
  simp [buildTree, seed_eq (p := p) (k := 0) (m := []) rfl (show 0 + (tableSymbols p freq).length ≤ p.nodeCap by omega),
    seedKeys_length]

/-- The induction over BUILD: what Seed establishes and every round of Merge keeps, over the forest Merge works on, holds
of the finished tree. -/
theorem buildTree_induction {p : Params} {freq : Mem Nat} {P : Mem Node → List Key → Nat → Prop}
    (hseed : P (seedLeaves freq 0 (tableSymbols p freq)) (seedKeys freq 0 (tableSymbols p freq))
      (tableSymbols p freq).length)
    (hround : ∀ {total m q q1 q2 next a b}, Forest (tableSymbols p freq) total m q next → P m q next →
      extractMin q = some (a, q1) → extractMin q1 = some (b, q2) →
      P (Mem.write m next (branchNode (a.1 + b.1) a.2 b.2)) (q2 ++ [(a.1 + b.1, next)]) (next + 1))
    {m : Mem Node} {r : Nat} (h : buildTree p freq = .ok (m, r)) : ∃ f, P m [(f, r)] (r + 1) := by
  obtain ⟨hr, -⟩ := buildTree_ok h
  rw [buildTree_eq_merge] at h
  obtain ⟨f, last, ⟨-, hP⟩, hlast⟩ := merge_induction
    (P := fun m q next => (∃ total, Forest (tableSymbols p freq) total m q next) ∧ P m q next)
    (fun m q next a q1 b q2 ⟨⟨total, hforest⟩, hP⟩ ha hb _ _ =>
      ⟨⟨total, hforest.step ha hb⟩, hround hforest hP ha hb⟩)
    ⟨⟨_, Forest.seed freq _⟩, hseed⟩ h
  rw [seedKeys_length] at hlast
  obtain rfl : last = r + 1 := by omega
  exact ⟨f, hP⟩

/-- The leaves stand in front, in symbol order, and only branches behind them (R113). -/
theorem buildTree_leaves_first {p : Params} {freq : Mem Nat} {m : Mem Node} {r : Nat}
    (h : buildTree p freq = .ok (m, r)) :
    ∃ bs, m = seedLeaves freq 0 (tableSymbols p freq) ++ bs ∧ ∀ e ∈ bs, e.2.sym = none := by
  refine (buildTree_induction
    (P := fun m _ _ => ∃ bs, m = seedLeaves freq 0 (tableSymbols p freq) ++ bs ∧ ∀ e ∈ bs, e.2.sym = none)
    ?_ ?_ h).elim fun _ hfirst => hfirst
  · exact ⟨[], by simp, by simp⟩
  · rintro total m q q1 q2 next a b hforest ⟨bs, rfl, hbs⟩ - -
    refine ⟨bs ++ [(next, branchNode (a.1 + b.1) a.2 b.2)], ?_, ?_⟩
    · rw [Mem.write_above (fun k hk => List.mem_range.mp (hforest.keys ▸ hk)), List.append_assoc]
    · simpa [or_imp, forall_and, branchNode] using hbs

/-- A leaf entry of a built tree belongs to a key of the table: it stands at the key's place and carries its count. -/
theorem buildTree_leaf {p : Params} {freq : Mem Nat} {m : Mem Node} {r : Nat} (h : buildTree p freq = .ok (m, r))
    {e : Nat × Node} (he : e ∈ m) {x : Nat} (hx : e.2.sym = some x) :
    (tableSymbols p freq)[e.1]? = some x ∧ e.2 = leafNode (readFreq freq x) x := by
  obtain ⟨bs, rfl, hbs⟩ := buildTree_leaves_first h
  rcases List.mem_append.mp he with he | he
  · obtain ⟨y, hy, hn⟩ := mem_seedLeaves.mp he
    obtain rfl : y = x := by simpa [hn, leafNode] using hx
    exact ⟨hy, hn⟩
  · exact absurd (hx.symm.trans (hbs e he)) nofun

/-! ### The two least waiting nodes (R112, R114) -/

/-- The branch n at index j is over the least waiting node a, to the right, and the second least b, to the left, in the
order of R114, and carries the sum of their frequencies (R112, R115). -/
def MergesTwoLeast (m : Mem Node) (j : Nat) (n : Node) : Prop :=
  ∃ a b na nb, Mem.read m a = some na ∧ Mem.read m b = some nb ∧ a ≠ b ∧ Waiting m j a ∧ Waiting m j b ∧
    n = branchNode (na.freq + nb.freq) a b ∧
    ∀ i ni, Waiting m j i → Mem.read m i = some ni → i ≠ a →
      keyLt (na.freq, a) (ni.freq, i) = true ∧ (i ≠ b → keyLt (nb.freq, b) (ni.freq, i) = true)

/-- Which nodes wait at index j is decided by the entries below j. -/
theorem waiting_write {m : Mem Node} {next j : Nat} (v : Node) (hj : j ≤ next) (i : Nat) :
    Waiting (Mem.write m next v) j i ↔ Waiting m j i := by
  refine and_congr_right fun _ => forall₂_congr fun k hk => ?_
  rw [Mem.read_write_ne m v (by omega)]

/-- And so is which branch merges the two least of them. -/
theorem mergesTwoLeast_write {m : Mem Node} {next j : Nat} {n : Node} (v : Node) (hj : j ≤ next)
    (h : MergesTwoLeast m j n) : MergesTwoLeast (Mem.write m next v) j n := by
  have hread : ∀ {i}, Waiting m j i → Mem.read (Mem.write m next v) i = Mem.read m i := fun hw =>
    Mem.read_write_ne m v (by have := hw.1; omega)
  obtain ⟨a, b, na, nb, hna, hnb, hab, hwa, hwb, hn, hleast⟩ := h
  refine ⟨a, b, na, nb, by rw [hread hwa, hna], by rw [hread hwb, hnb], hab, (waiting_write v hj a).mpr hwa,
    (waiting_write v hj b).mpr hwb, hn, fun i ni hw hni => ?_⟩
  have hw := (waiting_write v hj i).mp hw
  exact hleast i ni hw (hread hw ▸ hni)

/-- The priority collection holds exactly the waiting nodes: those that no branch has taken as a child (R112). -/
theorem Forest.waiting_iff {xs : List Nat} {total next : Nat} {m : Mem Node} {q : List Key}
    (h : Forest xs total m q next) {i : Nat} : Waiting m next i ↔ i ∈ q.map Prod.snd := by
  have hchild : i ∈ childRefs m ↔ ∃ k n, Mem.read m k = some n ∧ (n.left = some i ∨ n.right = some i) := by
    simp [childRefs, ← Mem.mem_iff_read (Mem.sorted_of_keys_range h.keys)]
  have hlt : ∀ {k n}, Mem.read m k = some n → k < next := fun hn =>
    (Mem.read_isSome_of_keys_range h.keys _).mp (by simp [hn])
  constructor
  · rintro ⟨hi, hfree⟩
    by_contra hq
    have hcount := h.single i hi
    rw [if_neg hq] at hcount
    obtain ⟨k, n, hn, hside⟩ := hchild.mp (List.count_pos_iff.mp (by omega))
    obtain ⟨hleft, hright⟩ := hfree k (hlt hn) n hn
    exact hside.elim hleft hright
  · intro hq
    obtain ⟨k, hk, rfl⟩ := List.mem_map.mp hq
    obtain ⟨hi, -⟩ := h.roots k hk
    have hcount := h.single k.2 hi
    rw [if_pos hq, List.count_eq_zero, hchild] at hcount
    exact ⟨hi, fun j _ n hn => ⟨fun hl => hcount ⟨j, n, hn, .inl hl⟩, fun hr => hcount ⟨j, n, hn, .inr hr⟩⟩⟩

/-- A member of the priority collection carries the frequency of its NODE entry. -/
theorem Forest.key_of_root {xs : List Nat} {total next : Nat} {m : Mem Node} {q : List Key}
    (h : Forest xs total m q next) {k : Key} (hk : k ∈ q) {n : Node} (hn : Mem.read m k.2 = some n) :
    (n.freq, k.2) = k := by
  obtain ⟨-, n', hn', hfreq⟩ := h.roots k hk
  obtain rfl : n = n' := Option.some.inj (hn.symm.trans hn')
  rw [hfreq]

/-- One round of Merge takes the two least waiting nodes. -/
theorem Forest.round_mergesTwoLeast {xs : List Nat} {total next : Nat} {m : Mem Node} {q q1 q2 : List Key} {a b : Key}
    (h : Forest xs total m q next) (ha : extractMin q = some (a, q1)) (hb : extractMin q1 = some (b, q2)) :
    MergesTwoLeast m next (branchNode (a.1 + b.1) a.2 b.2) := by
  obtain ⟨haq, -, hp1, -, hleasta⟩ := extractMin_some ha
  obtain ⟨hbq1, -, -, -, hleastb⟩ := extractMin_some hb
  have hbq : b ∈ q := hp1.mem_iff.mpr (List.mem_cons_of_mem _ hbq1)
  obtain ⟨-, na, hna, hfa⟩ := h.roots a haq
  obtain ⟨-, nb, hnb, hfb⟩ := h.roots b hbq
  have hab : a.2 ≠ b.2 := by
    have hnd := (hp1.map Prod.snd).nodup_iff.mp h.roots_nodup
    exact fun hab => (List.nodup_cons.mp hnd).1 (hab ▸ List.mem_map_of_mem hbq1)
  refine ⟨a.2, b.2, na, nb, hna, hnb, hab, h.waiting_iff.mpr (List.mem_map_of_mem haq),
    h.waiting_iff.mpr (List.mem_map_of_mem hbq), by rw [hfa, hfb], fun i ni hw hni hia => ?_⟩
  obtain ⟨k, hk, rfl⟩ := List.mem_map.mp (h.waiting_iff.mp hw)
  have hka : k ≠ a := fun hka => hia (congrArg Prod.snd hka)
  have hk1 : k ∈ q1 := (List.mem_cons.mp (hp1.mem_iff.mp hk)).resolve_left hka
  rw [h.key_of_root haq hna, h.key_of_root hbq hnb, h.key_of_root hk hni]
  exact ⟨keyLt_of_not (hleasta k hk) hka.symm,
    fun hib => keyLt_of_not (hleastb k hk1) fun hbk => hib (congrArg Prod.snd hbk.symm)⟩

/-- Every branch of a built tree merges the two least waiting nodes: the branch of one round does, and later rounds write
above it. -/
theorem buildTree_mergesTwoLeast {p : Params} {freq : Mem Nat} {m : Mem Node} {r : Nat}
    (h : buildTree p freq = .ok (m, r)) :
    ∀ j n, Mem.read m j = some n → n.sym = none → MergesTwoLeast m j n := by
  refine (buildTree_induction
    (P := fun m _ _ => ∀ j n, Mem.read m j = some n → n.sym = none → MergesTwoLeast m j n)
    ?_ ?_ h).elim fun _ hmerges => hmerges
  · intro j n hn hsym
    obtain ⟨x, -, hleaf⟩ := mem_seedLeaves.mp (Mem.mem_of_read hn)
    obtain rfl : n = leafNode (readFreq freq x) x := hleaf
    cases hsym
  · intro total m q q1 q2 next a b hforest hmerges ha hb j n hn hsym
    rw [Mem.read_write] at hn
    split at hn
    · next hj =>
      obtain rfl := Option.some.inj hn
      exact mergesTwoLeast_write _ hj.le (hj ▸ hforest.round_mergesTwoLeast ha hb)
    · have hj : j < next := (Mem.read_isSome_of_keys_range hforest.keys j).mp (by simp [hn])
      exact mergesTwoLeast_write _ hj.le (hmerges j n hn hsym)

/-! ### The answer of BUILD (R118) -/

/-- The state BUILD leaves when Seed and Merge made the nodes m with the root r, and CTG the code table. -/
def State.built (s : State) (m : Mem Node) (r : Nat) (code : Mem BitPath) : State :=
  done (closeDecode { s with
    node := m, root := r, nn := 2 * (tableSymbols s.params s.freq).length - 1, code := code, tv := true, freq := [],
    ftotal := 0 })

@[simp] theorem built_node (s : State) (m : Mem Node) (r : Nat) (code : Mem BitPath) : (s.built m r code).node = m := rfl

@[simp] theorem built_root (s : State) (m : Mem Node) (r : Nat) (code : Mem BitPath) : (s.built m r code).root = r := rfl

@[simp] theorem built_nn (s : State) (m : Mem Node) (r : Nat) (code : Mem BitPath) :
    (s.built m r code).nn = 2 * (tableSymbols s.params s.freq).length - 1 := rfl

/-- With no load session and a table that is not empty, BUILD answers exactly when Seed, Merge and CTG do. -/
theorem exec_build_next_iff {s t : State} (hl : s.lst = .idle) (h0 : s.ftotal ≠ 0) :
    exec .build s = .next t ↔
      ∃ m r code, buildTree s.params s.freq = .ok (m, r) ∧ generateCodes s.params m r = .ok code ∧
        t = s.built m r code := by
  rw [exec, execBuild_next_iff]
  constructor
  · rintro (⟨hl', -⟩ | ⟨-, h0', -⟩ | ⟨-, -, u, hu, rfl⟩)
    · exact absurd hl hl'
    · exact absurd h0' h0
    · obtain ⟨m, r, code, hm, hcode, rfl⟩ := buildSteps_ok_iff.mp hu
      exact ⟨m, r, code, hm, hcode, rfl⟩
  · rintro ⟨m, r, code, hm, hcode, rfl⟩
    exact .inr (.inr ⟨hl, h0, _, buildSteps_ok_iff.mpr ⟨m, r, code, hm, hcode, rfl⟩, rfl⟩)

/-- The forest Merge comes down to has the one root r, which carries FTOTAL (R120). -/
theorem FreqInv.built_forest {s : State} (h : FreqInv s) {m : Mem Node} {r : Nat}
    (hm : buildTree s.params s.freq = .ok (m, r)) :
    Forest (tableSymbols s.params s.freq) s.ftotal m [(s.ftotal, r)] (r + 1) := by
  obtain ⟨-, -, htotal, -⟩ := h
  rw [htotal]
  exact (buildTree_ok hm).2

/-- The keys of the table are pairwise distinct symbols of the alphabet. -/
theorem tableSymbols_nodup (p : Params) (freq : Mem Nat) : (tableSymbols p freq).Nodup :=
  (tableSymbols_sorted p freq).imp Nat.ne_of_lt

/-- The built nodes hold one tree within MAX_PATH, over the keys of the table (R12, R25). -/
theorem FreqInv.built_tree {s : State} (h : FreqInv s) (hp : s.params.Ok) {m : Mem Node} {r : Nat}
    (hm : buildTree s.params s.freq = .ok (m, r)) :
    ∃ u, treeAt (s.params.maxPath + 1) m r = some u ∧
      (reach (s.params.maxPath + 1) m r).Perm (List.range (r + 1)) ∧ u.syms.Perm (tableSymbols s.params s.freq) := by
  obtain ⟨u, hu, hreach, hsyms, -⟩ :=
    (h.built_forest hm).isTree hp (tableSymbols_nodup _ _) fun x hx => (mem_tableSymbols.mp hx).1
  exact ⟨u, hu, hreach, hsyms⟩

/-- Over a consistent table that is not empty, BUILD answers (R110). -/
theorem FreqInv.exists_built {s : State} (h : FreqInv s) (hp : s.params.Ok) (h0 : s.ftotal ≠ 0) :
    ∃ m r code, buildTree s.params s.freq = .ok (m, r) ∧ generateCodes s.params m r = .ok code := by
  obtain ⟨-, -, htotal, hmax⟩ := id h
  have hkeys : tableSymbols s.params s.freq ≠ [] := by
    intro hnil
    have hsum := tableSymbols_sum s.params s.freq
    rw [hnil, ← htotal] at hsum
    exact h0 hsum.symm
  obtain ⟨m, r, hm⟩ := buildTree_total hkeys (htotal ▸ hmax)
  obtain ⟨u, hu, -, hsyms⟩ := h.built_tree hp hm
  exact ⟨m, r, _, hm, generateCodes_ok_iff.mpr
    ⟨u, hu, fun x hx => (mem_tableSymbols.mp (hsyms.mem_iff.mp hx)).1, rfl⟩⟩

/-- The new tree and its codes are valid (R24, R25, R27, R28).  Neither the old tree nor what a load session has left
bears on it, so it is the tree BUILD makes of a block emptied of both. -/
theorem FreqInv.built_valid {s : State} (h : FreqInv s) (hp : s.params.Ok) (hl : s.lst = .idle) {m : Mem Node} {r : Nat}
    {code : Mem BitPath} (hm : buildTree s.params s.freq = .ok (m, r)) (hcode : generateCodes s.params m r = .ok code) :
    NodeInv (s.built m r code) ∧ CodeInv (s.built m r code) ∧ TreeInv (s.built m r code) := by
  have hempty : Inv (closeLoad (closeDecode (clearTree s))) :=
    Treeless.inv ⟨rfl, rfl, rfl, rfl, rfl, rfl, rfl, rfl, rfl, rfl⟩ hp h
  have hnew := buildSteps_newTree hempty rfl (buildSteps_ok_iff.mpr ⟨m, r, code, hm, hcode, rfl⟩)
  obtain ⟨⟨-, htree⟩, hcodes⟩ := hnew.tree hp
  exact ⟨hnew.nodes, hcodes, hl, htree⟩

end Sys2Proof.Machine
end

section
/-!
PROOFS. The statements of 41_tree_builder.md but the optimality of R117: BUILD's answer and its two refusals (R118, R119),
the layout of NODE (R111, R113), the nodes each branch merges (R112, R114, R115), the frequencies (R120), the one-symbol
table (R116), determinism (R122), and DROP (R121).
-/

namespace Sys2Proof.Machine

/-! ### BUILD answers (R118, R119) -/

/-- Settles O15: Seed, Merge and CTG all answer over a consistent table that is not empty, and what they leave is a valid
tree with its codes. -/
theorem buildMakesATreeAndConsumesTheTable : Obligations.BuildMakesATreeAndConsumesTheTable := by
  unfold Obligations.BuildMakesATreeAndConsumesTheTable
  intro s hp hf hl h0
  obtain ⟨m, r, code, hm, hcode⟩ := hf.exists_built hp h0
  obtain ⟨hnode, hcodes, htree⟩ := hf.built_valid hp hl hm hcode
  exact ⟨s.built m r code, (exec_build_next_iff hl h0).mpr ⟨m, r, code, hm, hcode, rfl⟩, hnode, hcodes, htree,
    readFreq_nil, rfl⟩

/-- Settles O18: the load session is asked for first, the table second. -/
theorem buildRefusesLoadSessionThenEmptyTable : Obligations.BuildRefusesLoadSessionThenEmptyTable := by
  unfold Obligations.BuildRefusesLoadSessionThenEmptyTable
  exact fun s => ⟨fun hl => execBuild_next_iff.mpr (.inl ⟨hl, rfl⟩),
    fun hl h0 => execBuild_next_iff.mpr (.inr (.inl ⟨hl, h0, rfl⟩))⟩

/-! ### What stands in NODE (R111 to R115, R120) -/

/-- Settles O16: the seeded leaves stand in front of NODE, behind them branches only, and the forest's branches stand
above their children. -/
theorem buildAllocatesLeavesThenBranches : Obligations.BuildAllocatesLeavesThenBranches := by
  unfold Obligations.BuildAllocatesLeavesThenBranches
  intro s t _ hf hl h0 ht
  obtain ⟨m, r, code, hm, -, rfl⟩ := (exec_build_next_iff hl h0).mp ht
  obtain ⟨hr, -⟩ := buildTree_ok hm
  have hforest := hf.built_forest hm
  refine ⟨tableSymbols s.params s.freq, tableSymbols_sorted _ _, fun x => mem_tableSymbols, rfl, ?_, ?_, ?_⟩
  · rw [built_root]
    omega
  · intro k x hx
    obtain ⟨bs, hbs, -⟩ := buildTree_leaves_first hm
    have hleaf : (k, leafNode (readFreq s.freq x) x) ∈ m :=
      hbs ▸ List.mem_append_left _ (mem_seedLeaves.mpr ⟨x, hx, rfl⟩)
    exact Mem.read_of_mem (Mem.sorted_of_keys_range hforest.keys) hleaf
  · intro j hj hjnn
    rw [built_nn] at hjnn
    obtain ⟨n, hn⟩ := Option.isSome_iff_exists.mp ((Mem.read_isSome_of_keys_range hforest.keys j).mpr (by omega))
    rcases hforest.shapes _ (Mem.mem_of_read hn) with ⟨hsym, -⟩ | ⟨hsym, l, r, a, b, hleft, hright, hlj, hrj, -⟩
    · obtain ⟨x, hx⟩ := Option.isSome_iff_exists.mp hsym
      obtain ⟨hjx, -⟩ := buildTree_leaf hm (Mem.mem_of_read hn) hx
      exact absurd (List.getElem?_eq_some_iff.mp hjx).1 (Nat.not_lt.mpr hj)
    · exact ⟨n, l, r, hn, hsym, hleft, hright, hlj, hrj⟩

/-- Settles O17: the priority collection of each round holds exactly the nodes waiting at the index of its branch. -/
theorem buildMergesTheTwoLeastWaitingNodes : Obligations.BuildMergesTheTwoLeastWaitingNodes := by
  unfold Obligations.BuildMergesTheTwoLeastWaitingNodes
  intro s t _ _ hl h0 ht j n hn hsym
  obtain ⟨m, r, code, hm, -, rfl⟩ := (exec_build_next_iff hl h0).mp ht
  have hmerges := buildTree_mergesTwoLeast hm j n hn hsym
  simp only [MergesTwoLeast, keyLt_iff] at hmerges
  exact hmerges

/-- Settles O19: the root of the forest carries the sum of the counts, which bounds every frequency. -/
theorem builtRootFrequencyIsTheTotal : Obligations.BuiltRootFrequencyIsTheTotal := by
  unfold Obligations.BuiltRootFrequencyIsTheTotal
  intro s t _ hf hl h0 ht
  obtain ⟨m, r, code, hm, -, rfl⟩ := (exec_build_next_iff hl h0).mp ht
  have hforest := hf.built_forest hm
  exact ⟨(hforest.roots _ (List.mem_singleton_self _)).2, hforest.bounded⟩

/-! ### One distinct symbol (R116) -/

/-- With one key the seeded leaf is the root, and Merge has nothing to merge. -/
theorem buildTree_of_single_key {p : Params} {freq : Mem Nat} {x : Nat} (h : tableSymbols p freq = [x]) :
    buildTree p freq = .ok ([(0, leafNode (readFreq freq x) x)], 0) := by
  rw [buildTree_eq_merge, h]
  exact merge_last (readFreq freq x, 0)

theorem tableSymbols_eq_singleton {p : Params} {freq : Mem Nat} {x : Nat} (hx : x < p.nsym) (hpos : 0 < readFreq freq x)
    (hothers : ∀ y, y ≠ x → readFreq freq y = 0) : tableSymbols p freq = [x] := by
  refine List.perm_singleton.mp ((List.perm_ext_iff_of_nodup (tableSymbols_nodup _ _) (List.nodup_singleton x)).mpr
    fun y => ?_)
  rw [mem_tableSymbols, List.mem_singleton]
  constructor
  · rintro ⟨-, hy⟩
    by_contra hne
    rw [hothers y hne] at hy
    exact absurd hy (Nat.lt_irrefl 0)
  · rintro rfl
    exact ⟨hx, hpos⟩

/-- Settles O20: the one leaf at index 0 is the tree, and CTG gives it the code [0]. -/
theorem oneDistinctSymbolGivesOneLeaf : Obligations.OneDistinctSymbolGivesOneLeaf := by
  unfold Obligations.OneDistinctSymbolGivesOneLeaf
  intro s x _ hf hl hx hpos hothers
  have hkeys := tableSymbols_eq_singleton hx hpos hothers
  have h0 : s.ftotal ≠ 0 := (hpos.trans_le (hf.readFreq_le_ftotal hx)).ne'
  have hcode : generateCodes s.params [(0, leafNode (readFreq s.freq x) x)] 0 = .ok [(x, [false])] :=
    generateCodes_ok_iff.mpr ⟨.leaf (readFreq s.freq x) x, rfl, by simpa [SymTree.syms] using hx, rfl⟩
  refine ⟨_, (exec_build_next_iff hl h0).mpr ⟨_, _, _, buildTree_of_single_key hkeys, hcode, rfl⟩, rfl, rfl, ?_, rfl,
    rfl⟩
  rw [built_nn, hkeys]
  rfl

/-! ### Determinism (R122) -/

/-- Seed and Merge read nothing of the table but the counts of the symbols of the alphabet. -/
theorem buildTree_congr {p : Params} {f g : Mem Nat} (h : ∀ x < p.nsym, readFreq f x = readFreq g x) :
    tableSymbols p f = tableSymbols p g ∧ buildTree p f = buildTree p g := by
  have hkeys : tableSymbols p f = tableSymbols p g :=
    List.filter_congr fun x hx => by rw [h x (List.mem_range.mp hx)]
  have hcounts : ∀ e ∈ (tableSymbols p g).zipIdx, readFreq f e.1 = readFreq g e.1 := fun e he =>
    h e.1 (mem_tableSymbols.mp (List.fst_mem_of_mem_zipIdx he)).1
  have hleaves : seedLeaves f 0 (tableSymbols p g) = seedLeaves g 0 (tableSymbols p g) :=
    List.map_congr_left fun e he => by rw [hcounts e he]
  have hq : seedKeys f 0 (tableSymbols p g) = seedKeys g 0 (tableSymbols p g) :=
    List.map_congr_left fun e he => by rw [hcounts e he]
  exact ⟨hkeys, by rw [buildTree_eq_merge, buildTree_eq_merge, hkeys, hleaves, hq]⟩

/-- Settles O21: the two runs of Seed and Merge are the same, and CTG reads only what they leave. -/
theorem buildDependsOnTheTableOnly : Obligations.BuildDependsOnTheTableOnly := by
  unfold Obligations.BuildDependsOnTheTableOnly
  intro s₁ s₂ t₁ t₂ hp hl₁ hl₂ h₁ h₂ hcounts ht₁ ht₂
  obtain ⟨m₁, r₁, code₁, hm₁, hcode₁, rfl⟩ := (exec_build_next_iff hl₁ h₁).mp ht₁
  obtain ⟨m₂, r₂, code₂, hm₂, hcode₂, rfl⟩ := (exec_build_next_iff hl₂ h₂).mp ht₂
  obtain ⟨hkeys, hbuild⟩ := buildTree_congr hcounts
  rw [← hp] at hm₂ hcode₂
  obtain ⟨rfl, rfl⟩ : m₁ = m₂ ∧ r₁ = r₂ := by simpa [hm₁, hm₂] using hbuild
  obtain rfl : code₁ = code₂ := by simpa [hcode₁] using hcode₂
  exact ⟨rfl, rfl, by rw [built_nn, built_nn, ← hp, hkeys], rfl⟩

/-! ### DROP (R121) -/

/-- Settles O23: the memories of the tree and of the load session become the memories that list nothing. -/
theorem dropEndsTreeAndSessions : Obligations.DropEndsTreeAndSessions := by
  unfold Obligations.DropEndsTreeAndSessions
  exact ⟨rfl, fun s => ⟨_, execDrop_next_iff.mpr rfl, Mem.read_nil, Mem.read_nil, Mem.read_nil, rfl⟩⟩

end Sys2Proof.Machine
end

section
/-!
PROOFS. The optimality of BUILD's tree (41_tree_builder.md R117).  The cost of a tree depends on its leaves' depths only,
so a competitor is a plan: a depth for each weight, with the Kraft sum of a full binary tree.  A round of Merge turns any
plan for the frequencies in the priority collection into one for the collection after the round, and what the plan loses is
at least the frequency of the branch the round makes.  So the frequencies of BUILD's branches, which add up to the cost of
its tree, are no more than the cost of the plan of any other tree.
-/

namespace Sys2Proof.Machine

/-! ### Plans: a depth for each weight -/

/-- The sum of weight times depth over a plan's (weight, depth) pairs. -/
def planCost (P : List (Nat × Nat)) : Nat := (P.map fun e => e.1 * e.2).sum

/-- The Kraft sum of a list of depths of at most N, scaled by 2 ^ N. -/
def kraft (N : Nat) (ds : List Nat) : Nat := (ds.map fun d => 2 ^ (N - d)).sum

@[simp] theorem planCost_cons (e : Nat × Nat) (P : List (Nat × Nat)) : planCost (e :: P) = e.1 * e.2 + planCost P := rfl

theorem planCost_perm {P Q : List (Nat × Nat)} (h : P.Perm Q) : planCost P = planCost Q :=
  (h.map _).sum_eq

@[simp] theorem kraft_cons (N d : Nat) (ds : List Nat) : kraft N (d :: ds) = 2 ^ (N - d) + kraft N ds := rfl

theorem kraft_perm {N : Nat} {ds es : List Nat} (h : ds.Perm es) : kraft N ds = kraft N es :=
  (h.map _).sum_eq

/-- A plan for the weights ws: each weight has a depth of at most N, and the depths are those of the leaves of a full
binary tree, as far as their Kraft sum tells. -/
structure DepthPlan (ws : List Nat) (N : Nat) (P : List (Nat × Nat)) : Prop where
  weights : (P.map Prod.fst).Perm ws
  depths_le : ∀ d ∈ P.map Prod.snd, d ≤ N
  kraft_eq : kraft N (P.map Prod.snd) = 2 ^ N

/-- The deepest level of a full binary tree of more than one leaf is not the root's, and has a second leaf: the Kraft sum
is divisible by more than the one term 2 ^ (N - M). -/
theorem mem_of_kraft_deepest {N M : Nat} {ds : List Nat} (hk : kraft N (M :: ds) = 2 ^ N) (hM : M ≤ N)
    (hmax : ∀ d ∈ ds, d ≤ M) (hne : ds ≠ []) : 1 ≤ M ∧ M ∈ ds := by
  rw [kraft_cons] at hk
  have hpos : 0 < kraft N ds := by
    obtain ⟨d, es, rfl⟩ := List.exists_cons_of_ne_nil hne
    exact Nat.add_pos_left (Nat.two_pow_pos _) _
  have hM1 : 1 ≤ M := by
    by_contra h0
    obtain rfl : M = 0 := by omega
    rw [Nat.sub_zero] at hk
    omega
  refine ⟨hM1, ?_⟩
  by_contra honce
  have hrest : 2 ^ (N - M + 1) ∣ kraft N ds := by
    refine List.dvd_sum fun y hy => ?_
    obtain ⟨d, hd, rfl⟩ := List.mem_map.mp hy
    have hdM : d < M := lt_of_le_of_ne (hmax d hd) fun he => honce (he ▸ hd)
    exact pow_dvd_pow 2 (by omega)
  have hall : 2 ^ (N - M + 1) ∣ 2 ^ (N - M) + kraft N ds := hk ▸ pow_dvd_pow 2 (by omega)
  have hterm : 2 ^ (N - M + 1) ∣ 2 ^ (N - M) := (Nat.dvd_add_left hrest).mp hall
  have := (Nat.pow_dvd_pow_iff_le_right (by omega)).mp hterm
  omega

/-- The exchange: giving the least weight the greatest depth, and the weight that had it the depth left over, costs no
more. -/
theorem exists_least_deepest {P : List (Nat × Nat)} {a M : Nat} (ha : a ∈ P.map Prod.fst) (hM : M ∈ P.map Prod.snd)
    (hleast : ∀ w ∈ P.map Prod.fst, a ≤ w) (hmax : ∀ d ∈ P.map Prod.snd, d ≤ M) :
    ∃ Q : List (Nat × Nat), (a :: Q.map Prod.fst).Perm (P.map Prod.fst) ∧ (M :: Q.map Prod.snd).Perm (P.map Prod.snd) ∧
      a * M + planCost Q ≤ planCost P := by
  obtain ⟨⟨a, d⟩, had, rfl⟩ := List.mem_map.mp ha
  obtain ⟨⟨x, M⟩, hxM, rfl⟩ := List.mem_map.mp hM
  have hd : d ≤ M := hmax d (List.mem_map_of_mem had)
  have hx : a ≤ x := hleast x (List.mem_map_of_mem hxM)
  have hP := List.perm_cons_erase had
  by_cases heq : (x, M) = (a, d)
  · cases heq
    exact ⟨_, (hP.map Prod.fst).symm, (hP.map Prod.snd).symm, (planCost_perm hP).ge⟩
  · have hP := hP.trans ((List.perm_cons_erase ((List.mem_erase_of_ne heq).mpr hxM)).cons _)
    generalize (P.erase (a, d)).erase (x, M) = R at hP
    refine ⟨(x, d) :: R, (hP.map Prod.fst).symm, (List.Perm.swap d M _).trans (hP.map Prod.snd).symm, ?_⟩
    rw [planCost_perm hP]
    simp only [planCost_cons]
    obtain ⟨i, rfl⟩ := Nat.exists_eq_add_of_le hx
    obtain ⟨j, rfl⟩ := Nat.exists_eq_add_of_le hd
    linarith [Nat.zero_le (i * j)]

/-- The greedy choice: in any plan the two least weights can be put on one deepest pair of siblings, at no more cost. -/
theorem DepthPlan.exists_least_siblings {ws rest : List Nat} {N a b : Nat} {P : List (Nat × Nat)}
    (h : DepthPlan ws N P) (hws : ws.Perm (a :: b :: rest)) (ha : ∀ w ∈ ws, a ≤ w) (hb : ∀ w ∈ b :: rest, b ≤ w) :
    ∃ M Q, 1 ≤ M ∧ (Q.map Prod.fst).Perm rest ∧ (M :: M :: Q.map Prod.snd).Perm (P.map Prod.snd) ∧
      a * M + (b * M + planCost Q) ≤ planCost P := by
  have hfst := h.weights.trans hws
  obtain ⟨e, he, -⟩ := List.mem_map.mp (hfst.mem_iff.mpr List.mem_cons_self)
  obtain ⟨M, hM, hmax⟩ := (P.map Prod.snd).toFinset.exists_max_image id
    ⟨e.2, List.mem_toFinset.mpr (List.mem_map_of_mem he)⟩
  simp only [List.mem_toFinset, id] at hM hmax
  obtain ⟨Q₁, hfst₁, hsnd₁, hcost₁⟩ := exists_least_deepest (hfst.mem_iff.mpr List.mem_cons_self) hM
    (fun w hw => ha w (h.weights.mem_iff.mp hw)) hmax
  have hfst₁ : (Q₁.map Prod.fst).Perm (b :: rest) := (hfst₁.trans hfst).cons_inv
  have hmax₁ : ∀ d ∈ Q₁.map Prod.snd, d ≤ M := fun d hd => hmax d (hsnd₁.mem_iff.mp (List.mem_cons_of_mem _ hd))
  have hb₁ : b ∈ Q₁.map Prod.fst := hfst₁.mem_iff.mpr List.mem_cons_self
  have hne₁ : Q₁.map Prod.snd ≠ [] := fun hnil => by
    rw [List.map_eq_nil_iff.mp hnil] at hb₁
    cases hb₁
  obtain ⟨hM1, hM₁⟩ :=
    mem_of_kraft_deepest ((kraft_perm hsnd₁).trans h.kraft_eq) (h.depths_le M hM) hmax₁ hne₁
  obtain ⟨Q₂, hfst₂, hsnd₂, hcost₂⟩ :=
    exists_least_deepest hb₁ hM₁ (fun w hw => hb w (hfst₁.mem_iff.mp hw)) hmax₁
  exact ⟨M, Q₂, hM1, (hfst₂.trans hfst₁).cons_inv, (hsnd₂.cons M).trans hsnd₁, by omega⟩

/-- Merging the two least weights: their parent takes the place of the pair, one level up and without the cost a + b of
that level. -/
theorem DepthPlan.merge_least {ws rest : List Nat} {N a b : Nat} {P : List (Nat × Nat)} (h : DepthPlan ws N P)
    (hws : ws.Perm (a :: b :: rest)) (ha : ∀ w ∈ ws, a ≤ w) (hb : ∀ w ∈ b :: rest, b ≤ w) :
    ∃ Q, DepthPlan (rest ++ [a + b]) N Q ∧ planCost Q + (a + b) ≤ planCost P := by
  obtain ⟨M, Q, hM1, hfst, hsnd, hcost⟩ := h.exists_least_siblings hws ha hb
  have hdepths : ∀ d ∈ M :: M :: Q.map Prod.snd, d ≤ N := fun d hd => h.depths_le d (hsnd.mem_iff.mp hd)
  have hMN : M ≤ N := hdepths M List.mem_cons_self
  refine ⟨(a + b, M - 1) :: Q, ⟨?_, ?_, ?_⟩, ?_⟩
  · exact (hfst.cons (a + b)).trans (List.perm_append_singleton (a + b) rest).symm
  · exact List.forall_mem_cons.mpr ⟨(Nat.sub_le M 1).trans hMN, fun d hd => hdepths d (by simp [hd])⟩
  · rw [← h.kraft_eq, ← kraft_perm hsnd]
    simp only [List.map_cons, kraft_cons, show N - (M - 1) = N - M + 1 by omega, pow_succ]
    omega
  · obtain ⟨k, rfl⟩ := Nat.exists_eq_add_of_le' hM1
    simp only [planCost_cons, Nat.add_sub_cancel]
    linarith

/-! ### The plan of a tree -/

/-- The leaves of a tree as a plan: each leaf's weight and depth. -/
def SymTree.plan (weight : Nat → Nat) (t : SymTree) : List (Nat × Nat) := t.paths.map fun e => (weight e.1, e.2.length)

/-- A sum over the leaves of a branch, by their paths. -/
theorem sum_paths_branch (g : Nat → Nat → Nat) (f : Nat) (l r : SymTree) :
    ((SymTree.branch f l r).paths.map fun e => g e.1 e.2.length).sum =
      (l.paths.map fun e => g e.1 (e.2.length + 1)).sum + (r.paths.map fun e => g e.1 (e.2.length + 1)).sum := by
  simp [SymTree.paths, Function.comp_def]

/-- The cost of a tree is that of its plan (R117). -/
theorem SymTree.cost_eq_sum (weight : Nat → Nat) (t : SymTree) (d : Nat) :
    t.cost weight d = (t.paths.map fun e => weight e.1 * (d + e.2.length)).sum := by
  induction t generalizing d with
  | leaf f x => simp [cost, paths]
  | branch f l r ihl ihr =>
    rw [cost, ihl, ihr, sum_paths_branch fun x k => weight x * (d + k)]
    simp only [Nat.add_assoc, Nat.add_comm 1]

theorem SymTree.planCost_plan (weight : Nat → Nat) (t : SymTree) : planCost (t.plan weight) = t.cost weight 0 := by
  simp [planCost, plan, cost_eq_sum, Function.comp_def]

theorem SymTree.height_pos (t : SymTree) : 1 ≤ t.height := by
  cases t <;> simp [height]

/-- The leaves of a tree meet Kraft's equality. -/
theorem SymTree.kraft_paths (t : SymTree) {N : Nat} (h : t.height ≤ N + 1) :
    (t.paths.map fun e => 2 ^ (N - e.2.length)).sum = 2 ^ N := by
  induction t generalizing N with
  | leaf f x => simp [paths]
  | branch f l r ihl ihr =>
    simp only [height] at h
    have := l.height_pos
    obtain ⟨k, rfl⟩ : ∃ k, N = k + 1 := ⟨N - 1, by omega⟩
    rw [sum_paths_branch fun _ len => 2 ^ (k + 1 - len)]
    simp only [Nat.add_sub_add_right]
    rw [ihl (by omega), ihr (by omega), pow_succ]
    omega

/-- Every tree is a plan for the weights of its symbols. -/
theorem SymTree.depthPlan (weight : Nat → Nat) (t : SymTree) :
    DepthPlan (t.syms.map weight) t.height (t.plan weight) := by
  refine ⟨?_, fun d hd => ?_, ?_⟩
  · simp [plan, ← t.paths_syms, Function.comp_def]
  · obtain ⟨p, hp, rfl⟩ := List.mem_map.mp hd
    obtain ⟨e, he, rfl⟩ := List.mem_map.mp hp
    exact (t.paths_length_lt e he).le
  · simpa [plan, kraft, Function.comp_def] using t.kraft_paths (Nat.le_succ _)

/-! ### The frequencies of the branches -/

/-- What an entry adds to the sum of the branch frequencies. -/
def branchFreq (n : Node) : Nat :=
  match n.sym with
  | some _ => 0
  | none => n.freq

/-- The sum of the frequencies of the branches in NODE. -/
def branchTotal (m : Mem Node) : Nat := (m.map fun e => branchFreq e.2).sum

@[simp] theorem branchFreq_leafNode (c x : Nat) : branchFreq (leafNode c x) = 0 := rfl

@[simp] theorem branchFreq_branchNode (c a b : Nat) : branchFreq (branchNode c a b) = c := rfl

theorem branchTotal_seedLeaves (freq : Mem Nat) (xs : List Nat) : branchTotal (seedLeaves freq 0 xs) = 0 := by
  simp [branchTotal, seedLeaves, Function.comp_def]

/-- Each round of Merge adds the frequency of its branch. -/
theorem Forest.branchTotal_round {xs : List Nat} {total next : Nat} {m : Mem Node} {q : List Key}
    (h : Forest xs total m q next) (n : Node) : branchTotal (Mem.write m next n) = branchTotal m + branchFreq n := by
  rw [Mem.write_above fun k hk => List.mem_range.mp (h.keys ▸ hk)]
  simp [branchTotal]

/-- The sum of the frequencies of the branches of a tree. -/
def SymTree.branchTotal : SymTree → Nat
  | leaf _ _ => 0
  | branch f l r => f + l.branchTotal + r.branchTotal

/-- Every leaf carries its symbol's weight, and every branch the sum of its children's frequencies (R24, R120). -/
def SymTree.Weighed (weight : Nat → Nat) : SymTree → Prop
  | leaf f x => f = weight x
  | branch f l r => f = l.freq + r.freq ∧ l.Weighed weight ∧ r.Weighed weight

/-- The cost of a weighed tree is what its branches carry: every leaf counts once in each branch above it. -/
theorem SymTree.Weighed.cost_eq {weight : Nat → Nat} {t : SymTree} (h : t.Weighed weight) (d : Nat) :
    t.cost weight d = t.freq * d + t.branchTotal := by
  induction t generalizing d with
  | leaf f x =>
    obtain rfl : f = weight x := h
    rfl
  | branch f l r ihl ihr =>
    obtain ⟨hf, hl, hr⟩ := h
    rw [cost, ihl hl, ihr hr]
    simp only [freq, branchTotal, hf]
    ring

/-- The root of the tree at an index carries the frequency of the entry. -/
theorem freq_of_treeAt {m : Mem Node} {d i : Nat} {t : SymTree} (h : treeAt d m i = some t) {n : Node}
    (hn : Mem.read m i = some n) : t.freq = n.freq := by
  cases d with
  | zero => cases h
  | succ d =>
    rcases treeAt_succ_some.mp h with ⟨n', x, hn', -, rfl⟩ | ⟨n', l, r, a, b, hn', -, -, -, -, -, rfl⟩
    all_goals
      obtain rfl : n = n' := Option.some.inj (hn.symm.trans hn')
      rfl

/-- A tree in a forest whose leaf entries carry their symbols' weights is weighed. -/
theorem Forest.weighed {weight : Nat → Nat} {xs : List Nat} {total next : Nat} {m : Mem Node} {q : List Key}
    (h : Forest xs total m q next) (hleaf : ∀ i n x, Mem.read m i = some n → n.sym = some x → n.freq = weight x)
    {d i : Nat} {t : SymTree} (ht : treeAt d m i = some t) : t.Weighed weight := by
  induction d generalizing i t with
  | zero => cases ht
  | succ d ih =>
    rcases treeAt_succ_some.mp ht with ⟨n, x, hn, hx, rfl⟩ | ⟨n, l, r, u, v, hn, hx, hl, hr, hu, hv, rfl⟩
    · exact hleaf i n x hn hx
    · refine ⟨?_, ih hu, ih hv⟩
      rcases h.shapes _ (Mem.mem_of_read hn) with ⟨hsym, -⟩ | ⟨-, l', r', a, b, hl', hr', -, -, ha, hb, hfreq⟩
      · exact absurd (hx ▸ hsym) nofun
      · obtain rfl : l = l' := Option.some.inj (hl.symm.trans hl')
        obtain rfl : r = r' := Option.some.inj (hr.symm.trans hr')
        rw [freq_of_treeAt hu ha, freq_of_treeAt hv hb]
        exact hfreq

/-- The branches of a tree are the branch entries reached from its root. -/
theorem branchTotal_of_treeAt {m : Mem Node} (hc : ChildlessLeaves m) {d i : Nat} {t : SymTree}
    (h : treeAt d m i = some t) :
    t.branchTotal = ((reach d m i).map fun j => (Mem.read m j).elim 0 branchFreq).sum := by
  induction d generalizing i t with
  | zero => cases h
  | succ d ih =>
    rcases treeAt_succ_some.mp h with ⟨n, x, hn, hx, rfl⟩ | ⟨n, l, r, u, v, hn, hx, hl, hr, hu, hv, rfl⟩
    · obtain ⟨hl, hr⟩ := hc i n x hn hx
      simp [reach, hn, hl, hr, branchFreq, hx, SymTree.branchTotal]
    · simp [reach, hn, hl, hr, branchFreq, hx, SymTree.branchTotal, ih hu, ih hv, Nat.add_assoc]

/-- The branch frequencies of a memory, by index. -/
theorem branchTotal_eq {m : Mem Node} (hs : Mem.Sorted m) :
    branchTotal m = ((m.map Prod.fst).map fun j => (Mem.read m j).elim 0 branchFreq).sum := by
  rw [List.map_map, branchTotal]
  congr 1
  refine List.map_congr_left fun e he => ?_
  simp [Mem.read_of_mem hs (show (e.1, e.2) ∈ m from he)]

/-- The cost of a built tree is the sum of the frequencies of the branches in NODE. -/
theorem FreqInv.cost_built_tree {s : State} (h : FreqInv s) (hp : s.params.Ok) {m : Mem Node} {r : Nat} {u : SymTree}
    (hm : buildTree s.params s.freq = .ok (m, r)) (hu : treeAt (s.params.maxPath + 1) m r = some u) :
    u.cost (readFreq s.freq) 0 = branchTotal m := by
  have hforest := h.built_forest hm
  have hleaf : ∀ i n x, Mem.read m i = some n → n.sym = some x → n.freq = readFreq s.freq x := fun i n x hn hx => by
    obtain ⟨-, hn⟩ := buildTree_leaf hm (Mem.mem_of_read hn) hx
    exact congrArg Node.freq hn
  obtain ⟨u', hu', hreach, -⟩ := h.built_tree hp hm
  rw [(hforest.weighed hleaf hu).cost_eq, branchTotal_of_treeAt hforest.ranked.childlessLeaves hu,
    branchTotal_eq (Mem.sorted_of_keys_range hforest.keys), hforest.keys, (hreach.map _).sum_eq]
  simp

/-! ### Every competitor costs as much (R117) -/

/-- The branches made so far, with some plan for the frequencies still in the priority collection, cost no more than c. -/
def WithinCost (N c : Nat) (m : Mem Node) (q : List Key) : Prop :=
  ∃ P, DepthPlan (q.map Prod.fst) N P ∧ branchTotal m + planCost P ≤ c

/-- A round of Merge stays within the cost: it merges the two least frequencies. -/
theorem WithinCost.round {N c total next : Nat} {xs : List Nat} {m : Mem Node} {q q1 q2 : List Key} {a b : Key}
    (h : WithinCost N c m q) (hforest : Forest xs total m q next) (ha : extractMin q = some (a, q1))
    (hb : extractMin q1 = some (b, q2)) :
    WithinCost N c (Mem.write m next (branchNode (a.1 + b.1) a.2 b.2)) (q2 ++ [(a.1 + b.1, next)]) := by
  have hfreq_le : ∀ {k l : Key}, keyLt l k = false → k.1 ≤ l.1 := fun hlt => by
    rw [← Bool.not_eq_true, keyLt_iff] at hlt
    omega
  obtain ⟨P, hplan, hcost⟩ := h
  obtain ⟨-, -, hp1, -, hleasta⟩ := extractMin_some ha
  obtain ⟨-, -, hp2, -, hleastb⟩ := extractMin_some hb
  obtain ⟨Q, hQ, hcostQ⟩ := hplan.merge_least ((hp1.trans (hp2.cons a)).map Prod.fst)
    (fun w hw => by
      obtain ⟨k, hk, rfl⟩ := List.mem_map.mp hw
      exact hfreq_le (hleasta k hk))
    (fun w hw => by
      obtain ⟨k, hk, rfl⟩ := List.mem_map.mp (show w ∈ (b :: q2).map Prod.fst from hw)
      exact hfreq_le (hleastb k (hp2.mem_iff.mpr hk)))
  refine ⟨Q, by simpa using hQ, ?_⟩
  rw [hforest.branchTotal_round, branchFreq_branchNode]
  omega

/-- The branches of a built tree cost no more than any tree over the keys of the table. -/
theorem branchTotal_buildTree_le {p : Params} {freq : Mem Nat} {m : Mem Node} {r : Nat}
    (h : buildTree p freq = .ok (m, r)) {v : SymTree} (hv : v.syms.Perm (tableSymbols p freq)) :
    branchTotal m ≤ v.cost (readFreq freq) 0 := by
  obtain ⟨f, P, -, hcost⟩ := buildTree_induction
    (P := fun m q _ => WithinCost v.height (v.cost (readFreq freq) 0) m q)
    ⟨v.plan (readFreq freq), by
      obtain ⟨hweights, hdepths, hkraft⟩ := v.depthPlan (readFreq freq)
      exact ⟨by rw [seedKeys_freqs]; exact hweights.trans (hv.map _), hdepths, hkraft⟩,
      by rw [branchTotal_seedLeaves, Nat.zero_add, v.planCost_plan]⟩
    (fun hforest hwithin ha hb => hwithin.round hforest ha hb) h
  exact (Nat.le_add_right _ _).trans hcost

/-- Settles O22: the leaves of the tree are the seeded ones, and its cost is what its branches carry, which is within the
cost of every other tree. -/
theorem builtTreeHasLeastCost : Obligations.BuiltTreeHasLeastCost := by
  unfold Obligations.BuiltTreeHasLeastCost
  intro s t u hp hf hl h0 ht hu
  obtain ⟨m, r, code, hm, -, rfl⟩ := (exec_build_next_iff hl h0).mp ht
  obtain ⟨u', hu', -, hsyms⟩ := hf.built_tree hp hm
  obtain rfl : u = u' := Option.some.inj (hu.symm.trans hu')
  refine ⟨fun x => hsyms.mem_iff.trans mem_tableSymbols, fun v hv => ?_⟩
  rw [hf.cost_built_tree hp hm hu']
  exact branchTotal_buildTree_le hm (hv.trans hsyms)

end Sys2Proof.Machine
end

section
/-!
PROOFS. The statements of 42_code_table.md.  CODE lists the entries of the tree's code table, one for each leaf (R130, R131);
so no code goes on from another (R132), they cover exactly the counted or loaded symbols (R133), and they change with the tree
only (R134).
-/

namespace Sys2Proof.Machine

/-! ### A code goes on from no other code (R132) -/

/-- Nothing is decoded beyond a path that decodes to a symbol, in a one-leaf tree too (44_decoder.md R151). -/
theorem SymTree.decode_append {t : SymTree} {x : Nat} {q : BitPath} (h : t.decode q = .symbol x) (b : Bool)
    (r : BitPath) : t.decode (q ++ b :: r) = .deadEnd := by
  cases t with
  | leaf f y =>
    match q with
    | [] | true :: _ | false :: _ :: _ => simp [decode] at h
    | [false] => rfl
  | branch f l r => exact walkPath_append _ h b _

/-- Settles O24: each code decodes to its own symbol (R156), so a code that goes on from another would decode to nothing,
and two equal codes to one symbol. -/
theorem codesArePrefixFree : Obligations.CodesArePrefixFree := by
  unfold Obligations.CodesArePrefixFree
  rintro s h htv x y q _ hq hr hxy ⟨rest, rfl⟩
  obtain ⟨u, hu, -⟩ := h.exists_tree htv
  have hx := h.decode_of_code htv hu hq
  have hy := h.decode_of_code htv hu hr
  cases rest with
  | nil =>
    rw [List.append_nil, hx] at hy
    exact hxy (DecodeResult.symbol.inj hy)
  | cons b rest =>
    rw [SymTree.decode_append hx] at hy
    cases hy

/-! ### The symbols that have a code (R133) -/

theorem mem_keys_recordAll {code : Mem BitPath} {es : List (Nat × BitPath)} {x : Nat} :
    x ∈ (recordAll code es).map Prod.fst ↔ x ∈ es.map Prod.fst ∨ x ∈ code.map Prod.fst := by
  induction es generalizing code with
  | nil => simp [recordAll]
  | cons e es ih =>
    show x ∈ (recordAll (Mem.write code e.1 e.2) es).map Prod.fst ↔ _
    rw [ih, Mem.mem_keys_write, List.map_cons, List.mem_cons, or_left_comm, or_assoc]

/-- CTG gives a code to the leaves' symbols and to no other (R130). -/
theorem read_code_isSome_iff {p : Params} {m : Mem Node} {root : Nat} {code : Mem BitPath} {u : SymTree}
    (hcode : generateCodes p m root = .ok code) (hu : treeAt (p.maxPath + 1) m root = some u) (x : Nat) :
    (Mem.read code x).isSome = true ↔ x ∈ u.syms := by
  obtain ⟨u', hu', -, rfl⟩ := generateCodes_ok_iff.mp hcode
  obtain rfl : u = u' := Option.some.inj (hu.symm.trans hu')
  rw [Mem.read_isSome_iff, mem_keys_recordAll, SymTree.codeTable_syms]
  simp

/-- The leaves of the block's tree are the leaf entries of NODE (10_state.md R25). -/
theorem Inv.tree_syms_perm {s : State} (h : Inv s) (htv : s.tv = true) {u : SymTree} (hu : s.tree? = some u) :
    u.syms.Perm (leafSyms s.node) := by
  obtain ⟨-, -, ⟨hkeys, -⟩, -⟩ := id h
  obtain ⟨-, -, hleaves, -⟩ := h.exists_tree htv
  obtain ⟨-, -, -, -, ⟨-, -, hreach⟩, -⟩ := h.treeInv htv
  rw [tree_syms_eq hleaves hu, leafSyms_eq (Mem.sorted_of_keys_range hkeys), hkeys]
  exact hreach.filterMap _

/-- With a complete record LEND answers exactly when CTG does (45_persistence.md R176). -/
theorem exec_lend_next_iff {s t : State} (hl : s.lst = .active) (hdone : s.ldone = true) :
    exec .lend s = .next t ↔ ∃ code, generateCodes s.params s.node 0 = .ok code ∧
      t = done { closeLoad s with root := 0, code := code, tv := true } := by
  rw [exec, execLend_next_iff]
  constructor
  · rintro (⟨hidle, -⟩ | ⟨-, hbad, -⟩ | ⟨-, -, v, hv, rfl⟩)
    · exact absurd (hl.symm.trans hidle) nofun
    · exact absurd ⟨hl, hdone⟩ hbad
    · obtain ⟨code, hcode, rfl⟩ := finishLoad_ok_iff.mp hv
      exact ⟨code, hcode, rfl⟩
  · rintro ⟨code, hcode, rfl⟩
    exact .inr (.inr ⟨hl, hdone, _, finishLoad_ok_iff.mpr ⟨code, hcode, rfl⟩, rfl⟩)

/-- Settles O25: CTG gives a code to the symbols of the leaves; BUILD's leaves are seeded from the counted symbols, and in
a load session LSEEN holds the symbols of the leaves (R30 item 9). -/
theorem codesCoverExactlyTheAlphabet : Obligations.CodesCoverExactlyTheAlphabet := by
  unfold Obligations.CodesCoverExactlyTheAlphabet
  constructor
  · intro s t hp hf hl h0 ht x hx
    obtain ⟨m, r, code, hm, hcode, rfl⟩ := (exec_build_next_iff hl h0).mp ht
    obtain ⟨u, hu, -, hsyms⟩ := hf.built_tree hp hm
    refine (read_code_isSome_iff hcode hu x).trans ?_
    rw [hsyms.mem_iff, mem_tableSymbols]
    exact and_iff_right hx
  · intro s t h hl hdone ht x hx
    have hinv : Inv t := execLend_keeps_inv h ht
    obtain ⟨-, -, -, -, -, -, -, -, hloading⟩ := h
    obtain ⟨-, -, -, -, -, hseen⟩ := hloading hl
    obtain ⟨code, hcode, rfl⟩ := (exec_lend_next_iff hl hdone).mp ht
    obtain ⟨u, hu, -⟩ := hinv.exists_tree rfl
    exact (read_code_isSome_iff hcode hu x).trans ((hinv.tree_syms_perm rfl hu).mem_iff.trans (hseen x hx).symm)

/-! ### A code is the path to its leaf (R130, R131) -/

/-- With pairwise distinct symbols an entry of the code table is what looking up its symbol finds. -/
theorem SymTree.lookup_codeTable {t : SymTree} (hd : t.syms.Nodup) {x : Nat} {q : BitPath} :
    t.codeTable.lookup x = some q ↔ (x, q) ∈ t.codeTable := by
  rw [← read_generateCodes hd, read_recordAll (t.codeTable_syms ▸ hd), Mem.read_nil, Option.or_none]

/-- An entry of the code table is a leaf with its path, or with [0] where that path is empty. -/
theorem SymTree.mem_codeTable_iff {t : SymTree} {x : Nat} {q : BitPath} :
    (x, q) ∈ t.codeTable ↔ ((x, q) ∈ t.paths ∧ q ≠ []) ∨ (q = [false] ∧ ∃ f, t = .leaf f x) := by
  cases t with
  | leaf f y =>
    have hempty : ¬ ((x, q) ∈ (leaf f y).paths ∧ q ≠ []) := by simp [paths]
    simp only [hempty, false_or]
    simp [codeTable, and_comm, eq_comm]
  | branch f l r =>
    have hne : (x, q) ∈ (branch f l r).codeTable → q ≠ [] := fun hq =>
      List.ne_nil_of_length_pos ((branch f l r).codeTable_length _ hq).1
    simpa [codeTable] using hne

/-- R28: CODE holds the entries of the tree's code table. -/
theorem Inv.read_code_iff {s : State} (h : Inv s) (htv : s.tv = true) {u : SymTree} (hu : s.tree? = some u) {x : Nat}
    {q : BitPath} : Mem.read s.code x = some q ↔ (x, q) ∈ u.codeTable := by
  obtain ⟨u', hu', -, hcode⟩ := h.exists_tree htv
  obtain rfl : u = u' := Option.some.inj (hu.symm.trans hu')
  obtain ⟨-, -, -, -, -, -, hdistinct, -⟩ := h.treeInv htv
  have hd : u.syms.Nodup := (h.tree_syms_perm htv hu).nodup_iff.mpr hdistinct
  rcases Nat.lt_or_ge x s.params.nsym with hx | hx
  · rw [hcode x hx, SymTree.lookup_codeTable hd]
  · have hout : (x, q) ∉ u.codeTable := fun hq =>
      absurd (h.tree_syms_lt htv hu x (u.codeTable_syms ▸ List.mem_map_of_mem hq)) (Nat.not_lt.mpr hx)
    simp [h.codeInv.read_of_nsym_le hx, hout]

/-- Settles O26: CODE holds the entries of the tree's code table (R28), and these are the non-empty paths to the leaves, or
[0] in a one-leaf tree. -/
theorem codeIsThePathToTheLeaf : Obligations.CodeIsThePathToTheLeaf := by
  unfold Obligations.CodeIsThePathToTheLeaf
  exact fun s u h htv hu x q => (h.read_code_iff htv hu).trans SymTree.mem_codeTable_iff

/-! ### The tree changes with its code table only (R134) -/

/-- Of the commands with TV in their row of R31, DROP and LBEG clear it: only BUILD and LEND make a tree. -/
theorem makes_tree {i : Instr} {s t : State} (h : exec i s = .next t) (hs : s.tv = false) (ht : t.tv = true) :
    i = .build ∨ i = .lend := by
  have hw := commandsWriteOnlyTheirColumns i s t h
  cases i with
  | build | lend => simp
  | drop => obtain rfl := execDrop_next_iff.mp h; cases ht
  | lbeg => obtain rfl := execLbeg_next_iff.mp h; cases ht
  | fclr | fsym | enc | dbeg | dbit | dend | ser | lleaf | lbr =>
    unfold OnlyTabledStateWritten at hw
    rw [hw] at ht
    exact absurd (hs.symm.trans ht) nofun

/-- Settles O27: a tree that was there stays as it is until BUILD replaces it (R36), and one that was not there is made by
BUILD or LEND; what they leave meets the invariant, and so R28. -/
theorem treeAndCodesChangeTogether : Obligations.TreeAndCodesChangeTogether := by
  unfold Obligations.TreeAndCodesChangeTogether
  intro i s t h ht htv
  obtain ⟨-, -, -, -, -, hcodes, -⟩ := (exec_keeps_inv h ht).treeInv htv
  cases hs : s.tv with
  | false => exact .inr ⟨makes_tree ht hs htv, hcodes⟩
  | true =>
    rcases treeIsReadOnlyUntilItEnds i s t h hs ht with ⟨-, hnode, hroot, hnn, hcode⟩ | rfl | rfl | ⟨rfl, -⟩
    · exact .inl ⟨rfl, hroot, hnn, hnode, hcode⟩
    · obtain rfl := execDrop_next_iff.mp ht; cases htv
    · obtain rfl := execLbeg_next_iff.mp ht; cases htv
    · exact .inr ⟨.inl rfl, hcodes⟩

end Sys2Proof.Machine
end

section
/-!
PROOFS. The statement of 43_encoder.md: ENC answers BadState, UnknownSymbolError or the bits of the code, and writes no state
(R141).
-/

namespace Sys2Proof.Machine

/-- The word of ENC: its symbol is below NSYM, and so fits ARG (00_scope.md R6). -/
theorem encode_enc {p : Params} (hp : p.Ok) {x : Nat} (hx : x < p.nsym) :
    encode (.enc x) = 0x04000000#32 ||| BitVec.ofNat 32 x :=
  wordOf_eq_or (hi := 0x04) (by decide) (hx.trans_le (Params.nsym_le hp))

theorem exec_enc_of_no_tree {s : State} {x : Nat} (hx : x < s.params.nsym) (htv : s.tv = false) :
    exec (.enc x) s = .next (raise .badState s) :=
  execEnc_next_iff.mpr ⟨hx, .inl ⟨htv, rfl⟩⟩

theorem exec_enc_of_no_code {s : State} {x : Nat} (hx : x < s.params.nsym) (htv : s.tv = true)
    (hcode : Mem.read s.code x = none) : exec (.enc x) s = .next (raise .unknownSymbolError s) :=
  execEnc_next_iff.mpr ⟨hx, .inr (.inl ⟨htv, hcode, rfl⟩)⟩

theorem exec_enc_of_code {s : State} {x : Nat} {q : BitPath} (hx : x < s.params.nsym) (htv : s.tv = true)
    (hcode : Mem.read s.code x = some q) : exec (.enc x) s = .next (done (emitAll (q.map Rsp.bit) s)) :=
  execEnc_next_iff.mpr ⟨hx, .inr (.inr ⟨htv, q, hcode, rfl⟩)⟩

/-- Settles O28: ENC tests TV before it reads CODE; each of its three answers only appends to the response stream. -/
theorem encAnswersTheBitPath : Obligations.EncAnswersTheBitPath := by
  unfold Obligations.EncAnswersTheBitPath
  intro s x hp hx
  exact ⟨encode_enc hp hx, exec_enc_of_no_tree hx, exec_enc_of_no_code hx, fun _ => exec_enc_of_code hx⟩

end Sys2Proof.Machine
end

section
/-!
PROOFS. The statements of 44_decoder.md: the one-leaf tree (R151) and the three commands (R152 to R154), a whole
session, which computes decode and leaves the state as it was (R150, R157), the paths that decode to a symbol (R156,
R158), and FROM_DATA, which makes a tree that decodes to exactly its input's symbols.
-/

namespace Sys2Proof.Machine

/-! ### The one-leaf tree (R151) -/

/-- When the root is a leaf, decode is that of the one-leaf tree, whatever else the entry holds. -/
theorem decodePath_of_leaf_root {m : Mem Node} {root x : Nat} {n : Node} (hn : Mem.read m root = some n)
    (hx : n.sym = some x) (q : BitPath) : decodePath m root q = some ((SymTree.leaf n.freq x).decode q) := by
  simp only [decodePath, hn, hx]
  match q with
  | [] | [false] | [true] | false :: _ :: _ | true :: _ :: _ => rfl

/-- Settles O33: each of the paths named, evaluated over the one-leaf tree. -/
theorem oneLeafTreeDecodes : Obligations.OneLeafTreeDecodes := by
  unfold Obligations.OneLeafTreeDecodes
  intro m root n x hn hx
  have hdecode := decodePath_of_leaf_root hn hx
  exact ⟨hdecode [], hdecode [false], hdecode [true], fun b q => ⟨hdecode _, hdecode _⟩⟩

/-! ### DBEG (R152) -/

/-- Settles O29: without a tree, and with one, whose root is a leaf when it carries a symbol. -/
theorem dbegStandsOnTheRoot : Obligations.DbegStandsOnTheRoot := by
  unfold Obligations.DbegStandsOnTheRoot
  refine ⟨rfl, fun s => ⟨fun htv => execDbeg_next_iff.mpr (.inl ⟨htv, rfl⟩), fun n htv hn => ?_⟩⟩
  refine execDbeg_next_iff.mpr (.inr ⟨htv, n, hn, ?_⟩)
  simp only [← Option.isSome_iff_ne_none]
  rfl

/-! ### DBIT (R153) -/

theorem exec_dbit_of_idle {s : State} (hd : s.dst = .idle) (b : Bool) :
    exec (.dbit b) s = .next (raise .badState s) :=
  execDbit_next_iff.mpr (.inl ⟨hd, rfl⟩)

/-- In an open session DBIT answers OK and leaves the cursor where the step of R153 moves it. -/
theorem exec_dbit_of_stepCursor {s u : State} {b : Bool} (hd : s.dst ≠ .idle) (hu : stepCursor b s = .ok u) :
    exec (.dbit b) s = .next (done u) :=
  execDbit_next_iff.mpr (.inr ⟨hd, u, hu, rfl⟩)

theorem exec_dbit_of_vroot {s : State} (hd : s.dst = .vroot) (b : Bool) :
    exec (.dbit b) s = .next (done { s with dst := if b then .dead else .atNode }) :=
  exec_dbit_of_stepCursor (by simp [hd]) (stepCursor_ok_iff.mpr (.inr (.inl ⟨hd, rfl⟩)))

theorem exec_dbit_of_no_child {s : State} {b : Bool} {n : Node} (hd : s.dst = .atNode)
    (hn : Mem.read s.node s.dcur = some n) (hc : n.child b = none) :
    exec (.dbit b) s = .next (done { s with dst := .dead }) :=
  exec_dbit_of_stepCursor (by simp [hd]) (stepCursor_ok_iff.mpr (.inr (.inr ⟨hd, n, hn, .inl ⟨hc, rfl⟩⟩)))

theorem exec_dbit_of_child {s : State} {b : Bool} {n : Node} {j : Nat} (hd : s.dst = .atNode)
    (hn : Mem.read s.node s.dcur = some n) (hc : n.child b = some j) :
    exec (.dbit b) s = .next (done { s with dcur := j }) :=
  exec_dbit_of_stepCursor (by simp [hd]) (stepCursor_ok_iff.mpr (.inr (.inr ⟨hd, n, hn, .inr ⟨j, hc, rfl⟩⟩)))

theorem exec_dbit_of_dead {s : State} (hd : s.dst = .dead) (b : Bool) : exec (.dbit b) s = .next (done s) :=
  exec_dbit_of_stepCursor (by simp [hd]) (stepCursor_ok_iff.mpr (.inl ⟨.inr hd, rfl⟩))

theorem Node.child_eq_ite (n : Node) (b : Bool) : n.child b = if b = false then n.left else n.right := by
  cases b <;> rfl

/-- Settles O30: one case for each place of the cursor, and at a node one for a child that is there and one for a child
that is not. -/
theorem dbitTakesOneStep : Obligations.DbitTakesOneStep := by
  unfold Obligations.DbitTakesOneStep
  refine ⟨rfl, rfl, fun s b => ⟨fun hd => exec_dbit_of_idle hd b, fun hd => ?_, fun n hd hn hc => ?_,
    fun n j hd hn hc => ?_, fun hd => exec_dbit_of_dead hd b⟩⟩
  · rw [exec_dbit_of_vroot hd]
    cases b <;> rfl
  · exact exec_dbit_of_no_child hd hn ((n.child_eq_ite b).trans hc)
  · exact exec_dbit_of_child hd hn ((n.child_eq_ite b).trans hc)

/-! ### DEND (R154) -/

/-- Settles O31: a session with no bits to come has one of the three results, a dead end, an incomplete path or the symbol
of the leaf at the cursor. -/
theorem dendGivesTheResult : Obligations.DendGivesTheResult := by
  unfold Obligations.DendGivesTheResult
  refine ⟨rfl, fun s => ⟨fun hd => execDend_next_iff.mpr (.inl ⟨hd, rfl⟩), fun hd => ?_, fun hd => ?_,
    fun n hd hn hx => ?_, fun n x hd hn hx => ?_⟩⟩
  · exact execDend_of_sessionResult (r := .deadEnd) (by simp [State.sessionResult, hd])
  · exact execDend_of_sessionResult (r := .incompletePath) (by simp [State.sessionResult, hd])
  · refine execDend_of_sessionResult (r := .incompletePath) ?_
    simpa [State.sessionResult, hd] using descend_nil.mpr ⟨n, hn, .inl ⟨hx, rfl⟩⟩
  · refine execDend_of_sessionResult (r := .symbol x) ?_
    simpa [State.sessionResult, hd] using descend_nil.mpr ⟨n, hn, .inr ⟨x, hx, rfl⟩⟩

/-! ### A whole decode session (R150, R157) -/

/-- Settles O32: the session answers decode over the tree NODE holds, which is the function of R150 on NODE. -/
theorem decodeSessionComputesDecode : Obligations.DecodeSessionComputesDecode := by
  unfold Obligations.DecodeSessionComputesDecode
  intro s q h htv hidle
  obtain ⟨u, hu, hleaves, -⟩ := h.exists_tree htv
  exact ⟨u.decode q, decodePath_eq_decode hleaves hu q, runAll_decodeCommands h htv hidle hu q⟩

/-! ### The paths that decode to a symbol (R156, R158) -/

/-- The entries of a code table are all the paths that decode to a symbol. -/
theorem SymTree.decode_eq_symbol_iff {t : SymTree} {x : Nat} {q : BitPath} :
    t.decode q = .symbol x ↔ (x, q) ∈ t.codeTable := by
  refine ⟨fun h => ?_, decode_of_mem_codeTable⟩
  cases t with
  | leaf f y =>
    match q with
    | [] | true :: _ | false :: _ :: _ => simp [decode] at h
    | [false] =>
      obtain rfl : y = x := by simpa [decode] using h
      exact List.mem_singleton_self _
  | branch f l r => exact (mem_paths_iff_walkPath _ x q).mpr h

/-- Over a memory that holds a tree, decode gives a symbol for the entries of the tree's code table. -/
theorem decodePath_eq_symbol_iff {m : Mem Node} (hc : ChildlessLeaves m) {d root : Nat} {t : SymTree}
    (h : treeAt d m root = some t) {x : Nat} {q : BitPath} :
    decodePath m root q = some (.symbol x) ↔ (x, q) ∈ t.codeTable := by
  rw [decodePath_eq_decode hc h, Option.some.injEq, SymTree.decode_eq_symbol_iff]

/-- Settles O34: both sides of the equivalence are the entries of the tree's code table (R28), and decode has no results but
a symbol and the two errors. -/
theorem pathsThatDecodeAreTheCodes : Obligations.PathsThatDecodeAreTheCodes := by
  unfold Obligations.PathsThatDecodeAreTheCodes
  intro s q h htv
  obtain ⟨u, hu, hleaves, -⟩ := h.exists_tree htv
  have hiff (x : Nat) : decodePath s.node s.root q = some (.symbol x) ↔ Mem.read s.code x = some q :=
    (decodePath_eq_symbol_iff hleaves hu).trans (h.read_code_iff htv hu).symm
  refine ⟨hiff, fun hno => ?_⟩
  have hdecode := decodePath_eq_decode hleaves hu q
  cases hr : u.decode q with
  | symbol x => exact absurd ((hiff x).mp (hr ▸ hdecode)) (hno x)
  | deadEnd => exact .inl (hr ▸ hdecode)
  | incompletePath => exact .inr (hr ▸ hdecode)

/-! ### FROM_DATA (30_encoding.md R91) -/

/-- When the first commands of a list answer, the others run from the state they leave (00_scope.md R15). -/
theorem runAll_append_of_next {is js : List Instr} {s t : State} (h : runAll is s = .next t) :
    runAll (is ++ js) s = runAll js t := by
  induction is generalizing s with
  | nil =>
    cases h
    rfl
  | cons i is ih =>
    cases hi : exec i s with
    | next v =>
      rw [runAll_cons_of_next hi] at h
      rw [List.cons_append, runAll_cons_of_next hi, ih h]
    | fault f => simp [runAll, hi] at h
    | refused r => simp [runAll, hi] at h

theorem runAll_singleton (i : Instr) (s : State) : runAll [i] s = exec i s := by
  rw [runAll]
  cases exec i s <;> rfl

/-- FROM_DATA ends as BUILD does over the occurrence counts of its symbols. -/
theorem runAll_fromData {s : State} {xs : List Nat} (hxs : ∀ x ∈ xs, x < s.params.nsym)
    (hlen : xs.length ≤ s.params.freqMax) :
    ∃ t, Counted xs (done { s with freq := [], ftotal := 0 }) t ∧ runAll (fromData xs) s = exec .build t := by
  obtain ⟨t, ht, hcounted⟩ := runAll_fclr_fsyms hxs hlen
  exact ⟨t, hcounted, (runAll_append_of_next (js := [.build]) ht).trans (runAll_singleton .build t)⟩

/-- FROM_DATA of nothing is FCLR and a BUILD that finds the table empty. -/
theorem runAll_fromData_nil {s : State} (hl : s.lst = .idle) :
    runAll (fromData []) s = .next (raise .emptyInputError (done { s with freq := [], ftotal := 0 })) :=
  calc runAll (fromData []) s
    _ = runAll [.build] (done { s with freq := [], ftotal := 0 }) := runAll_cons_of_next (exec_fclr s)
    _ = exec .build (done { s with freq := [], ftotal := 0 }) := runAll_singleton _ _
    _ = .next (raise .emptyInputError (done { s with freq := [], ftotal := 0 })) :=
      execBuild_next_iff.mpr (.inr (.inl ⟨hl, rfl, rfl⟩))

theorem Counted.params {xs : List Nat} {s t : State} (h : Counted xs s t) : t.params = s.params := by
  rw [h.frame]

/-- After counting xs over an empty table the keys of the table are the symbols of xs (40_frequency.md R104). -/
theorem Counted.mem_tableSymbols {xs : List Nat} {s t : State} (h : Counted xs s t) (hempty : s.freq = [])
    (hxs : ∀ x ∈ xs, x < s.params.nsym) {x : Nat} : x ∈ tableSymbols t.params t.freq ↔ x ∈ xs := by
  have hcount : readFreq t.freq x = xs.count x := by simpa [hempty] using h.reads x
  rw [Machine.mem_tableSymbols, hcount, List.count_pos_iff, h.params]
  exact and_iff_right_of_imp (hxs x)

@[simp] theorem built_rsp (s : State) (m : Mem Node) (r : Nat) (code : Mem BitPath) :
    (s.built m r code).rsp = s.rsp ++ [statusWord .ok] := rfl

/-- What BUILD leaves gives a code to exactly the keys of the table, and each code decodes to its own symbol
(42_code_table.md R133, 44_decoder.md R156). -/
theorem FreqInv.built_decodes {s : State} (h : FreqInv s) (hp : s.params.Ok) {m : Mem Node} {r : Nat} {code : Mem BitPath}
    (hm : buildTree s.params s.freq = .ok (m, r)) (hcode : generateCodes s.params m r = .ok code) (x : Nat) :
    x ∈ tableSymbols s.params s.freq ↔
      ∃ q, Mem.read code x = some q ∧ decodePath m r q = some (.symbol x) := by
  obtain ⟨u, hu, -, hsyms⟩ := h.built_tree hp hm
  obtain ⟨u', hu', -, rfl⟩ := generateCodes_ok_iff.mp hcode
  obtain rfl : u = u' := Option.some.inj (hu.symm.trans hu')
  have hd : u.syms.Nodup := hsyms.nodup_iff.mpr (tableSymbols_nodup _ _)
  have hleaves := (h.built_forest hm).ranked.childlessLeaves
  simp only [decodePath_eq_symbol_iff hleaves hu, read_generateCodes hd, and_self]
  rw [← hsyms.mem_iff, ← u.codeTable_syms]
  simp

/-- Settles O36: BUILD runs over the occurrence counts of the sequence (R100), which add up to its length, and gives a
code to exactly the counted symbols. -/
theorem fromDataRoundTrip : Obligations.FromDataRoundTrip := by
  unfold Obligations.FromDataRoundTrip
  intro s xs hp hl hxs hlen
  constructor
  · intro hne
    obtain ⟨t, hcounted, hrun⟩ := runAll_fromData hxs hlen
    have hpt : t.params.Ok := hcounted.params ▸ hp
    have hidle : t.lst = .idle := by rw [hcounted.frame]; exact hl
    have htotal : t.ftotal = xs.length := by rw [hcounted.frame]; simp
    have h0 : t.ftotal ≠ 0 := htotal ▸ (List.length_pos_iff.mpr hne).ne'
    obtain ⟨m, r, code, hm, hcode⟩ := hcounted.inv.exists_built hpt h0
    refine ⟨t.built m r code, hrun.trans ((exec_build_next_iff hidle h0).mpr ⟨m, r, code, hm, hcode, rfl⟩), rfl, ?_,
      fun x => ?_⟩
    · rw [built_rsp, hcounted.frame, List.replicate_succ, List.replicate_succ']
      simp [done_eq]
    · exact (hcounted.mem_tableSymbols rfl hxs).symm.trans (hcounted.inv.built_decodes hpt hm hcode x)
  · rintro rfl
    rw [runAll_fromData_nil hl]
    simp [raise, emit, done_eq, statusWord]

end Sys2Proof.Machine
end

section
/-!
PROOFS. The commands of 45_persistence.md, each from its inversion lemma: SER (R171), LBEG (R172), one record taken by
LLEAF or LBR (R173 to R175), and LEND (R176).
-/

namespace Sys2Proof.Machine

/-! ### SER (R171) -/

/-- Settles O37: the key record of the tree at ROOT has a word for each of the tree's NN nodes. -/
theorem serAnswersTheKeyRecord : Obligations.SerAnswersTheKeyRecord := by
  unfold Obligations.SerAnswersTheKeyRecord
  refine ⟨rfl, fun s => ⟨fun htv => execSer_next_iff.mpr (.inl ⟨htv, rfl⟩), fun h htv => ?_⟩⟩
  obtain ⟨u, hu, -⟩ := h.exists_tree htv
  exact ⟨u, hu, u.records_length.trans (h.tree_size htv hu), exec_ser_of_tree htv hu⟩

/-! ### LBEG (R172) -/

/-- The state LBEG leaves: no tree, no decode session, and a load session that has taken no record. -/
def State.loadBegun (s : State) : State := done { closeLoad (closeDecode (clearTree s)) with lst := .active }

theorem exec_lbeg (s : State) : exec .lbeg s = .next s.loadBegun := execLbeg_next_iff.mpr rfl

/-- Settles O38: the memories of the tree and of the load session become the memories that list nothing. -/
theorem lbegStartsAnEmptyLoad : Obligations.LbegStartsAnEmptyLoad := by
  unfold Obligations.LbegStartsAnEmptyLoad
  exact ⟨rfl, fun s => ⟨_, exec_lbeg s, Mem.read_nil, Mem.read_nil, Mem.read_nil, rfl⟩⟩

/-! ### One record (R173 to R175) -/

/-- A record whose symbol, if it has one, is in the alphabet goes to LoadNode. -/
theorem exec_recordInstr {x : Option Nat} {s : State} (hx : ∀ y ∈ x, y < s.params.nsym) :
    exec (recordInstr x) s = loadNode x s := by
  cases x with
  | none => rfl
  | some y => exact if_pos (symbolInAlphabet_iff.mpr (hx y rfl))

theorem exec_record_of_idle {x : Option Nat} {s : State} (hx : ∀ y ∈ x, y < s.params.nsym) (hl : s.lst = .idle) :
    exec (recordInstr x) s = .next (raise .badState s) :=
  (exec_recordInstr hx).trans (loadNode_next_iff.mpr (.inl ⟨hl, rfl⟩))

theorem exec_record_of_bad {x : Option Nat} {s : State} (hx : ∀ y ∈ x, y < s.params.nsym) (hl : s.lst = .bad) :
    exec (recordInstr x) s = .next (done s) :=
  (exec_recordInstr hx).trans (loadNode_next_iff.mpr (.inr (.inl ⟨hl, rfl⟩)))

theorem exec_record_of_malformed {x : Option Nat} {s : State} (hx : ∀ y ∈ x, y < s.params.nsym) (hl : s.lst = .active)
    (hm : recordMalformed x s = true) : exec (recordInstr x) s = .next (done { s with lst := .bad }) :=
  (exec_recordInstr hx).trans (loadNode_next_iff.mpr (.inr (.inr (.inl ⟨hl, hm, rfl⟩))))

/-- A record that is not malformed finds room in NODE. -/
theorem nn_lt_of_not_malformed {x : Option Nat} {s : State} (hnode : NodeInv s) (hm : recordMalformed x s = false) :
    s.nn < s.params.nodeCap := by
  obtain ⟨-, hcap, -⟩ := hnode
  refine Nat.lt_of_le_of_ne hcap fun hfull => ?_
  exact absurd (hm.symm.trans (recordMalformed_iff.mpr (.inr (.inr hfull)))) nofun

theorem exec_record_accepted {x : Option Nat} {s : State} (hx : ∀ y ∈ x, y < s.params.nsym) (hl : s.lst = .active)
    (hnode : NodeInv s) (hload : LoaderInv s) (hm : recordMalformed x s = false) :
    exec (recordInstr x) s = .next (done (recordTaken x s)) :=
  (exec_recordInstr hx).trans (loadNode_next_iff.mpr (.inr (.inr (.inr
    ⟨hl, hm, _, takeRecord_eq hnode hload (nn_lt_of_not_malformed hnode hm), rfl⟩))))

/-- Settles O40: the branches of LoadNode but the last. -/
theorem malformedRecordMakesTheSessionBad : Obligations.MalformedRecordMakesTheSessionBad := by
  unfold Obligations.MalformedRecordMakesTheSessionBad
  exact fun s x hx => ⟨exec_record_of_idle hx, exec_record_of_bad hx,
    fun hl hm => exec_record_of_malformed hx hl (recordMalformed_iff.mpr hm)⟩

/-- What NODE reads after a record: the new entry, and the old ones with the new node attached. -/
theorem read_recordTaken {s : State} (hkeys : s.node.map Prod.fst = List.range s.nn) (x : Option Nat) (j : Nat) :
    Mem.read (recordTaken x s).node j =
      if j = s.nn then some (newNode x) else (Mem.read s.node j).map fun n => linked s.lstk s.nn (j, n) := by
  have hbelow : ∀ k ∈ (linkAll s.lstk s.nn s.node).map Prod.fst, k < s.nn := by
    rw [linkAll_keys, hkeys]
    exact fun k => List.mem_range.mp
  show Mem.read (linkAll s.lstk s.nn s.node ++ [(s.nn, newNode x)]) j = _
  rw [← Mem.write_above hbelow, Mem.read_write, read_linkAll]

theorem stackAfter_eq (x : Option Nat) (i : Nat) (stk : List (Nat × Bool)) :
    stackAfter x i stk = (if x = none then [(i, false)] else []) ++ stk := by
  cases x <;> rfl

/-- Settles O39: an accepted record is attached to the branch on top of LSTK, whose entry alone changes. -/
theorem acceptedRecordIsAttached : Obligations.AcceptedRecordIsAttached := by
  unfold Obligations.AcceptedRecordIsAttached
  intro s x h hl hopen hcap hx
  obtain ⟨-, -, hnode, -, hload, -, -, -, hloading⟩ := h
  have hm : recordMalformed x s = false := by
    rw [← Bool.not_eq_true, recordMalformed_iff]
    rintro (hdone | ⟨y, hy, hseen⟩ | hfull)
    · exact absurd (hopen.symm.trans hdone) nofun
    · simp [(hx y hy).2] at hseen
    · exact hcap hfull
  have hread := read_recordTaken hnode.1 x
  refine ⟨_, exec_record_accepted (fun y hy => (hx y hy).1) hl hnode hload hm, (hread s.nn).trans (if_pos rfl), ?_,
    read_seenAfter x s.lseen, by simp [recordTaken, hopen], rfl⟩
  rcases hstk : s.lstk with - | ⟨⟨b, k⟩, rest⟩
  · refine ⟨fun j hj => ?_, ?_⟩
    · rw [done_node, hread, if_neg hj, hstk]
      simp
    · simp [recordTaken, hstk, stackAfter_eq, advance]
  · have hmem : (b, k) ∈ s.lstk := by simp [hstk]
    have hb : b ≠ s.nn := Nat.ne_of_lt (hload.2.1 _ hmem)
    obtain ⟨n, hn, -⟩ := (hloading hl).branch_on_stack hmem
    refine ⟨⟨n, hn, ?_⟩, fun j hj hjb => ?_, ?_⟩
    · rw [done_node, hread, if_neg hb, hn, hstk, Option.map_some, linked_top]
      rfl
    · rw [done_node, hread, if_neg hj, hstk]
      simp [linked_of_ne_top, hjb]
    · simp [recordTaken, hstk, stackAfter_eq, advance]

/-! ### LEND (R176) -/

theorem exec_lend_of_idle {s : State} (hl : s.lst = .idle) : exec .lend s = .next (raise .badState s) :=
  execLend_next_iff.mpr (.inl ⟨hl, rfl⟩)

theorem exec_lend_of_malformed {s : State} (hl : s.lst ≠ .idle) (hbad : ¬ (s.lst = .active ∧ s.ldone = true)) :
    exec .lend s = .next (raise .malformedTreeError { closeLoad s with nn := 0, node := [] }) :=
  execLend_next_iff.mpr (.inr (.inl ⟨hl, hbad, rfl⟩))

/-- The nodes of a complete load session hold a tree at index 0, so CTG answers (R25, R173). -/
theorem Inv.exists_codes_of_ldone {s : State} (h : Inv s) (hl : s.lst = .active) (hdone : s.ldone = true) :
    ∃ code, generateCodes s.params s.node 0 = .ok code := by
  obtain ⟨hp, -, hnode, -, -, -, -, -, hloading⟩ := h
  have hloading := hloading hl
  obtain ⟨-, hsingle, hcomplete, -, hdistinct, -⟩ := id hloading
  obtain ⟨hnn, hstk⟩ := hcomplete.mp hdone
  have hlt := hnode.leafSyms_lt
  obtain ⟨u, hu, -, hsyms, -⟩ := (hloading.ranked hnode hstk).isTree hp hnode.1 hnn hsingle hdistinct hlt
  exact ⟨_, generateCodes_ok_iff.mpr ⟨u, hu, fun x hx => hlt x (hsyms.mem_iff.mp hx), rfl⟩⟩

/-- Settles O41: in a complete session CTG answers, and what LEND leaves meets the invariant and so what R30 asks of a
tree. -/
theorem lendMakesTheTreeOrReportsMalformed : Obligations.LendMakesTheTreeOrReportsMalformed := by
  unfold Obligations.LendMakesTheTreeOrReportsMalformed
  refine ⟨rfl, fun s => ⟨exec_lend_of_idle, exec_lend_of_malformed, fun h hl hdone => ?_⟩⟩
  obtain ⟨code, hcode⟩ := h.exists_codes_of_ldone hl hdone
  have hlend := (exec_lend_next_iff hl hdone).mpr ⟨code, hcode, rfl⟩
  exact ⟨_, hlend, (execLend_keeps_inv h hlend).treeInv rfl, rfl⟩

end Sys2Proof.Machine
end

section
/-!
PROOFS. Key records as lists (45_persistence.md R170, R177): a list of records is the key record of a tree exactly when
they fill the one open place of the root, each record filling a place and a branch record opening two.
-/

namespace Sys2Proof.Machine

/-! ### The records of a tree -/

/-- The records whose words are the key record of a tree (R170). -/
def SymTree.recordList : SymTree → List (Option Nat)
  | leaf _ x => [some x]
  | branch _ l r => none :: (l.recordList ++ r.recordList)

theorem recordRsp_injective : Function.Injective recordRsp := by
  rintro (- | x) (- | y) h
  · rfl
  · cases h
  · cases h
  · cases h; rfl

namespace SymTree

theorem map_recordRsp_recordList (t : SymTree) : t.recordList.map recordRsp = t.records := by
  induction t with
  | leaf f x => rfl
  | branch f l r ihl ihr => simp [recordList, records, recordRsp, ihl, ihr]

theorem records_eq_map_iff {t : SymTree} {rs : List (Option Nat)} :
    t.records = rs.map recordRsp ↔ t.recordList = rs := by
  rw [← map_recordRsp_recordList]
  exact (List.map_injective_iff.mpr recordRsp_injective).eq_iff

theorem reduceOption_recordList (t : SymTree) : t.recordList.reduceOption = t.syms := by
  induction t with
  | leaf f x => rfl
  | branch f l r ihl ihr =>
    rw [recordList, List.reduceOption_cons_of_none, List.reduceOption_append, ihl, ihr, syms]

theorem some_mem_recordList_iff {t : SymTree} {x : Nat} : some x ∈ t.recordList ↔ x ∈ t.syms := by
  rw [← t.reduceOption_recordList, List.reduceOption_mem_iff]

theorem recordList_length (t : SymTree) : t.recordList.length = t.size := by
  rw [← t.records_length, ← map_recordRsp_recordList, List.length_map]

theorem shape_recordList (t : SymTree) : t.shape.recordList = t.recordList :=
  records_eq_map_iff.mp (t.shape_records.trans t.map_recordRsp_recordList.symm)

theorem shape_shape (t : SymTree) : t.shape.shape = t.shape := by
  induction t with
  | leaf f x => rfl
  | branch f l r ihl ihr => simp [shape, ihl, ihr]

end SymTree

/-! ### Open places -/

/-- How many places a record opens besides the one it fills: a branch record waits for two children. -/
def newPlaces : Option Nat → Nat
  | some _ => 0
  | none => 2

/-- The records of a list fill k open places: each fills one and opens its own, and none comes once all are filled. -/
def Fills : List (Option Nat) → Nat → Prop
  | [], k => k = 0
  | _ :: _, 0 => False
  | x :: rs, k + 1 => Fills rs (k + newPlaces x)

/-- The records of a tree fill one place. -/
theorem fills_recordList_append (t : SymTree) (rs : List (Option Nat)) (k : Nat) :
    Fills (t.recordList ++ rs) (k + 1) ↔ Fills rs k := by
  induction t generalizing rs k with
  | leaf f x => rfl
  | branch f l r ihl ihr =>
    show Fills (l.recordList ++ r.recordList ++ rs) (k + 2) ↔ _
    rw [List.append_assoc, ihl, ihr]

/-- Records that fill k places are those of k trees, one behind the other. -/
theorem Fills.exists_trees {rs : List (Option Nat)} {k : Nat} (h : Fills rs k) :
    ∃ us : List SymTree, us.length = k ∧ us.flatMap SymTree.recordList = rs := by
  induction rs generalizing k with
  | nil => exact ⟨[], h.symm, rfl⟩
  | cons x rs ih =>
    obtain - | k := k
    · exact h.elim
    obtain ⟨us, hlen, hus⟩ := ih (k := k + newPlaces x) h
    cases x with
    | some y => exact ⟨.leaf 0 y :: us, congrArg (· + 1) hlen, by simp [SymTree.recordList, hus]⟩
    | none =>
      obtain ⟨l, r, us, rfl⟩ : ∃ l r vs, us = l :: r :: vs := by
        match us, hlen with
        | l :: r :: us, _ => exact ⟨l, r, us, rfl⟩
      exact ⟨.branch 0 l r :: us, by simpa [newPlaces] using hlen, by simp [SymTree.recordList, ← hus]⟩

/-- A list of records is that of a tree exactly when it fills the one place of the root (R177). -/
theorem fills_one_iff {rs : List (Option Nat)} : Fills rs 1 ↔ ∃ u : SymTree, u.recordList = rs := by
  constructor
  · intro h
    obtain ⟨us, hlen, hus⟩ := h.exists_trees
    obtain ⟨u, rfl⟩ := List.length_eq_one_iff.mp hlen
    exact ⟨u, by simpa using hus⟩
  · rintro ⟨u, rfl⟩
    rw [← List.append_nil u.recordList]
    exact (fills_recordList_append u [] 0).mpr rfl

end Sys2Proof.Machine
end

section
/-!
PROOFS. A list of records in a load session (45_persistence.md R173, R177): when all are accepted and complete the
session, and the tree they leave in NODE.
-/

namespace Sys2Proof.Machine

/-! ### A load session, record by record (R173) -/

/-- A load session in progress, with what the invariant says of it (10_state.md R30 item 9). -/
structure Loading (s : State) : Prop where
  active : s.lst = .active
  nodes : NodeInv s
  stack : LoaderInv s
  records : LoadingInv s

/-- LBEG begins a load session (R172).  The Frequency Table does not bear on it, so it may be taken to be empty. -/
theorem loading_loadBegun {s : State} (hp : s.params.Ok) : Loading s.loadBegun := by
  obtain ⟨-, -, hnode, -, hload, -, -, -, hloading⟩ : Inv { s.loadBegun with freq := [], ftotal := 0 } :=
    Treeless.inv ⟨rfl, rfl, rfl, rfl, rfl, rfl, rfl, rfl, rfl, rfl⟩ hp (freqInv_of_empty rfl rfl)
  exact ⟨rfl, hnode, hload, hloading rfl⟩

/-- A record is accepted in an incomplete session with room in NODE, if its symbol is a new one. -/
theorem Loading.recordMalformed_eq_false_iff {s : State} (h : Loading s) {x : Option Nat}
    (hx : ∀ y ∈ x, y < s.params.nsym) :
    recordMalformed x s = false ↔ s.ldone = false ∧ (∀ y ∈ x, y ∉ leafSyms s.node) ∧ s.nn < s.params.nodeCap := by
  obtain ⟨-, -, -, -, -, hseen⟩ := h.records
  obtain ⟨-, hcap, -⟩ := h.nodes
  have hnew : (¬ ∃ y, x = some y ∧ (Mem.read s.lseen y).isSome = true) ↔ ∀ y ∈ x, y ∉ leafSyms s.node := by
    simp only [not_exists, not_and]
    exact forall₂_congr fun y hy => not_congr (hseen y (hx y hy))
  have hroom : ¬ s.nn = s.params.nodeCap ↔ s.nn < s.params.nodeCap := ⟨Nat.lt_of_le_of_ne hcap, Nat.ne_of_lt⟩
  rw [← Bool.not_eq_true, recordMalformed_iff, not_or, not_or, hnew, hroom, Bool.not_eq_true]

/-- An accepted record keeps the session in progress. -/
theorem Loading.after_record {s : State} (h : Loading s) {x : Option Nat} (hx : ∀ y ∈ x, y < s.params.nsym)
    (hm : recordMalformed x s = false) : Loading (done (recordTaken x s)) := by
  obtain ⟨hopen, hnew, hcap⟩ := (h.recordMalformed_eq_false_iff hx).mp hm
  obtain ⟨-, -, -, -, -, hseen⟩ := h.records
  exact ⟨h.active, recordTaken_nodeInv h.nodes hcap hx, recordTaken_loaderInv h.stack hx,
    recordTaken_loadingInv h.records h.nodes h.stack hopen hcap hx fun y hy => mt (hseen y (hx y hy)).mp (hnew y hy)⟩

/-- The state once the records of a list are taken, one after the other; none when one of them is malformed. -/
def takeRecords : List (Option Nat) → State → Option State
  | [], s => some s
  | x :: rs, s => if recordMalformed x s then none else takeRecords rs (done (recordTaken x s))

theorem takeRecords_of_malformed {x : Option Nat} {s : State} (hm : recordMalformed x s = true)
    (rs : List (Option Nat)) : takeRecords (x :: rs) s = none := if_pos hm

theorem takeRecords_of_accepted {x : Option Nat} {s : State} (hm : recordMalformed x s = false)
    (rs : List (Option Nat)) : takeRecords (x :: rs) s = takeRecords rs (done (recordTaken x s)) := by
  simp [takeRecords, hm]

theorem takeRecords_cons_eq_some {x : Option Nat} {rs : List (Option Nat)} {s t : State} :
    takeRecords (x :: rs) s = some t ↔
      recordMalformed x s = false ∧ takeRecords rs (done (recordTaken x s)) = some t := by
  cases hm : recordMalformed x s <;> simp [takeRecords, hm]

theorem takeRecords_append (rs qs : List (Option Nat)) (s : State) :
    takeRecords (rs ++ qs) s = (takeRecords rs s).bind (takeRecords qs) := by
  induction rs generalizing s with
  | nil => rfl
  | cons x rs ih =>
    cases hm : recordMalformed x s with
    | false => rw [List.cons_append, takeRecords_of_accepted hm, takeRecords_of_accepted hm, ih]
    | true => rw [List.cons_append, takeRecords_of_malformed hm, takeRecords_of_malformed hm, Option.bind_none]

/-! ### The answers to the records -/

theorem forall_some_mem_cons {x : Option Nat} {rs : List (Option Nat)} {P : Nat → Prop} :
    (∀ y, some y ∈ x :: rs → P y) ↔ (∀ y ∈ x, P y) ∧ ∀ y, some y ∈ rs → P y := by
  simp [or_imp, forall_and, eq_comm]

/-- Between s and t the block has answered OK to n commands and written nothing but what LLEAF and LBR may write
(10_state.md R31). -/
def RecordsAnswered (n : Nat) (s t : State) : Prop :=
  t = { s with
    nn := t.nn, node := t.node, lst := t.lst, ldone := t.ldone, lstk := t.lstk, lseen := t.lseen,
    rsp := s.rsp ++ List.replicate n (statusWord .ok) }

theorem RecordsAnswered.after {n : Nat} {s u t : State} (ht : RecordsAnswered n u t) (hu : RecordsAnswered 1 s u) :
    RecordsAnswered (n + 1) s t := by
  unfold RecordsAnswered at hu ht ⊢
  rw [hu] at ht
  simpa [List.replicate_succ] using ht

/-- In a BAD session every record is answered OK and ignored (R173). -/
theorem runAll_records_of_bad {s : State} (hl : s.lst = .bad) {rs : List (Option Nat)}
    (hrs : ∀ x, some x ∈ rs → x < s.params.nsym) :
    ∃ t, runAll (rs.map recordInstr) s = .next t ∧ RecordsAnswered rs.length s t ∧ t.lst = .bad := by
  induction rs generalizing s with
  | nil => exact ⟨s, rfl, by simp [RecordsAnswered], hl⟩
  | cons x rs ih =>
    obtain ⟨hx, hrs⟩ := forall_some_mem_cons.mp hrs
    obtain ⟨t, ht, hanswers, hbad⟩ := ih (s := done s) hl hrs
    exact ⟨t, (runAll_cons_of_next (exec_record_of_bad hx hl)).trans ht, hanswers.after rfl, hbad⟩

/-- Every record is answered OK.  Either all are accepted, or the session is BAD in the end. -/
theorem Loading.runAll_records {s : State} (h : Loading s) {rs : List (Option Nat)}
    (hrs : ∀ x, some x ∈ rs → x < s.params.nsym) :
    ∃ t, runAll (rs.map recordInstr) s = .next t ∧ RecordsAnswered rs.length s t ∧
      ((takeRecords rs s = some t ∧ Loading t) ∨ (takeRecords rs s = none ∧ t.lst = .bad)) := by
  induction rs generalizing s with
  | nil => exact ⟨s, rfl, by simp [RecordsAnswered], .inl ⟨rfl, h⟩⟩
  | cons x rs ih =>
    obtain ⟨hx, hrs⟩ := forall_some_mem_cons.mp hrs
    cases hm : recordMalformed x s with
    | false =>
      obtain ⟨t, ht, hanswers, hout⟩ := ih (h.after_record hx hm) hrs
      exact ⟨t, (runAll_cons_of_next (exec_record_accepted hx h.active h.nodes h.stack hm)).trans ht,
        hanswers.after rfl, (takeRecords_of_accepted hm rs).symm ▸ hout⟩
    | true =>
      obtain ⟨t, ht, hanswers, hbad⟩ := runAll_records_of_bad (s := done { s with lst := .bad }) rfl hrs
      exact ⟨t, (runAll_cons_of_next (exec_record_of_malformed hx h.active hm)).trans ht, hanswers.after rfl,
        .inr ⟨takeRecords_of_malformed hm rs, hbad⟩⟩

/-! ### When the records complete the session (R177) -/

/-- How many children the members of LSTK wait for. -/
def waiting (stk : List (Nat × Bool)) : Nat := (stk.map fun e => if e.2 then 1 else 2).sum

/-- How many places are open: the children LSTK waits for, and the root as long as there is no record. -/
def State.openPlaces (s : State) : Nat := waiting s.lstk + if s.nn = 0 then 1 else 0

theorem waiting_eq_zero_iff {stk : List (Nat × Bool)} : waiting stk = 0 ↔ stk = [] := by
  match stk with
  | [] => simp [waiting]
  | (b, k) :: rest => cases k <;> simp [waiting]

/-- The branch that gets a child waits for one less. -/
theorem waiting_advance {stk : List (Nat × Bool)} (h : stk ≠ []) : waiting (advance stk) + 1 = waiting stk := by
  match stk, h with
  | (b, k) :: rest, _ => cases k <;> simp [waiting, advance] <;> omega

theorem waiting_stackAfter (x : Option Nat) (i : Nat) (stk : List (Nat × Bool)) :
    waiting (stackAfter x i stk) = waiting stk + newPlaces x := by
  cases x <;> simp [waiting, stackAfter, newPlaces, Nat.add_comm]

/-- The session is complete when no place is open. -/
theorem Loading.openPlaces_eq_zero_iff {s : State} (h : Loading s) : s.openPlaces = 0 ↔ s.ldone = true := by
  obtain ⟨-, -, hcomplete, -⟩ := h.records
  rw [hcomplete, State.openPlaces, Nat.add_eq_zero_iff, waiting_eq_zero_iff, and_comm]
  split <;> simp <;> omega

/-- A record fills one place and opens its own. -/
theorem Loading.openPlaces_recordTaken {s : State} (h : Loading s) (hopen : s.ldone = false) (x : Option Nat) :
    ∃ k, s.openPlaces = k + 1 ∧ (recordTaken x s).openPlaces = k + newPlaces x := by
  refine ⟨waiting (advance s.lstk), ?_, ?_⟩
  · by_cases hstk : s.lstk = []
    · obtain ⟨-, -, hcomplete, -⟩ := h.records
      have hnn : s.nn = 0 := by
        by_contra hnn
        exact absurd (hopen.symm.trans (hcomplete.mpr ⟨Nat.pos_of_ne_zero hnn, hstk⟩)) nofun
      simp [State.openPlaces, hstk, hnn, waiting, advance]
    · obtain ⟨e, he⟩ := List.exists_mem_of_ne_nil _ hstk
      have hnn : s.nn ≠ 0 := Nat.ne_zero_of_lt (h.stack.2.1 e he)
      simp [State.openPlaces, hnn, waiting_advance hstk]
  · simp [State.openPlaces, recordTaken, waiting_stackAfter]

/-- The records of a list are accepted and complete the session exactly when they fill the open places, carry distinct
new symbols and fit NODE (R177). -/
theorem Loading.takeRecords_complete_iff {s : State} (h : Loading s) {rs : List (Option Nat)}
    (hrs : ∀ x, some x ∈ rs → x < s.params.nsym) :
    (∃ t, takeRecords rs s = some t ∧ t.ldone = true) ↔
      Fills rs s.openPlaces ∧ (leafSyms s.node ++ rs.reduceOption).Nodup ∧ s.nn + rs.length ≤ s.params.nodeCap := by
  induction rs generalizing s with
  | nil =>
    obtain ⟨-, -, -, -, hdistinct, -⟩ := h.records
    have hcap := h.nodes.2.1
    simp [takeRecords, Fills, ← h.openPlaces_eq_zero_iff, hdistinct, hcap]
  | cons x rs ih =>
    obtain ⟨hx, hrs⟩ := forall_some_mem_cons.mp hrs
    have hsyms : (x :: rs).reduceOption = x.toList ++ rs.reduceOption := by cases x <;> rfl
    cases hm : recordMalformed x s with
    | false =>
      obtain ⟨hopen, -⟩ := (h.recordMalformed_eq_false_iff hx).mp hm
      obtain ⟨k, hk, hk'⟩ := h.openPlaces_recordTaken hopen x
      rw [takeRecords_of_accepted hm, ih (h.after_record hx hm) hrs, hsyms, ← List.append_assoc, done_node,
        recordTaken_leafSyms, hk, List.length_cons, Nat.add_comm rs.length, ← Nat.add_assoc]
      show Fills rs (recordTaken x s).openPlaces ∧ _ ↔ _
      rw [hk']
      rfl
    | true =>
      rw [takeRecords_of_malformed hm]
      refine ⟨nofun, fun ⟨hfills, hdistinct, hcap⟩ => ?_⟩
      refine absurd ((h.recordMalformed_eq_false_iff hx).mpr ⟨?_, fun y hy hold => ?_, ?_⟩) (by simp [hm])
      · rw [← Bool.not_eq_true, ← h.openPlaces_eq_zero_iff]
        intro h0
        rw [h0] at hfills
        exact hfills
      · refine (List.nodup_append.mp hdistinct).2.2 y hold y ?_ rfl
        simp [Option.mem_def.mp hy]
      · rw [List.length_cons] at hcap
        omega

/-! ### The tree of the records (R170, R173) -/

/-- The records of u, taken from s on: they fill the place on top of LSTK with a node at NN, which holds u. -/
structure SubtreeTaken (u : SymTree) (s t : State) : Prop where
  keys : t.node.map Prod.fst = List.range t.nn
  nn : t.nn = s.nn + u.size
  lstk : t.lstk = advance s.lstk
  old : ∀ j < s.nn, Mem.read t.node j = (Mem.read s.node j).map fun n => linked s.lstk s.nn (j, n)
  tree : ∀ m : Mem Node, (∀ j, s.nn ≤ j → j < t.nn → Mem.read m j = Mem.read t.node j) →
    treeAt u.height m s.nn = some u.shape

theorem recordTaken_keys {s : State} (hkeys : s.node.map Prod.fst = List.range s.nn) (x : Option Nat) :
    (recordTaken x s).node.map Prod.fst = List.range (recordTaken x s).nn := by
  simp [recordTaken, hkeys, List.range_succ]

/-- The old entries but the one on top of the stack stay as they are. -/
theorem SubtreeTaken.old_of_ne_top {u : SymTree} {s t : State} (h : SubtreeTaken u s t) {b : Nat} {k : Bool}
    {rest : List (Nat × Bool)} (hstk : s.lstk = (b, k) :: rest) {j : Nat} (hj : j < s.nn) (hjb : j ≠ b) :
    Mem.read t.node j = Mem.read s.node j := by
  rw [h.old j hj, hstk]
  simp [linked_of_ne_top, hjb]

theorem SubtreeTaken.top {u : SymTree} {s t : State} (h : SubtreeTaken u s t) {b : Nat} {k : Bool}
    {rest : List (Nat × Bool)} (hstk : s.lstk = (b, k) :: rest) (hb : b < s.nn) {n : Node}
    (hn : Mem.read s.node b = some n) : Mem.read t.node b = some (n.setChild k s.nn) := by
  rw [h.old b hb, hstk, hn, Option.map_some, linked_top]

theorem subtreeTaken_leaf {s : State} (hkeys : s.node.map Prod.fst = List.range s.nn) (f x : Nat) :
    SubtreeTaken (.leaf f x) s (done (recordTaken (some x) s)) where
  keys := recordTaken_keys hkeys _
  nn := rfl
  lstk := rfl
  old j hj := (read_recordTaken hkeys (some x) j).trans (if_neg (Nat.ne_of_lt hj))
  tree m hm := by
    have hnew := hm s.nn (Nat.le_refl _) (Nat.lt_succ_self _)
    rw [done_node, read_recordTaken hkeys, if_pos rfl] at hnew
    exact treeAt_succ_some.mpr (.inl ⟨_, x, hnew, rfl, rfl⟩)

/-- A branch record, the records of the left child and those of the right child. -/
theorem SubtreeTaken.branch {s v t : State} {l r : SymTree} (hkeys : s.node.map Prod.fst = List.range s.nn)
    (hl : SubtreeTaken l (done (recordTaken none s)) v) (hr : SubtreeTaken r v t) (f : Nat) :
    SubtreeTaken (.branch f l r) s t := by
  have hvnn : v.nn = s.nn + 1 + l.size := hl.nn
  have htnn : t.nn = v.nn + r.size := hr.nn
  have hvstk : v.lstk = (s.nn, true) :: advance s.lstk := hl.lstk
  have hread := read_recordTaken hkeys none
  refine ⟨hr.keys, ?_, ?_, fun j hj => ?_, fun m hm => ?_⟩
  · rw [htnn, hvnn, SymTree.size]
    omega
  · rw [hr.lstk, hvstk]
    rfl
  · rw [hr.old_of_ne_top hvstk (by omega) (Nat.ne_of_lt hj),
      hl.old_of_ne_top rfl (Nat.lt_succ_of_lt hj) (Nat.ne_of_lt hj), done_node, hread, if_neg (Nat.ne_of_lt hj)]
  · have hnew : Mem.read (done (recordTaken none s)).node s.nn = some (newNode none) := (hread s.nn).trans (if_pos rfl)
    have hroot := hr.top hvstk (by omega) (hl.top rfl (Nat.lt_succ_self _) hnew)
    have hleft := hl.tree m fun j (hge : s.nn + 1 ≤ j) hlt => by
      rw [hm j (by omega) (by omega), hr.old_of_ne_top hvstk hlt (by omega)]
    have hright := hr.tree m fun j hge hlt => hm j (by omega) hlt
    rw [SymTree.height, Nat.add_comm]
    exact treeAt_succ_some.mpr (.inr ⟨_, s.nn + 1, v.nn, l.shape, r.shape,
      (hm s.nn (Nat.le_refl _) (by omega)).trans hroot, rfl, rfl, rfl,
      treeAt_mono (Nat.le_max_left _ _) hleft, treeAt_mono (Nat.le_max_right _ _) hright, rfl⟩)

/-- The records of a tree, when they are accepted, leave that tree with all frequencies 0. -/
theorem subtreeTaken_of_takeRecords {u : SymTree} {s t : State} (hkeys : s.node.map Prod.fst = List.range s.nn)
    (h : takeRecords u.recordList s = some t) : SubtreeTaken u s t := by
  induction u generalizing s t with
  | leaf f x =>
    obtain ⟨-, ht⟩ := takeRecords_cons_eq_some.mp h
    obtain rfl := Option.some.inj ht
    exact subtreeTaken_leaf hkeys f x
  | branch f l r ihl ihr =>
    obtain ⟨-, h⟩ := takeRecords_cons_eq_some.mp h
    rw [takeRecords_append] at h
    obtain ⟨v, hv, ht⟩ := Option.bind_eq_some_iff.mp h
    have hl := ihl (s := done (recordTaken none s)) (recordTaken_keys hkeys none) hv
    exact hl.branch hkeys (ihr hl.keys ht) f

end Sys2Proof.Machine
end

section
/-!
PROOFS. A whole load, LBEG to LEND (45_persistence.md R172 to R177), accepts exactly the key records of trees with
distinct symbols, and the words of SER load back to a tree of the same shape (R178).
-/

namespace Sys2Proof.Machine

/-! ### A whole load (R177) -/

theorem loadBegun_openPlaces (s : State) : s.loadBegun.openPlaces = 1 := rfl

/-- A load answers OK to LBEG and to its records, and ends as LEND does after them. -/
theorem runAll_loadCommands {s : State} (hp : s.params.Ok) {rs : List (Option Nat)}
    (hrs : ∀ x, some x ∈ rs → x < s.params.nsym) :
    ∃ v, runAll (loadCommands rs) s = exec .lend v ∧ RecordsAnswered rs.length s.loadBegun v ∧
      ((takeRecords rs s.loadBegun = some v ∧ Loading v) ∨ (takeRecords rs s.loadBegun = none ∧ v.lst = .bad)) := by
  obtain ⟨v, hv, hanswers, hout⟩ := (loading_loadBegun hp).runAll_records hrs
  refine ⟨v, ?_, hanswers, hout⟩
  calc runAll (loadCommands rs) s
    _ = runAll (rs.map recordInstr ++ [Instr.lend]) s.loadBegun := runAll_cons_of_next (exec_lbeg s)
    _ = runAll [Instr.lend] v := runAll_append_of_next hv
    _ = exec .lend v := runAll_singleton _ _

/-- The key record of a tree with distinct symbols of the alphabet fits NODE (10_state.md R24). -/
theorem SymTree.recordList_length_le {p : Params} {u : SymTree} (hd : u.syms.Nodup) (hlt : ∀ x ∈ u.syms, x < p.nsym) :
    u.recordList.length ≤ p.nodeCap := by
  have hsize := u.size_add_one
  have hcap := p.nodeCap_eq
  have hlen := length_le_of_nodup hd hlt
  rw [u.recordList_length]
  omega

/-- The records of a load are accepted and complete it exactly when they are those of a tree with distinct symbols. -/
theorem takeRecords_loadBegun_iff {s : State} (hp : s.params.Ok) {rs : List (Option Nat)}
    (hrs : ∀ x, some x ∈ rs → x < s.params.nsym) :
    (∃ t, takeRecords rs s.loadBegun = some t ∧ t.ldone = true) ↔
      ∃ u : SymTree, u.recordList = rs ∧ u.syms.Nodup := by
  rw [(loading_loadBegun hp).takeRecords_complete_iff hrs, loadBegun_openPlaces, fills_one_iff]
  show (∃ u : SymTree, u.recordList = rs) ∧ rs.reduceOption.Nodup ∧ 0 + rs.length ≤ s.params.nodeCap ↔ _
  constructor
  · rintro ⟨⟨u, rfl⟩, hd, -⟩
    exact ⟨u, rfl, u.reduceOption_recordList ▸ hd⟩
  · rintro ⟨u, rfl, hd⟩
    have hlt : ∀ x ∈ u.syms, x < s.params.nsym := fun x hx => hrs x (SymTree.some_mem_recordList_iff.mpr hx)
    rw [u.reduceOption_recordList, Nat.zero_add]
    exact ⟨⟨u, rfl⟩, hd, SymTree.recordList_length_le hd hlt⟩

/-- A load of the records of a tree with distinct symbols answers OK throughout and leaves that tree, with all
frequencies 0. -/
theorem runAll_loadCommands_of_tree {s : State} (hp : s.params.Ok) {u : SymTree} (hd : u.syms.Nodup)
    (hlt : ∀ x ∈ u.syms, x < s.params.nsym) :
    ∃ t, runAll (loadCommands u.recordList) s = .next t ∧ t.tv = true ∧ t.tree? = some u.shape ∧
      t.rsp = s.rsp ++ List.replicate (u.recordList.length + 2) (statusWord .ok) := by
  have hrs : ∀ x, some x ∈ u.recordList → x < s.params.nsym := fun x hx => hlt x (SymTree.some_mem_recordList_iff.mp hx)
  obtain ⟨v, hrun, hanswers, hout⟩ := runAll_loadCommands hp hrs
  obtain ⟨v', hv', hdone⟩ := (takeRecords_loadBegun_iff hp hrs).mpr ⟨u, rfl, hd⟩
  obtain ⟨hv, hload⟩ := hout.resolve_right fun ⟨hnone, _⟩ => absurd (hv'.symm.trans hnone) nofun
  obtain rfl : v' = v := Option.some.inj (hv'.symm.trans hv)
  have hparams : v'.params = s.params := by rw [hanswers]; rfl
  have hheight : u.height ≤ v'.params.maxPath + 1 := by
    rw [hparams, Params.maxPath_eq hp]
    exact u.height_le.trans (length_le_of_nodup hd hlt)
  have htree : treeAt (v'.params.maxPath + 1) v'.node 0 = some u.shape :=
    treeAt_mono hheight ((subtreeTaken_of_takeRecords rfl hv).tree v'.node fun _ _ _ => rfl)
  have hcodes : generateCodes v'.params v'.node 0 = .ok (recordAll [] u.shape.codeTable) :=
    generateCodes_ok_iff.mpr ⟨_, htree, by rwa [u.shape_syms, hparams], rfl⟩
  refine ⟨_, hrun.trans ((exec_lend_next_iff hload.active hdone).mpr ⟨_, hcodes, rfl⟩), rfl, htree, ?_⟩
  rw [done_rsp]
  show v'.rsp ++ _ = _
  rw [hanswers, List.replicate_succ, List.replicate_succ']
  simp [State.loadBegun, statusWord]

/-- Any other load answers OK to LBEG and to its records and MalformedTreeError to LEND, and leaves no tree. -/
theorem runAll_loadCommands_of_malformed {s : State} (hp : s.params.Ok) {rs : List (Option Nat)}
    (hrs : ∀ x, some x ∈ rs → x < s.params.nsym) (hbad : ¬ ∃ u : SymTree, u.recordList = rs ∧ u.syms.Nodup) :
    runAll (loadCommands rs) s = .next { closeLoad (closeDecode (clearTree s)) with
      rsp := s.rsp ++ List.replicate (rs.length + 1) (statusWord .ok) ++ [statusWord .malformedTreeError] } := by
  obtain ⟨v, hrun, hanswers, hout⟩ := runAll_loadCommands hp hrs
  have hopen : v.lst ≠ .idle ∧ ¬ (v.lst = .active ∧ v.ldone = true) := by
    rcases hout with ⟨hv, hload⟩ | ⟨-, hl⟩
    · exact ⟨by simp [hload.active], fun ⟨_, hdone⟩ => hbad ((takeRecords_loadBegun_iff hp hrs).mp ⟨v, hv, hdone⟩)⟩
    · simp [hl]
  rw [hrun, exec_lend_of_malformed hopen.1 hopen.2, hanswers]
  simp [raise, emit, closeLoad, State.loadBegun, closeDecode, clearTree, done_eq, List.replicate_succ, statusWord]

/-- Settles O42: taking the records one after the other completes the session exactly on the key records of trees with
distinct symbols (R177), and these leave their tree. -/
theorem loadAcceptsExactlyTheKeyRecords : Obligations.LoadAcceptsExactlyTheKeyRecords := by
  unfold Obligations.LoadAcceptsExactlyTheKeyRecords
  intro s rs hp hrs
  simp only [SymTree.records_eq_map_iff]
  by_cases hgood : ∃ u : SymTree, u.recordList = rs ∧ u.syms.Nodup
  · obtain ⟨u, rfl, hd⟩ := id hgood
    have hlt : ∀ x ∈ u.syms, x < s.params.nsym := fun x hx => hrs x (SymTree.some_mem_recordList_iff.mpr hx)
    obtain ⟨t, hrun, htv, htree, hrsp⟩ := runAll_loadCommands_of_tree hp hd hlt
    exact ⟨t, hrun, fun _ => ⟨htv, hrsp, u.shape, htree, u.shape_recordList, u.shape_shape⟩, fun h => absurd hgood h⟩
  · exact ⟨_, runAll_loadCommands_of_malformed hp hrs hgood, fun h => absurd h hgood, fun _ => rfl⟩

/-! ### The round trip (R178) -/

/-- With a tree, the data words of SER's answer are its key record. -/
theorem execSer_data_words {s a : State} {u : SymTree} {ws : List Word} (htv : s.tv = true) (hu : s.tree? = some u)
    (h : exec .ser s = .next a) (hrsp : a.rsp = s.rsp ++ ws ++ [statusWord .ok]) : ws = words u.records := by
  rw [exec_ser_of_tree htv hu] at h
  cases h
  simpa using hrsp.symm

/-- The load of a key record sends the key record's own words between LBEG and LEND (30_encoding.md R87). -/
theorem map_encode_loadCommands (u : SymTree) :
    (loadCommands u.recordList).map encode = encode .lbeg :: (words u.records ++ [encode .lend]) := by
  have hword : ∀ x, encode (recordInstr x) = (recordRsp x).word := by rintro (- | x) <;> rfl
  simp [loadCommands, words, ← u.map_recordRsp_recordList, hword]

theorem loadCommands_wf {p : Params} {u : SymTree} (hlt : ∀ x ∈ u.syms, x < p.nsym) :
    ∀ i ∈ loadCommands u.recordList, i.wf p = true := by
  intro i hi
  rcases List.mem_cons.mp hi with rfl | hi
  · rfl
  rcases List.mem_append.mp hi with hi | hi
  · obtain ⟨- | x, hx, rfl⟩ := List.mem_map.mp hi
    · rfl
    · exact decide_eq_true (hlt x (SymTree.some_mem_recordList_iff.mp hx))
  · rw [List.mem_singleton.mp hi]
    rfl

theorem runAll_cons_next_iff {i : Instr} {is : List Instr} {s t : State} :
    runAll (i :: is) s = .next t ↔ ∃ v, exec i s = .next v ∧ runAll is v = .next t := by
  rw [runAll]
  cases exec i s <;> simp

/-- A list of commands keeps the invariant and the parameters, as each command does. -/
theorem runAll_keeps_inv {is : List Instr} {s t : State} (h : Inv s) (ht : runAll is s = .next t) :
    Inv t ∧ t.params = s.params := by
  induction is generalizing s with
  | nil =>
    cases ht
    exact ⟨h, rfl⟩
  | cons i is ih =>
    obtain ⟨v, hv, ht⟩ := runAll_cons_next_iff.mp ht
    obtain ⟨hinv, hparams⟩ := ih (exec_keeps_inv h hv) ht
    exact ⟨hinv, hparams.trans (exec_params hv)⟩

/-- Settles O43: the data words of SER are the load of the tree's key record, which leaves a tree of the same shape, and
what the block answers depends on that shape only (00_scope.md R12). -/
theorem persistenceRoundTrip : Obligations.PersistenceRoundTrip := by
  unfold Obligations.PersistenceRoundTrip
  intro s a ws h htv hser hrsp
  obtain ⟨u, hu, -⟩ := h.exists_tree htv
  obtain rfl := execSer_data_words htv hu hser hrsp
  obtain ⟨-, -, -, -, -, -, hdistinct, -⟩ := h.treeInv htv
  have hd : u.syms.Nodup := (h.tree_syms_perm htv hu).nodup_iff.mpr hdistinct
  have hlt := h.tree_syms_lt htv hu
  obtain ⟨t, hrun, httv, htree, htrsp⟩ := runAll_loadCommands_of_tree h.params_ok hd hlt
  obtain ⟨htinv, hparams⟩ := runAll_keeps_inv h hrun
  have hshape : t.tree?.map SymTree.shape = s.tree?.map SymTree.shape := by simp [htree, hu, u.shape_shape]
  obtain ⟨hcode, hdecode, vs, hsers, hsert⟩ := answersDependOnTheTreeShapeOnly s t h htinv htv httv hparams.symm
    hshape.symm
  obtain rfl := execSer_data_words htv hu hsers rfl
  refine ⟨t, ?_, ?_, httv, hshape, hcode.symm,
    fun x q hq => ?_, hsert⟩
  · rw [← map_encode_loadCommands, runWords_encode h.params_ok (loadCommands_wf hlt), hrun]
  · rw [htrsp, u.recordList_length, words, List.length_map, u.records_length]
  · rw [← hdecode]
    exact ((pathsThatDecodeAreTheCodes s q h htv).1 x).mpr hq

end Sys2Proof.Machine
end

section
/-!
PROOFS. The statements of 60_exceptions.md: with no command the block keeps its state (R215), BadState exactly in the
tabled cases (R202), which command raises which error (R201), what a failing command has written (R204), and that every
word is answered (R205, R208).
-/

namespace Sys2Proof.Machine

/-! ### No command word (60_exceptions.md R215) -/

/-- Settles O9: a step without a word to take keeps the state. -/
theorem stepWithoutCommandKeepsState : Obligations.StepWithoutCommandKeepsState := by
  unfold Obligations.StepWithoutCommandKeepsState
  exact fun s hp hc => step_next_iff.mpr ⟨hp, .inl ⟨hc, rfl⟩⟩

/-! ### The status of an answer (30_encoding.md R85, R86) -/

/-- The status that has a given code (R85); a code of no status reads as the last one. -/
def Status.ofCode : Nat → Status
  | 0x00 => .ok
  | 0x01 => .emptyInputError
  | 0x02 => .unknownSymbolError
  | 0x03 => .deadEndError
  | 0x04 => .incompletePathError
  | 0x05 => .malformedTreeError
  | 0x10 => .illegalCommand
  | 0x11 => .badState
  | _ => .capacityExceeded

/-- The payload of a STATUS word gives its status back. -/
theorem Status.ofCode_statusWord (c : Status) : Status.ofCode (argField (statusWord c)) = c := by
  cases c <;> rfl

theorem statusWord_injective : Function.Injective statusWord :=
  Function.LeftInverse.injective (g := fun w => Status.ofCode (argField w)) Status.ofCode_statusWord

/-- The words appended to the response stream determine the data words and the status of the answer. -/
theorem answer_inj {rsp ws vs : List Word} {c d : Status}
    (h : rsp ++ ws ++ [statusWord c] = rsp ++ vs ++ [statusWord d]) : ws = vs ∧ c = d := by
  obtain ⟨hdata, hstatus⟩ := List.append_inj' h rfl
  exact ⟨List.append_cancel_left hdata, statusWord_injective (List.cons.inj hstatus).1⟩

/-! ### How a command fails (60_exceptions.md R201, R202, R204) -/

/-- What a command that ends in error c has made of the state s, its answer left out (R204). -/
def State.failed (c : Status) (s : State) : State :=
  match c with
  | .deadEndError | .incompletePathError => closeDecode s
  | .malformedTreeError => { closeLoad s with nn := 0, node := [] }
  | .ok | .emptyInputError | .unknownSymbolError | .illegalCommand | .badState | .capacityExceeded => s

@[simp] theorem failed_rsp (c : Status) (s : State) : (s.failed c).rsp = s.rsp := by
  cases c <;> rfl

/-- The errors a command may end in (R201, R202; 40_frequency.md R103). -/
inductive RaisedBy (s : State) : Instr → Status → Prop where
  | badState {i : Instr} (h : BadStateWhen s i) : RaisedBy s i .badState
  | capacityExceeded (x : Nat) : RaisedBy s (.fsym x) .capacityExceeded
  | emptyInputError : RaisedBy s .build .emptyInputError
  | unknownSymbolError (x : Nat) : RaisedBy s (.enc x) .unknownSymbolError
  | deadEndError : RaisedBy s .dend .deadEndError
  | incompletePathError : RaisedBy s .dend .incompletePathError
  | malformedTreeError : RaisedBy s .lend .malformedTreeError

/-- Command i, run in s, has ended in t: with OK behind its data words, or with one of its errors and what R204 tables
for it. -/
def EndsAsTabled (i : Instr) (s t : State) : Prop :=
  (∃ ws, t.rsp = s.rsp ++ ws ++ [statusWord .ok]) ∨ ∃ c, RaisedBy s i c ∧ t = raise c (s.failed c)

/-- An answer of STATUS(OK) alone. -/
theorem EndsAsTabled.ok {i : Instr} {s t : State} (h : t.rsp = s.rsp ++ [statusWord .ok]) : EndsAsTabled i s t :=
  .inl ⟨[], by simpa using h⟩

theorem EndsAsTabled.error {i : Instr} {s : State} {c : Status} (h : RaisedBy s i c) :
    EndsAsTabled i s (raise c (s.failed c)) :=
  .inr ⟨c, h, rfl⟩

/-- A record is refused without a load session and answered with OK in one (45_persistence.md R173). -/
theorem loadNode_refused_or_ok {x : Option Nat} {s t : State} (h : loadNode x s = .next t) :
    (s.lst = .idle ∧ t = raise .badState s) ∨ t.rsp = s.rsp ++ [statusWord .ok] := by
  rcases loadNode_next_iff.mp h with hidle | ⟨-, rfl⟩ | ⟨-, -, rfl⟩ | ⟨-, -, u, hu, rfl⟩
  · exact .inl hidle
  · exact .inr rfl
  · exact .inr rfl
  · obtain ⟨m, stk, -, -, rfl⟩ := takeRecord_ok_iff.mp hu
    exact .inr rfl

/-- A failing command answers nothing but its status. -/
theorem failed_answer {s : State} {ws : List Word} {c d : Status}
    (h : (raise d (s.failed d)).rsp = s.rsp ++ ws ++ [statusWord c]) : ws = [] ∧ c = d :=
  answer_inj (rsp := s.rsp) (h.symm.trans (by simp [statusWord]))

/-- Every command ends as tabled, also from a state that breaks the invariant, where R86 is not claimed. -/
theorem exec_endsAsTabled {i : Instr} {s t : State} (h : exec i s = .next t) : EndsAsTabled i s t := by
  cases i with
  | fclr =>
    obtain rfl := execFclr_next_iff.mp h
    exact .ok rfl
  | fsym x =>
    obtain ⟨-, ⟨-, rfl⟩ | ⟨-, -, -, rfl⟩⟩ := execFsym_next_iff.mp h
    · exact .error (.capacityExceeded x)
    · exact .ok rfl
  | build =>
    rcases execBuild_next_iff.mp h with ⟨hl, rfl⟩ | ⟨-, -, rfl⟩ | ⟨-, -, u, hu, rfl⟩
    · exact .error (.badState hl)
    · exact .error .emptyInputError
    · obtain ⟨m, r, code, -, -, rfl⟩ := buildSteps_ok_iff.mp hu
      exact .ok rfl
  | enc x =>
    obtain ⟨-, ⟨htv, rfl⟩ | ⟨-, -, rfl⟩ | ⟨-, q, -, rfl⟩⟩ := execEnc_next_iff.mp h
    · exact .error (.badState htv)
    · exact .error (.unknownSymbolError x)
    · exact .inl ⟨_, rfl⟩
  | dbeg =>
    rcases execDbeg_next_iff.mp h with ⟨htv, rfl⟩ | ⟨-, n, -, rfl⟩
    · exact .error (.badState htv)
    · exact .ok rfl
  | dbit b =>
    rcases execDbit_next_iff.mp h with ⟨hd, rfl⟩ | ⟨-, u, hu, rfl⟩
    · exact .error (.badState hd)
    · rw [stepCursor_writes hu]
      exact .ok rfl
  | dend =>
    rcases execDend_next_iff.mp h with ⟨hd, rfl⟩ | ⟨-, rfl⟩ | ⟨-, rfl⟩ | ⟨-, n, -, ⟨-, rfl⟩ | ⟨x, -, rfl⟩⟩
    · exact .error (.badState hd)
    · exact .error .deadEndError
    · exact .error .incompletePathError
    · exact .error .incompletePathError
    · exact .inl ⟨_, rfl⟩
  | ser =>
    rcases execSer_next_iff.mp h with ⟨htv, rfl⟩ | ⟨-, u, -, rfl⟩
    · exact .error (.badState htv)
    · exact .inl ⟨_, rfl⟩
  | lbeg =>
    obtain rfl := execLbeg_next_iff.mp h
    exact .ok rfl
  | lleaf x =>
    rcases loadNode_refused_or_ok (execLleaf_next_iff.mp h).2 with ⟨hl, rfl⟩ | hok
    · exact .error (.badState hl)
    · exact .ok hok
  | lbr =>
    rcases loadNode_refused_or_ok h with ⟨hl, rfl⟩ | hok
    · exact .error (.badState hl)
    · exact .ok hok
  | lend =>
    rcases execLend_next_iff.mp h with ⟨hl, rfl⟩ | ⟨-, -, rfl⟩ | ⟨-, -, u, hu, rfl⟩
    · exact .error (.badState hl)
    · exact .error .malformedTreeError
    · obtain ⟨code, -, rfl⟩ := finishLoad_ok_iff.mp hu
      exact .ok rfl
  | drop =>
    obtain rfl := execDrop_next_iff.mp h
    exact .ok rfl

/-- An answer that ends in an error is that status alone, and the command is one that raises it. -/
theorem exec_failed {i : Instr} {s t : State} {ws : List Word} {c : Status} (h : exec i s = .next t)
    (hrsp : t.rsp = s.rsp ++ ws ++ [statusWord c]) (hc : c ≠ .ok) :
    RaisedBy s i c ∧ ws = [] ∧ t = raise c (s.failed c) := by
  rcases exec_endsAsTabled h with ⟨vs, hok⟩ | ⟨d, hraised, rfl⟩
  · exact absurd (answer_inj (hrsp.symm.trans hok)).2 hc
  · obtain ⟨rfl, rfl⟩ := failed_answer hrsp
    exact ⟨hraised, rfl, rfl⟩

/-- The same of a word; one that does not decode fails with IllegalCommand (30_encoding.md R75). -/
theorem runWord_failed {w : Word} {s t : State} {ws : List Word} {c : Status} (h : runWord w s = .next t)
    (hrsp : t.rsp = s.rsp ++ ws ++ [statusWord c]) (hc : c ≠ .ok) : ws = [] ∧ t = raise c (s.failed c) := by
  rcases runWord_next_iff.mp h with ⟨i, -, hi⟩ | ⟨e, -, rfl⟩
  · exact (exec_failed hi hrsp hc).2
  · obtain ⟨rfl, rfl⟩ := failed_answer (d := .illegalCommand) hrsp
    exact ⟨rfl, rfl⟩

/-! ### BadState (R202) -/

/-- The state is asked for before anything else a well-formed command does (R203). -/
theorem exec_of_badStateWhen {i : Instr} {s : State} (hwf : i.wf s.params = true) (h : BadStateWhen s i) :
    exec i s = .next (raise .badState s) := by
  cases i with
  | build => exact execBuild_next_iff.mpr (.inl ⟨h, rfl⟩)
  | enc x => exact exec_enc_of_no_tree (of_decide_eq_true hwf) h
  | dbeg => exact execDbeg_next_iff.mpr (.inl ⟨h, rfl⟩)
  | dbit b => exact exec_dbit_of_idle h b
  | dend => exact execDend_next_iff.mpr (.inl ⟨h, rfl⟩)
  | ser => exact execSer_next_iff.mpr (.inl ⟨h, rfl⟩)
  | lleaf x => exact execLleaf_next_iff.mpr ⟨of_decide_eq_true hwf, loadNode_next_iff.mpr (.inl ⟨h, rfl⟩)⟩
  | lbr => exact loadNode_next_iff.mpr (.inl ⟨h, rfl⟩)
  | lend => exact exec_lend_of_idle h
  | fclr | fsym | drop | lbeg => exact h.elim

/-- Settles O44: the tabled state is the first thing a command asks for, and BadState has no other cause. -/
theorem badStateExactlyWhenTabled : Obligations.BadStateExactlyWhenTabled := by
  unfold Obligations.BadStateExactlyWhenTabled
  refine fun i s hwf => ⟨exec_of_badStateWhen hwf, fun h => ?_⟩
  obtain ⟨hraised, -⟩ := exec_failed (ws := []) (c := .badState) h (by simp) nofun
  cases hraised with
  | badState hwhen => exact hwhen

/-! ### The errors of the commands (R201, R204) -/

/-- Settles O46: RaisedBy names one command for each of the five errors. -/
theorem documentErrorsBelongToOneCommand : Obligations.DocumentErrorsBelongToOneCommand := by
  unfold Obligations.DocumentErrorsBelongToOneCommand
  intro i s t c h hrsp
  have hraised (hc : c ≠ .ok) : RaisedBy s i c := (exec_failed (ws := []) h (by simpa using hrsp) hc).1
  refine ⟨?_, ?_, ?_, ?_, ?_⟩ <;> rintro rfl <;> cases hraised nofun
  · rfl
  · exact ⟨_, rfl⟩
  · rfl
  · rfl
  · rfl

/-- Settles O47: a failing word leaves its status and what State.failed gives for it. -/
theorem failingCommandsWriteOnlyWhatIsTabled : Obligations.FailingCommandsWriteOnlyWhatIsTabled := by
  unfold Obligations.FailingCommandsWriteOnlyWhatIsTabled
  intro w s t ds c h hrsp
  have hfailed := runWord_failed h hrsp
  refine ⟨fun hc => (hfailed hc).1, ?_, ?_, ?_⟩
  · rintro (rfl | rfl | rfl | rfl | rfl) <;> exact (hfailed nofun).2 ▸ rfl
  · rintro (rfl | rfl) <;> exact (hfailed nofun).2 ▸ rfl
  · rintro rfl
    exact (hfailed nofun).2 ▸ rfl

/-! ### Every word is answered (R208) -/

/-- The entries below NN hold a value (10_state.md R23). -/
theorem Inv.exists_node {s : State} (h : Inv s) {i : Nat} (hi : i < s.nn) : ∃ n, Mem.read s.node i = some n := by
  obtain ⟨-, -, ⟨hkeys, -⟩, -⟩ := h
  exact Option.isSome_iff_exists.mp ((Mem.read_isSome_of_keys_range hkeys i).mpr hi)

theorem Inv.fsym_answers {s : State} (h : Inv s) {x : Nat} (hx : x < s.params.nsym) :
    ∃ t, exec (.fsym x) s = .next t := by
  obtain ⟨-, hf, -⟩ := h
  by_cases hfull : s.ftotal = s.params.freqMax
  · exact ⟨_, exec_fsym_of_full hx hfull⟩
  · exact ⟨_, exec_fsym_of_not_full hf hx hfull⟩

theorem Inv.build_answers {s : State} (h : Inv s) (hl : s.lst = .idle) : ∃ t, exec .build s = .next t := by
  obtain ⟨hp, hf, -⟩ := h
  by_cases h0 : s.ftotal = 0
  · exact ⟨_, (buildRefusesLoadSessionThenEmptyTable s).2 hl h0⟩
  · obtain ⟨t, ht, -⟩ := buildMakesATreeAndConsumesTheTable s hp hf hl h0
    exact ⟨t, ht⟩

theorem exec_enc_answers {s : State} {x : Nat} (hx : x < s.params.nsym) (htv : s.tv = true) :
    ∃ t, exec (.enc x) s = .next t := by
  cases hcode : Mem.read s.code x with
  | none => exact ⟨_, exec_enc_of_no_code hx htv hcode⟩
  | some q => exact ⟨_, exec_enc_of_code hx htv hcode⟩

/-- In an open decode session the cursor stands on an entry that holds a value. -/
theorem Inv.dbit_answers {s : State} (h : Inv s) (hd : s.dst ≠ .idle) (b : Bool) :
    ∃ t, exec (.dbit b) s = .next t := by
  obtain ⟨n, hn⟩ := h.exists_node (h.open_decode hd).2
  cases hdst : s.dst with
  | idle => exact absurd hdst hd
  | vroot => exact ⟨_, exec_dbit_of_vroot hdst b⟩
  | dead => exact ⟨_, exec_dbit_of_dead hdst b⟩
  | atNode =>
    cases hc : n.child b with
    | none => exact ⟨_, exec_dbit_of_no_child hdst hn hc⟩
    | some j => exact ⟨_, exec_dbit_of_child hdst hn hc⟩

theorem Inv.dend_answers {s : State} (h : Inv s) (hd : s.dst ≠ .idle) : ∃ t, exec .dend s = .next t := by
  obtain ⟨n, hn⟩ := h.exists_node (h.open_decode hd).2
  obtain ⟨-, hdend⟩ := dendGivesTheResult
  obtain ⟨-, hdead, hvroot, hbranch, hleaf⟩ := hdend s
  cases hdst : s.dst with
  | idle => exact absurd hdst hd
  | vroot => exact ⟨_, hvroot hdst⟩
  | dead => exact ⟨_, hdead hdst⟩
  | atNode =>
    cases hx : n.sym with
    | none => exact ⟨_, hbranch n hdst hn hx⟩
    | some x => exact ⟨_, hleaf n x hdst hn hx⟩

theorem Inv.record_answers {s : State} (h : Inv s) {x : Option Nat} (hx : ∀ y ∈ x, y < s.params.nsym) :
    ∃ t, exec (recordInstr x) s = .next t := by
  obtain ⟨-, -, hnode, -, hload, -⟩ := h
  cases hl : s.lst with
  | idle => exact ⟨_, exec_record_of_idle hx hl⟩
  | bad => exact ⟨_, exec_record_of_bad hx hl⟩
  | active =>
    cases hm : recordMalformed x s with
    | true => exact ⟨_, exec_record_of_malformed hx hl hm⟩
    | false => exact ⟨_, exec_record_accepted hx hl hnode hload hm⟩

theorem Inv.lend_answers {s : State} (h : Inv s) (hl : s.lst ≠ .idle) : ∃ t, exec .lend s = .next t := by
  by_cases hgood : s.lst = .active ∧ s.ldone = true
  · obtain ⟨hactive, hdone⟩ := hgood
    obtain ⟨code, hcode⟩ := h.exists_codes_of_ldone hactive hdone
    exact ⟨_, (exec_lend_next_iff hactive hdone).mpr ⟨code, hcode, rfl⟩⟩
  · exact ⟨_, exec_lend_of_malformed hl hgood⟩

/-- From every state of the invariant every well-formed command is answered: with BadState where that is tabled, and
elsewhere its pseudocode meets no state without meaning. -/
theorem Inv.exec_answers {i : Instr} {s : State} (h : Inv s) (hwf : i.wf s.params = true) :
    ∃ t, exec i s = .next t := by
  by_cases hbad : BadStateWhen s i
  · exact ⟨_, exec_of_badStateWhen hwf hbad⟩
  cases i with
  | fclr => exact ⟨_, exec_fclr s⟩
  | fsym x => exact h.fsym_answers (of_decide_eq_true hwf)
  | build => exact h.build_answers (not_not.mp hbad)
  | enc x => exact exec_enc_answers (of_decide_eq_true hwf) (Bool.eq_true_of_not_eq_false hbad)
  | dbeg =>
    have htv := Bool.eq_true_of_not_eq_false hbad
    obtain ⟨-, -, hroot, -⟩ := h.treeInv htv
    obtain ⟨n, hn⟩ := h.exists_node hroot
    exact ⟨_, execDbeg_next_iff.mpr (.inr ⟨htv, n, hn, rfl⟩)⟩
  | dbit b => exact h.dbit_answers hbad b
  | dend => exact h.dend_answers hbad
  | ser =>
    have htv := Bool.eq_true_of_not_eq_false hbad
    obtain ⟨u, hu, -⟩ := h.exists_tree htv
    exact ⟨_, exec_ser_of_tree htv hu⟩
  | lbeg => exact ⟨_, exec_lbeg s⟩
  | lleaf x => exact h.record_answers (x := some x) fun y hy => Option.some.inj hy ▸ of_decide_eq_true hwf
  | lbr => exact h.record_answers (x := none) nofun
  | lend => exact h.lend_answers hbad
  | drop => exact ⟨_, execDrop_next_iff.mpr rfl⟩

/-- A word that decodes is a well-formed command, and one that does not is answered with IllegalCommand. -/
theorem Inv.runWord_answers {s : State} (h : Inv s) (w : Word) : ∃ t, runWord w s = .next t := by
  cases hd : decode s.params w with
  | ok i =>
    rw [runWord_of_decode hd]
    exact h.exec_answers ((decode_ok_iff h.params_ok).mp hd).1
  | error e => exact ⟨_, runWord_of_decode_error hd⟩

/-- The answer to a word is data words and one STATUS word (30_encoding.md R86). -/
theorem Inv.runWord_answer {s t : State} (h : Inv s) {w : Word} (ht : runWord w s = .next t) :
    ∃ ds c, t.rsp = s.rsp ++ words ds ++ [statusWord c] := by
  rcases runWord_next_iff.mp ht with ⟨i, -, hi⟩ | ⟨e, -, rfl⟩
  · obtain ⟨ds, c, hrsp, -⟩ := exec_answersAsTabled h hi
    exact ⟨ds, c, hrsp⟩
  · exact ⟨[], .illegalCommand, by simp [words, statusWord]⟩

/-- Settles O57, command by command: the invariant gives every read of a command's pseudocode a value, and every word
keeps it (O56). -/
theorem everyWordIsAnswered : Obligations.EveryWordIsAnswered := by
  unfold Obligations.EveryWordIsAnswered
  intro s w h
  obtain ⟨t, ht⟩ := h.runWord_answers w
  exact ⟨t, ht, runWord_keeps_inv h ht, h.runWord_answer ht⟩

end Sys2Proof.Machine
end

section
/-!
PROOFS. The statements of 70_reset_and_hazards.md: the reset state (R230, R231), and the sessions, which only their tabled
commands end or move (R240).  With them the block whose parameters are out of range (93_implementation_defined.md U18).
-/

namespace Sys2Proof.Machine

/-! ### Parameters out of range (93_implementation_defined.md U18) -/

/-- Settles O10: the guard of the step comes before the command stream. -/
theorem stepRefusesParametersOutOfRange : Obligations.StepRefusesParametersOutOfRange := by
  unfold Obligations.StepRefusesParametersOutOfRange
  exact fun s hp => if_neg hp

/-! ### The reset state (R230, R231) -/

/-- Settles O52: each register holds its reset value by definition, and the four memories list nothing. -/
theorem resetValues : Obligations.ResetValues := by
  unfold Obligations.ResetValues
  exact fun p => ⟨rfl, rfl, rfl, rfl, rfl, rfl, rfl, rfl, readFreq_nil, Mem.read_nil, Mem.read_nil, rfl, Mem.read_nil, rfl,
    fun s hs => congrArg State.resetAt hs⟩

/-- After reset no node is allocated and no session holds anything. -/
theorem treeless_resetAt (p : Params) : Treeless (State.resetAt p) := ⟨rfl, rfl, rfl, rfl, rfl, rfl, rfl, rfl, rfl, rfl⟩

theorem inv_resetAt {p : Params} (hp : p.Ok) : Inv (State.resetAt p) :=
  (treeless_resetAt p).inv hp (freqInv_of_empty rfl rfl)

/-- Settles O53: the reset state is treeless, and its Frequency Table is empty. -/
theorem resetStateSatisfiesTheInvariant : Obligations.ResetStateSatisfiesTheInvariant := by
  unfold Obligations.ResetStateSatisfiesTheInvariant
  exact ⟨fun p hp => inv_resetAt hp, inv_resetAt (by decide)⟩

/-- Settles O54: DROP resets the tree and the sessions, FCLR the rest. -/
theorem dropThenFclrIsReset : Obligations.DropThenFclrIsReset := by
  unfold Obligations.DropThenFclrIsReset
  intro s
  have hdrop : exec .drop s = .next (done (closeLoad (closeDecode (clearTree s)))) := execDrop_next_iff.mpr rfl
  have hanswers : s.rsp ++ [statusWord .ok, statusWord .ok] = (s.rsp ++ [statusWord .ok]) ++ [statusWord .ok] := by simp
  rw [runAll_cons_of_next hdrop, runAll_singleton, exec_fclr, hanswers]
  rfl

/-! ### Open sessions (R240) -/

/-- BUILD is refused, or no load session is open and it ends the decode session and answers OK. -/
theorem execBuild_refused_or_ends_decode {s t : State} (h : execBuild s = .next t) :
    (∃ c, t = raise c s) ∨ (s.lst = .idle ∧ t.dst = .idle ∧ t.rsp = s.rsp ++ [statusWord .ok]) := by
  rcases execBuild_next_iff.mp h with ⟨-, rfl⟩ | ⟨-, -, rfl⟩ | ⟨hl, -, u, hu, rfl⟩
  · exact .inl ⟨_, rfl⟩
  · exact .inl ⟨_, rfl⟩
  · obtain ⟨m, r, code, -, -, rfl⟩ := buildSteps_ok_iff.mp hu
    exact .inr ⟨hl, rfl, rfl⟩

/-- DBEG ends no decode session: it restarts it, or is refused. -/
theorem execDbeg_stays_open {s t : State} (hd : s.dst ≠ .idle) (h : execDbeg s = .next t) : t.dst ≠ .idle := by
  rcases execDbeg_next_iff.mp h with ⟨-, rfl⟩ | ⟨-, n, -, rfl⟩
  · exact hd
  · rw [done_dst]
    split <;> nofun

/-- One bit ends no decode session. -/
theorem stepCursor_stays_open {b : Bool} {s t : State} (hd : s.dst ≠ .idle) (h : stepCursor b s = .ok t) :
    t.dst ≠ .idle := by
  rcases stepCursor_ok_iff.mp h with ⟨-, rfl⟩ | ⟨-, rfl⟩ | ⟨-, n, -, ⟨-, rfl⟩ | ⟨j, -, rfl⟩⟩
  · exact hd
  · cases b <;> nofun
  · nofun
  · exact hd

theorem execDbit_stays_open {b : Bool} {s t : State} (hd : s.dst ≠ .idle) (h : execDbit b s = .next t) :
    t.dst ≠ .idle := by
  rcases execDbit_next_iff.mp h with ⟨hidle, -⟩ | ⟨-, u, hu, rfl⟩
  · exact absurd hidle hd
  · rw [done_dst]
    exact stepCursor_stays_open hd hu

/-- DEND ends the decode session whatever its result (R154). -/
theorem execDend_ends_decode {s t : State} (h : execDend s = .next t) : t.dst = .idle := by
  rcases execDend_next_iff.mp h with ⟨hd, rfl⟩ | ⟨-, rfl⟩ | ⟨-, rfl⟩ | ⟨-, n, -, ⟨-, rfl⟩ | ⟨x, -, rfl⟩⟩
  · exact hd
  all_goals rfl

/-- A record ends no load session, though it may spoil it (R173). -/
theorem loadNode_stays_open {x : Option Nat} {s t : State} (hl : s.lst ≠ .idle) (h : loadNode x s = .next t) :
    t.lst ≠ .idle := by
  rcases loadNode_next_iff.mp h with ⟨hidle, -⟩ | ⟨-, rfl⟩ | ⟨-, -, rfl⟩ | ⟨-, -, u, hu, rfl⟩
  · exact absurd hidle hl
  · exact hl
  · nofun
  · obtain ⟨m, stk, -, -, rfl⟩ := takeRecord_ok_iff.mp hu
    exact hl

/-- LEND ends the load session whatever its result (R176). -/
theorem execLend_ends_load {s t : State} (h : execLend s = .next t) : t.lst = .idle := by
  rcases execLend_next_iff.mp h with ⟨hl, rfl⟩ | ⟨-, -, rfl⟩ | ⟨-, -, u, hu, rfl⟩
  · exact hl
  · rfl
  · obtain ⟨code, -, rfl⟩ := finishLoad_ok_iff.mp hu
    rfl

/-- What a command that answers does to an open decode session: it leaves it as it is, ends it, or moves it. -/
theorem decode_kept_ended_or_moved {i : Instr} {s t : State} (h : exec i s = .next t) (hd : s.dst ≠ .idle) :
    (t.dst = s.dst ∧ t.dcur = s.dcur) ∨
    (t.dst = .idle ∧ (i = .dend ∨ i = .drop ∨ i = .lbeg ∨ (i = .build ∧ t.rsp = s.rsp ++ [statusWord .ok]))) ∨
    (t.dst ≠ .idle ∧ (i = .dbeg ∨ ∃ b, i = .dbit b)) := by
  have hw := commandsWriteOnlyTheirColumns i s t h
  cases i with
  | fclr | fsym | enc | ser | lleaf | lbr | lend =>
    left
    unfold OnlyTabledStateWritten at hw
    rw [hw]
    exact ⟨rfl, rfl⟩
  | build =>
    rcases execBuild_refused_or_ends_decode h with ⟨c, rfl⟩ | ⟨-, hidle, hok⟩
    · exact .inl ⟨rfl, rfl⟩
    · exact .inr (.inl ⟨hidle, by simp [hok]⟩)
  | dend => exact .inr (.inl ⟨execDend_ends_decode h, by simp⟩)
  | drop => obtain rfl := execDrop_next_iff.mp h; exact .inr (.inl ⟨rfl, by simp⟩)
  | lbeg => obtain rfl := execLbeg_next_iff.mp h; exact .inr (.inl ⟨rfl, by simp⟩)
  | dbeg => exact .inr (.inr ⟨execDbeg_stays_open hd h, by simp⟩)
  | dbit b => exact .inr (.inr ⟨execDbit_stays_open hd h, by simp⟩)

/-- What a command that answers does to an open load session: it leaves it as it is, ends it, or goes on with it or
restarts it. -/
theorem load_kept_ended_or_moved {i : Instr} {s t : State} (h : exec i s = .next t) (hl : s.lst ≠ .idle) :
    (t.nn = s.nn ∧ t.node = s.node ∧ t.lst = s.lst) ∨
    (t.lst = .idle ∧ (i = .lend ∨ i = .drop)) ∨
    (t.lst ≠ .idle ∧ (i = .lbeg ∨ i = .lbr ∨ ∃ x, i = .lleaf x)) := by
  have hw := commandsWriteOnlyTheirColumns i s t h
  cases i with
  | fclr | fsym | enc | ser | dbeg | dbit | dend =>
    left
    unfold OnlyTabledStateWritten at hw
    rw [hw]
    exact ⟨rfl, rfl, rfl⟩
  | build =>
    rcases execBuild_refused_or_ends_decode h with ⟨c, rfl⟩ | ⟨hidle, -⟩
    · exact .inl ⟨rfl, rfl, rfl⟩
    · exact absurd hidle hl
  | lend => exact .inr (.inl ⟨execLend_ends_load h, by simp⟩)
  | drop => obtain rfl := execDrop_next_iff.mp h; exact .inr (.inl ⟨rfl, by simp⟩)
  | lbeg => obtain rfl := execLbeg_next_iff.mp h; exact .inr (.inr ⟨nofun, by simp⟩)
  | lleaf x => exact .inr (.inr ⟨loadNode_stays_open hl (execLleaf_next_iff.mp h).2, by simp⟩)
  | lbr => exact .inr (.inr ⟨loadNode_stays_open hl h, by simp⟩)

/-- Settles O51: an open session is kept, ended or moved, and each of the three has its own commands. -/
theorem openSessionsEndOnlyAsTabled : Obligations.OpenSessionsEndOnlyAsTabled := by
  unfold Obligations.OpenSessionsEndOnlyAsTabled
  intro i s t h
  refine ⟨fun hd hidle => ?_, fun hd hopen hmoved => ?_, fun hl hidle => ?_, fun hl hopen hmoved => ?_⟩
  · rcases decode_kept_ended_or_moved h hd with ⟨hdst, -⟩ | ⟨-, hi⟩ | ⟨hopen, -⟩
    · exact absurd (hdst.symm.trans hidle) hd
    · exact hi
    · exact absurd hidle hopen
  · rcases decode_kept_ended_or_moved h hd with ⟨hdst, hdcur⟩ | ⟨hidle, -⟩ | ⟨-, hi⟩
    · simp [hdst, hdcur] at hmoved
    · exact absurd hidle hopen
    · exact hi
  · rcases load_kept_ended_or_moved h hl with ⟨-, -, hlst⟩ | ⟨-, hi⟩ | ⟨hopen, -⟩
    · exact absurd (hlst.symm.trans hidle) hl
    · exact hi
    · exact absurd hidle hopen
  · rcases load_kept_ended_or_moved h hl with ⟨hnn, hnode, hlst⟩ | ⟨hidle, -⟩ | ⟨-, hi⟩
    · simp [hnn, hnode, hlst] at hmoved
    · exact absurd hidle hopen
    · exact hi

end Sys2Proof.Machine
end
